-- ==== Sys2Proof/Word.lean ====
section
/-! DEFINITION. The word types of QRCORE: the 32-bit bus and command word (R64, R90) and the 8-bit
buffer entry (R40). Every value is unsigned (R8). -/

namespace Sys2Proof

/-- A 32-bit word: a bus datum, a command (R65, R91). -/
abbrev Word := BitVec 32

/-- An 8-bit codeword or field element (R40, R112). -/
abbrev Byte := BitVec 8

end Sys2Proof
end

