-- ==== Sys2Proof/Machine/Types.lean ====
section
/-! DEFINITION. The closed sets of names the spec gives: module values, error codes, buffers, grids,
registers, what an offset of the window names, and the Host's operations. -/

namespace Sys2Proof.Machine

/-- A module: "tri-state value Unset, Light, Dark" (R41, R150). -/
inductive QrModule where
  | unset | light | dark
  deriving DecidableEq, Repr, Inhabited

/-- The command errors of R221, one constructor per code. -/
inductive CmdError where
  | illegalOpcode | reservedField
  | cfgVersion | cfgEcKey | cfgEcDiv | cfgLayout
  | ovfRange
  | invLogZero | invPlaceReserved | invPlaceOob | invPlaceExhausted
  deriving DecidableEq, Repr

/-- The three 8-bit buffers of R40. -/
inductive BufferId where
  | dataIn | ecOut | seq
  deriving DecidableEq, Repr

/-- The two grid memories of R41. -/
inductive GridId where
  | ref | data
  deriving DecidableEq, Repr

/-- The control and status registers of R22 to R36, in the order of their offsets. -/
inductive Reg where
  | id | status | ctrl | cmd | result | version | dataLen | ecTotal | layoutN
  | layout0 | layout1 | layout2 | layout3
  | seqNbits | ecStart | blocks | ecPerBlock | fillCount
  deriving DecidableEq, Repr

/-- What a 4-byte-aligned offset of the window names (R61, R62, R63, R37, R69). -/
inductive Slot where
  /-- a register of R22 to R36 -/
  | reg (r : Reg)
  /-- entry `i` of a buffer (R62) -/
  | entry (b : BufferId) (i : Nat)
  /-- cell `(r, c)` of a grid, one of the 41 × 41 that have storage (R63) -/
  | cell (g : GridId) (r c : Nat)
  /-- a grid slot with `r ≥ 41` or `c ≥ 41` (R63) -/
  | noStorage
  /-- a reserved offset (R37, R69) -/
  | reserved
  deriving DecidableEq, Repr

/-- The size of a host access (R64): 8, 16 or 32 bits. -/
inductive Width where
  | byte | half | word
  deriving DecidableEq, Repr

/-- Where a host access goes: a byte offset of the window (R10, R60: a 17-bit value), or an address of
the platform's bus, which reaches the block when it lies in the window at BASE (R60). -/
inductive Target where
  | offset (a : BitVec 17)
  | bus (address : Nat)
  deriving DecidableEq, Repr

/-- One operation of the Host's program: a read, a write, `wait` (poll STATUS until DONE = 1, R102), or
`waitIrq` (wait for the `irq` wire, R73, R258). -/
inductive HostOp where
  | read (size : Width) (target : Target)
  | write (size : Width) (target : Target) (value : Word)
  | wait
  | waitIrq
  deriving DecidableEq, Repr

/-- Who moves next: the Host, the Engine (R12), or the platform's hard-reset input (R250). -/
inductive Turn where
  | host | engine | hardReset
  deriving DecidableEq, Repr

/-- The placer's vertical direction (R182): up is towards row 0. -/
inductive Dir where
  | up | down
  deriving DecidableEq, Repr

/-- The placer's horizontal phase (R182): the right or the left sub-column of the column pair. -/
inductive Phase where
  | right | left
  deriving DecidableEq, Repr

/-- The placer's traversal state `(r, c, d, ph)` of R182. -/
structure Trav where
  row : Nat
  col : Nat
  dir : Dir
  phase : Phase
  deriving DecidableEq, Repr

/-- Why the Host's merge of two grids fails (R159): both sides set, or neither. -/
inductive MergeError where
  | collision | bothNull
  deriving DecidableEq, Repr

end Sys2Proof.Machine
end

