-- ==== Sys2Proof/Syntax.lean ====
section
/-! DEFINITION. The commands of QRCORE, one constructor per row of the opcode map R98, with the fields
of their formats R92 to R97 as unsigned bit fields (R100). -/

namespace Sys2Proof

/-- A command (R98). -/
inductive Instr where
  /-- R113, format N -/
  | nop
  /-- R114, format G2: A and B -/
  | gfAdd (a b : Byte)
  /-- R115, format G2: A and B -/
  | gfMul (a b : Byte)
  /-- R116, format G1: the exponent A -/
  | gfExp (a : Byte)
  /-- R117, format G1: the element A -/
  | gfLog (a : Byte)
  /-- R132, format R: OFF, LEN and N -/
  | rsEncode (off len n : Byte)
  /-- R143, format B: ECL and MASKID -/
  | bchEncode (ecl : BitVec 2) (maskId : BitVec 3)
  /-- R151, format N -/
  | clearRef
  /-- R152, format N -/
  | clearData
  /-- R171, format N -/
  | interleave
  /-- R186, format N -/
  | place
  /-- R201, format K: the mask id K -/
  | mask (k : BitVec 3)
  deriving DecidableEq, Repr

end Sys2Proof
end

