-- ==== Sys2Proof/WellFormed.lean ====
section
/-! DEFINITION. The assembler line of R101 and the checks it makes. A command's fields are bit fields of
their own widths, so every `Instr` is well formed; what can be ill formed is an assembler line, whose
operands are numbers: "The assembler refuses an operand that does not fit its field". -/

namespace Sys2Proof

/-- A line of the command assembler (R101), operands as written. -/
inductive AsmLine where
  | nop
  | gfAdd (a b : Nat)
  | gfMul (a b : Nat)
  | gfExp (e : Nat)
  | gfLog (a : Nat)
  | rsEncode (off len n : Nat)
  | bchEncode (ecl maskId : Nat)
  | clearRef
  | clearData
  | interleave
  | place
  | mask (k : Nat)
  deriving DecidableEq, Repr

/-- R101: "a, b, e, off, len and n must be < 256; ecl must be < 4; mask and k must be < 8". -/
def AsmLine.wellFormed : AsmLine → Bool
  | .nop | .clearRef | .clearData | .interleave | .place => true
  | .gfAdd a b | .gfMul a b => decide (a < 256) && decide (b < 256)
  | .gfExp a | .gfLog a => decide (a < 256)
  | .rsEncode off len n => decide (off < 256) && decide (len < 256) && decide (n < 256)
  | .bchEncode ecl maskId => decide (ecl < 4) && decide (maskId < 8)
  | .mask k => decide (k < 8)

/-- The command a line names, its operands cut to their fields. -/
def AsmLine.toInstr : AsmLine → Instr
  | .nop => .nop
  | .gfAdd a b => .gfAdd (BitVec.ofNat 8 a) (BitVec.ofNat 8 b)
  | .gfMul a b => .gfMul (BitVec.ofNat 8 a) (BitVec.ofNat 8 b)
  | .gfExp e => .gfExp (BitVec.ofNat 8 e)
  | .gfLog a => .gfLog (BitVec.ofNat 8 a)
  | .rsEncode off len n => .rsEncode (BitVec.ofNat 8 off) (BitVec.ofNat 8 len) (BitVec.ofNat 8 n)
  | .bchEncode ecl maskId => .bchEncode (BitVec.ofNat 2 ecl) (BitVec.ofNat 3 maskId)
  | .clearRef => .clearRef
  | .clearData => .clearData
  | .interleave => .interleave
  | .place => .place
  | .mask k => .mask (BitVec.ofNat 3 k)

/-- The assembler of R101: a well-formed line's command, nothing for a line it refuses. -/
def AsmLine.assemble (l : AsmLine) : Option Instr :=
  if l.wellFormed then some l.toInstr else none

end Sys2Proof
end

