-- ==== Sys2Proof/Decode.lean ====
section
/-! DEFINITION. Decoding a command word (R90 to R100), total on every word and rejecting by name, and
the encoder written from R101. -/

namespace Sys2Proof

open Sys2Proof.Machine

/-- The field of `n` bits of `w` whose lowest bit is bit `lo`, unsigned (R8, R100). -/
def field (w : Word) (lo n : Nat) : BitVec n := w.extractLsb' lo n

/-- Format N (R92): bits 31..8 reserved. -/
def formatN (w : Word) (i : Instr) : Except CmdError Instr :=
  if field w 8 24 = 0#24 then .ok i else .error .reservedField

/-- Format G2 (R93): A = w[15:8], B = w[23:16], bits 31..24 reserved. -/
def formatG2 (w : Word) (i : Byte → Byte → Instr) : Except CmdError Instr :=
  if field w 24 8 = 0#8 then .ok (i (field w 8 8) (field w 16 8)) else .error .reservedField

/-- Format G1 (R94): A = w[15:8], bits 31..16 reserved. -/
def formatG1 (w : Word) (i : Byte → Instr) : Except CmdError Instr :=
  if field w 16 16 = 0#16 then .ok (i (field w 8 8)) else .error .reservedField

/-- Format R (R95): OFF = w[15:8], LEN = w[23:16], N = w[31:24], no reserved bit. -/
def formatR (w : Word) (i : Byte → Byte → Byte → Instr) : Except CmdError Instr :=
  .ok (i (field w 8 8) (field w 16 8) (field w 24 8))

/-- Format B (R96): ECL = w[12:11], MASKID = w[10:8], bits 31..13 reserved. -/
def formatB (w : Word) (i : BitVec 2 → BitVec 3 → Instr) : Except CmdError Instr :=
  if field w 13 19 = 0#19 then .ok (i (field w 11 2) (field w 8 3)) else .error .reservedField

/-- Format K (R97): K = w[10:8], bits 31..11 reserved. -/
def formatK (w : Word) (i : BitVec 3 → Instr) : Except CmdError Instr :=
  if field w 11 21 = 0#21 then .ok (i (field w 8 3)) else .error .reservedField

/-- R90 and the opcode map R98: the opcode w[7:0] first (ILLEGAL_OPCODE), then the format's reserved bits
(RESERVED_FIELD), then the command with the fields of its format. -/
def decode (w : Word) : Except CmdError Instr :=
  let opc := (field w 0 8).toNat
  if opc = 0x00 then formatN w .nop
  else if opc = 0x01 then formatG2 w .gfAdd
  else if opc = 0x02 then formatG2 w .gfMul
  else if opc = 0x03 then formatG1 w .gfExp
  else if opc = 0x04 then formatG1 w .gfLog
  else if opc = 0x10 then formatR w .rsEncode
  else if opc = 0x20 then formatB w .bchEncode
  else if opc = 0x30 then formatN w .clearRef
  else if opc = 0x31 then formatN w .clearData
  else if opc = 0x40 then formatN w .interleave
  else if opc = 0x50 then formatN w .place
  else if opc = 0x60 then formatK w .mask
  else .error .illegalOpcode

/-- A word as the bytes of the bus carry it, least significant first (R65). -/
def wordBytes (w : Word) : List Byte := [field w 0 8, field w 8 8, field w 16 8, field w 24 8]

/-- The word that four byte lanes carry (R65). -/
def ofBytes : List Byte → Option Word
  | [b0, b1, b2, b3] => some (b3 ++ b2 ++ b1 ++ b0)
  | _ => none

/-- Decoding on bytes: the next command and the bytes after it; every command is 32 bits (R91). Fewer than
four bytes spell no command. -/
def decodeBytes : List Byte → Option (Except CmdError Instr × List Byte)
  | b0 :: b1 :: b2 :: b3 :: rest => some (decode (b3 ++ b2 ++ b1 ++ b0), rest)
  | _ => none

/-- The host's question: the command read from a word whose low `nbits` bits are `w`'s and whose other
bits are 0, laid out as four bytes. -/
def decodeTableWord (nbits w : Nat) : Option Instr :=
  match decodeBytes (wordBytes (BitVec.ofNat 32 (w % 2 ^ nbits))) with
  | some (.ok i, _) => some i
  | _ => none

/-- The encoding of R101, with the fields where R92 to R97 put them. -/
def encode : Instr → Word
  | .nop => 0x00000000#32
  | .gfAdd a b => 0#8 ++ b ++ a ++ 0x01#8
  | .gfMul a b => 0#8 ++ b ++ a ++ 0x02#8
  | .gfExp a => 0#16 ++ a ++ 0x03#8
  | .gfLog a => 0#16 ++ a ++ 0x04#8
  | .rsEncode off len n => n ++ len ++ off ++ 0x10#8
  | .bchEncode ecl maskId => 0#19 ++ ecl ++ maskId ++ 0x20#8
  | .clearRef => 0x00000030#32
  | .clearData => 0x00000031#32
  | .interleave => 0x00000040#32
  | .place => 0x00000050#32
  | .mask k => 0#21 ++ k ++ 0x60#8

/-- The opcode map of R98 as its match and mask columns: mnemonic, match, mask. -/
def opcodeMap : List (String × Word × Word) :=
  [("NOP", 0x00000000#32, 0xFFFFFFFF#32),
   ("GF_ADD", 0x00000001#32, 0xFF0000FF#32),
   ("GF_MUL", 0x00000002#32, 0xFF0000FF#32),
   ("GF_EXP", 0x00000003#32, 0xFFFF00FF#32),
   ("GF_LOG", 0x00000004#32, 0xFFFF00FF#32),
   ("RS_ENCODE", 0x00000010#32, 0x000000FF#32)] ++
  [("BCH_ENCODE", 0x00000020#32, 0xFFFFE0FF#32),
   ("CLEAR_REF", 0x00000030#32, 0xFFFFFFFF#32),
   ("CLEAR_DATA", 0x00000031#32, 0xFFFFFFFF#32),
   ("INTERLEAVE", 0x00000040#32, 0xFFFFFFFF#32),
   ("PLACE", 0x00000050#32, 0xFFFFFFFF#32),
   ("MASK", 0x00000060#32, 0xFFFFF8FF#32)]

/-- The row of R98 a command belongs to, by its mnemonic. -/
def mnemonic : Instr → String
  | .nop => "NOP"
  | .gfAdd _ _ => "GF_ADD"
  | .gfMul _ _ => "GF_MUL"
  | .gfExp _ => "GF_EXP"
  | .gfLog _ => "GF_LOG"
  | .rsEncode _ _ _ => "RS_ENCODE"
  | .bchEncode _ _ => "BCH_ENCODE"
  | .clearRef => "CLEAR_REF"
  | .clearData => "CLEAR_DATA"
  | .interleave => "INTERLEAVE"
  | .place => "PLACE"
  | .mask _ => "MASK"

/-- R98: "A word w spells a command iff (w AND mask) = match for some row". -/
def spells (w : Word) (row : String × Word × Word) : Bool := w &&& row.2.2 == row.2.1

end Sys2Proof
end

