-- ==== Sys2Proof/Config.lean ====
section
/-! DEFINITION. What the spec leaves open: the draws of R251 and R66, under no law, and the platform's
parameters BASE and IRQ_LINE. None has a body a proof can see, so a claim holds whatever they are. -/

namespace Sys2Proof.Config

open Sys2Proof.Machine

/-- The value a buffer entry holds after a hard reset (R251): one free value per entry, and per hard
reset (`epoch` counts them). Log entry 1. -/
opaque drawByte (epoch address : Nat) : Byte

/-- The value a grid cell holds after a hard reset (R251). Log entry 1. -/
opaque drawModule (epoch address : Nat) : QrModule

/-- The `n`-th value returned by a read that R66 makes unspecified, or by a read that misses the
window. Log entries 3 and 9. -/
opaque drawWord (n : Nat) : Word

/-- BASE, the platform address of the window's offset 0 (R60): OPEN. Log entry 9. -/
opaque base : Nat

/-- IRQ_LINE, the interrupt-controller input that `irq` drives (R231): OPEN. Log entry 9. -/
opaque irqLine : Nat

end Sys2Proof.Config
end

