-- ==== Sys2Proof/Machine/State.lean ====
section
/-! DEFINITION. The state of the machine: QRCORE's registers and memories, and the Host agent with the
order of moves (R12, R71). Plain data throughout. -/

namespace Sys2Proof.Machine

/-- STATUS (R23). Its reserved bits are RAZ/WI and have no storage. -/
structure Status where
  busy : Bool
  done : Bool
  err : Bool
  herr : Bool
  errCode : Byte
  deriving DecidableEq, Repr

/-- The control registers of R24 to R36 but for STATUS, each at its used width (R38). ID is a constant
(R22) and SRST is an action bit that reads 0 (R24): neither is stored. -/
structure Csr where
  /-- CTRL.IE (R24) -/
  ie : Bool
  /-- CMD, the latched command word (R25) -/
  cmd : Word
  /-- RESULT (R26) -/
  result : BitVec 16
  /-- VERSION (R27) -/
  version : BitVec 3
  /-- DATA_LEN (R28) -/
  dataLen : BitVec 9
  /-- EC_TOTAL (R29) -/
  ecTotal : BitVec 9
  /-- LAYOUT_N (R30) -/
  layoutN : BitVec 3
  /-- LAYOUT0 to LAYOUT3 (R31): DCOUNT in [7:0], REPEAT in [15:8] -/
  layout0 : BitVec 16
  layout1 : BitVec 16
  layout2 : BitVec 16
  layout3 : BitVec 16
  /-- SEQ_NBITS (R32) -/
  seqNbits : BitVec 12
  /-- EC_START (R33) -/
  ecStart : BitVec 12
  /-- BLOCKS (R34) -/
  blocks : BitVec 10
  /-- EC_PER_BLOCK (R35) -/
  ecPerBlock : BitVec 8
  /-- FILL_COUNT (R36) -/
  fillCount : BitVec 11
  deriving DecidableEq, Repr

/-- The machine. -/
structure State where
  /-- STATUS (R23) -/
  status : Status
  /-- the other control registers (R24 to R36) -/
  csr : Csr
  /-- DATA_IN, EC_OUT, SEQ, REF and DATA (R40, R41): the elements written since the last hard reset, each
  under the window offset of its word slot (R62, R63), offsets strictly rising -/
  mem : List Host.Cell
  /-- the model's own: how many hard resets there were (log entry 2) -/
  epoch : Nat
  /-- the model's own: how many free words were drawn (log entry 3) -/
  draws : Nat
  /-- the Host's remaining program (R12, R102) -/
  prog : List HostOp
  /-- what the Host's reads returned, newest first (R264) -/
  reads : List Word
  /-- who moves next (R70, R71, R250) -/
  turns : List Turn
  deriving DecidableEq, Repr

/-- There is no fault: "No error stops the block" (R220) and "QRCORE therefore has no stuck state" (R238).
Nothing raises one; a command error is an error completion, an ordinary next state (R224). Safe. -/
inductive Fault where
  deriving DecidableEq, Repr

/-- What has no meaning. -/
inductive Refusal where
  /-- Raised by `exec` for an instruction with no meaning yet; no instruction of this model raises it. Safe. -/
  | notModelled (mnemonic : String)
  deriving DecidableEq, Repr

/-- STATUS after either reset (R23, R250, R252). -/
def Status.reset : Status :=
  { busy := false, done := false, err := false, herr := false, errCode := 0x00#8 }

/-- The control registers after either reset: 0 (R24 to R36, R250, R252). -/
def Csr.reset : Csr :=
  { ie := false, cmd := 0#32, result := 0#16, version := 0#3, dataLen := 0#9, ecTotal := 0#9,
    layoutN := 0#3, layout0 := 0#16, layout1 := 0#16, layout2 := 0#16, layout3 := 0#16,
    seqNbits := 0#12, ecStart := 0#12, blocks := 0#10, ecPerBlock := 0#8, fillCount := 0#11 }

/-- The machine right after the hard reset (R250, R251, R253): registers 0, no memory element written, the
Engine idle. The Host has no program and no turn is set (log entries 4 and 5). -/
def State.reset : State :=
  { status := Status.reset, csr := Csr.reset, mem := [], epoch := 0, draws := 0,
    prog := [], reads := [], turns := [] }

end Sys2Proof.Machine
end

