-- ==== Sys2Proof/Machine/Flags.lean ====
section
/-! DEFINITION. The flags of STATUS (R23): the error codes, what issue, completion and the Host's W1C
write do to them, and the interrupt output. -/

namespace Sys2Proof.Machine

/-- The codes of R221. -/
def CmdError.code : CmdError → Byte
  | .illegalOpcode => 0x11#8
  | .reservedField => 0x12#8
  | .cfgVersion => 0x21#8
  | .cfgEcKey => 0x22#8
  | .cfgEcDiv => 0x23#8
  | .cfgLayout => 0x24#8
  | .ovfRange => 0x31#8
  | .invLogZero => 0x41#8
  | .invPlaceReserved => 0x42#8
  | .invPlaceOob => 0x43#8
  | .invPlaceExhausted => 0x44#8

/-- STATUS as a word (R23): BUSY [0], DONE [1], ERR [2], HERR [3], ERR_CODE [15:8], the rest 0. -/
def Status.word (t : Status) : Word :=
  BitVec.ofNat 32 (t.busy.toNat + 2 * t.done.toNat + 4 * t.err.toNat + 8 * t.herr.toNat
    + 256 * t.errCode.toNat)

/-- Issue (R25): DONE, ERR and ERR_CODE to 0, BUSY to 1. -/
def Status.issued (t : Status) : Status :=
  { t with busy := true, done := false, err := false, errCode := 0x00#8 }

/-- Successful completion (R224): BUSY <- 0, DONE <- 1; ERR and ERR_CODE stay. -/
def Status.succeeded (t : Status) : Status := { t with busy := false, done := true }

/-- Error completion with code E (R224): BUSY <- 0, DONE <- 1, ERR <- 1, ERR_CODE <- E. -/
def Status.failed (t : Status) (e : CmdError) : Status :=
  { t with busy := false, done := true, err := true, errCode := e.code }

/-- A host-interface error sets the sticky HERR and nothing else (R220, R230). -/
def Status.hostError (t : Status) : Status := { t with herr := true }

/-- A host write to STATUS (R23): a 1 in bit 1, 2 or 3 clears DONE, ERR or HERR, and a write that
clears ERR sets ERR_CODE to 0x00. BUSY, ERR_CODE and the reserved bits ignore the write. -/
def Status.writeOneToClear (t : Status) (w : Word) : Status :=
  { t with
    done := t.done && !w.getLsbD 1
    err := t.err && !w.getLsbD 2
    herr := t.herr && !w.getLsbD 3
    errCode := if w.getLsbD 2 then 0x00#8 else t.errCode }

/-- `irq = csr.CTRL.IE AND csr.STATUS.DONE`, a level (R39, R231). -/
def State.irq (s : State) : Bool := s.csr.ie && s.status.done

/-- The level QRCORE drives on a line of the platform's interrupt controller: `irq` on IRQ_LINE, nothing
on any other (R231). -/
def State.drives (s : State) (line : Nat) : Bool := line == Config.irqLine && s.irq

end Sys2Proof.Machine
end

