-- ==== Sys2Proof/Machine/Ops.lean ====
section
/-! DEFINITION. The named operations over memory and registers: the one memory of buffers and grids,
issue (R25), completion with success or with an error (R224), and the two resets (R250, R252). -/

namespace Sys2Proof.Machine

/-- The first window offset of a buffer (R62). -/
def BufferId.base : BufferId → Nat
  | .dataIn => 0x01000
  | .ecOut => 0x01400
  | .seq => 0x01800

/-- The first window offset of a grid (R63). -/
def GridId.base : GridId → Nat
  | .ref => 0x10000
  | .data => 0x14000

/-- The word slot of entry `i` of a buffer (R62). -/
def entryAddr (b : BufferId) (i : Nat) : Nat := b.base + 4 * i

/-- The word slot of cell `(r, c)` of a grid (R63). -/
def cellAddr (g : GridId) (r c : Nat) : Nat := g.base + 4 * (gridStride * r + c)

/-- The cell codes of R63. -/
def QrModule.code : QrModule → Byte
  | .unset => 0b00#8
  | .light => 0b10#8
  | .dark => 0b11#8

/-- The module a stored code stands for: "Bit 1 means set and bit 0 is the module's colour when set
(1 = Dark)" (R63). -/
def QrModule.ofCode (b : Byte) : QrModule :=
  if b.getLsbD 1 then (if b.getLsbD 0 then .dark else .light) else .unset

/-- A module is Unset. -/
def QrModule.isUnset : QrModule → Bool
  | .unset => true
  | .light | .dark => false

/-- "flips (bitwise NOT)" (R201): Light and Dark change places, Unset stays. -/
def QrModule.flip : QrModule → QrModule
  | .unset => .unset
  | .light => .dark
  | .dark => .light

/-- The module of a bit (R181): 1 is Dark, 0 is Light. -/
def QrModule.ofBit (b : Bool) : QrModule := if b then .dark else .light

/-- What a word slot that was not written since the last hard reset holds: the draw of R251, a byte for a
buffer entry, a module's code for a grid cell. The one definition of an unlisted address. -/
def unlisted (epoch a : Nat) : Byte :=
  if a < GridId.base .ref then Config.drawByte epoch a else (Config.drawModule epoch a).code

/-- The listed byte at the head of a memory whose first address is at least `a`. -/
def Memory.head (a : Nat) : List Host.Cell → Option Byte
  | (k, v) :: _ => if k = a then some v else none
  | [] => none

/-- The memory from address `a` on. -/
def Memory.from (a : Nat) (m : List Host.Cell) : List Host.Cell := m.dropWhile (fun e => e.1 < a)

/-- The byte listed at `a`, if any. -/
def Memory.find (m : List Host.Cell) (a : Nat) : Option Byte := Memory.head a (Memory.from a m)

/-- The bytes at rising addresses `as`, read in one pass; `other` is what an unlisted address reads as. -/
def Memory.readMany (other : Nat → Byte) : List Nat → List Host.Cell → List Byte
  | [], _ => []
  | a :: as, m => (Memory.head a (Memory.from a m)).getD (other a) :: Memory.readMany other as (Memory.from a m)

/-- Write the cells of a list whose addresses rise, in one pass. -/
def Memory.writeMany : List Host.Cell → List Host.Cell → List Host.Cell
  | [], m => m
  | (a, b) :: us, m => m.takeWhile (fun e => e.1 < a) ++ (a, b) :: Memory.writeMany us (Memory.from (a + 1) m)

/-- Addresses rise strictly. -/
def Memory.rising : List Nat → Bool
  | [] => true
  | [_] => true
  | a :: b :: as => decide (a < b) && Memory.rising (b :: as)

/-- The grid slots of R63 that have storage, from a grid's base on. -/
def gridStorage (base a : Nat) : Bool :=
  decide (base ≤ a) && (a - base) % 4 == 0 && decide ((a - base) / 4 / gridStride < maxSide)
    && decide ((a - base) / 4 % gridStride < maxSide)

/-- The window offsets that hold a buffer entry. -/
def entryStorage (a : Nat) : Bool := decide (0x01000 ≤ a) && decide (a < 0x01C00) && a % 4 == 0

/-- A listed cell is one the block has: a buffer entry with any byte, or a grid cell with a legal code
(R63: 0b01 "is never read back"). -/
def Memory.legal (e : Host.Cell) : Bool :=
  entryStorage e.1
    || ((gridStorage (GridId.base .ref) e.1 || gridStorage (GridId.base .data) e.1)
        && (e.2 == 0b00#8 || e.2 == 0b10#8 || e.2 == 0b11#8))

/-- The canonical form: addresses strictly rising, every cell one the block has. -/
def Memory.wf (m : List Host.Cell) : Bool := Memory.rising (m.map Prod.fst) && m.all Memory.legal

/-- The byte a word slot holds (R62, R63, R251). -/
def State.readByte (s : State) (a : Nat) : Byte := (Memory.find s.mem a).getD (unlisted s.epoch a)

/-- Entry `i` of a buffer (R40). -/
def State.entry (s : State) (b : BufferId) (i : Nat) : Byte := s.readByte (entryAddr b i)

/-- Cell `(r, c)` of a grid (R41). -/
def State.cell (s : State) (g : GridId) (r c : Nat) : QrModule := QrModule.ofCode (s.readByte (cellAddr g r c))

/-- The word slots of `n` elements from address `a` on. -/
def slotsFrom (a n : Nat) : List Nat := (List.range n).map (fun i => a + 4 * i)

/-- A whole buffer, entry 0 first (R79: the Engine reads by index). -/
def State.buffer (s : State) (b : BufferId) : List Byte :=
  Memory.readMany (unlisted s.epoch) (slotsFrom b.base bufEntries) s.mem

/-- Row `r` of a grid, column 0 first. -/
def rowSlots (g : GridId) (r : Nat) : List Nat := slotsFrom (cellAddr g r 0) maxSide

/-- The rows of a memory that starts no later than row `r`, `n` rows in one pass. -/
def rowsOf (other : Nat → Byte) (g : GridId) : Nat → Nat → List Host.Cell → List (List QrModule)
  | 0, _, _ => []
  | n + 1, r, m =>
    (Memory.readMany other (rowSlots g r) m).map QrModule.ofCode
      :: rowsOf other g n (r + 1) (Memory.from (cellAddr g (r + 1) 0) m)

/-- A whole grid, row 0 first, 41 rows of 41 modules (R41, R79). -/
def State.grid (s : State) (g : GridId) : List (List QrModule) :=
  rowsOf (unlisted s.epoch) g maxSide 0 (Memory.from g.base s.mem)

/-- The module of a grid's rows at `(r, c)`. -/
def moduleAt (rows : List (List QrModule)) (r c : Nat) : QrModule := (rows.getD r []).getD c .unset

/-- The cells that put the bytes `bs` into the word slots from address `a` on. -/
def cellsFrom (a : Nat) : List Byte → List Host.Cell
  | [] => []
  | b :: bs => (a, b) :: cellsFrom (a + 4) bs

/-- Commit a list of memory cells whose addresses rise. -/
def State.writeCells (s : State) (us : List Host.Cell) : State :=
  { s with mem := Memory.writeMany us s.mem }

/-- Store one element. -/
def State.writeByte (s : State) (a : Nat) (b : Byte) : State := s.writeCells [(a, b)]

/-- RESULT <- zext(v) (R26). -/
def State.setResult (s : State) (v : BitVec 16) : State := { s with csr := { s.csr with result := v } }

/-- A successful completion (R224). -/
def succeed (s : State) : Host.Outcome State Fault Refusal := .next { s with status := s.status.succeeded }

/-- An error completion with code E, this machine's exception entry (R224, R225): STATUS changes and nothing
else; no pc, vector, mode or saved register exists. -/
def failWith (e : CmdError) (s : State) : Host.Outcome State Fault Refusal :=
  .next { s with status := s.status.failed e }

/-- The commit rule of R224: a command that raised no error commits the outputs in `r`, one that raised
an error leaves the state as it was before it, but for STATUS. -/
def conclude (s : State) (r : Except CmdError State) : Host.Outcome State Fault Refusal :=
  match r with
  | .ok t => succeed t
  | .error e => failWith e s

/-- The Host's acknowledgement of a completion, this machine's return (R226): a W1C write to STATUS. -/
def acknowledge (w : Word) (s : State) : State := { s with status := s.status.writeOneToClear w }

/-- A refused host access: HERR is set and nothing else changes (R230). -/
def hostError (s : State) : State := { s with status := s.status.hostError }

/-- The issue of a command word (R25). -/
def issue (w : Word) (s : State) : State :=
  { s with status := s.status.issued, csr := { s.csr with cmd := w } }

/-- The soft reset (R252): the control registers as after a hard reset, the memories kept. -/
def softReset (s : State) : State := { s with status := Status.reset, csr := Csr.reset }

/-- The hard reset (R250, R251): the control registers at their reset values, a command in execution
abandoned, every buffer entry and grid cell a new draw. The Host's program is not the block's. -/
def hardReset (s : State) : State :=
  { s with status := Status.reset, csr := Csr.reset, mem := [], epoch := s.epoch + 1 }

/-- A fresh free word (R66, R238). -/
def drawWord (s : State) : Word × State := (Config.drawWord s.draws, { s with draws := s.draws + 1 })

/-- The state in which the Engine's next step executes the word `w`: `w` issued as by a host write to
CMD (R25), and the Engine to move next. -/
def loadForFetch (w : Word) (s : State) : State :=
  { issue w s with turns := .engine :: s.turns }

end Sys2Proof.Machine
end

