-- ==== Sys2Proof/Machine/Bch.lean ====
section
/-! DEFINITION. The BCH(15,5) format-information encoder and BCH_ENCODE (R140 to R143). -/

namespace Sys2Proof.Machine

/-- `StripLeadingZeros` of R140. -/
def stripLeadingZeros (bits : List Bool) : List Bool := bits.dropWhile (fun b => !b)

/-- XOR the generator into the leading bits (R140). -/
def xorLeading : List Bool → List Bool → List Bool
  | g :: gs, r :: rs => (g ^^ r) :: xorLeading gs rs
  | [], rs => rs
  | _ :: _, [] => []

/-- The loop of R140, at most `fuel` turns: while the length is at least 11, XOR the generator and strip
every leading zero. -/
def bchDivide : Nat → List Bool → List Bool
  | 0, r => r
  | fuel + 1, r =>
    if r.length < bchGenerator.length then r
    else bchDivide fuel (stripLeadingZeros (xorLeading bchGenerator r))

/-- `BchParity(m)` of R140: the remainder left-padded to exactly 10 bits. Each turn of the loop shortens
the 15 bits, so five turns are enough. -/
def bchParity (m : List Bool) : List Bool :=
  let r := bchDivide 5 (stripLeadingZeros (m ++ List.replicate 10 false))
  List.replicate (10 - r.length) false ++ r

/-- A value's low `n` bits, most significant first. -/
def bitsOf (n v : Nat) : List Bool := (List.range n).map (fun i => v.testBit (n - 1 - i))

/-- The number whose bits are these, most significant first (R141). -/
def bitsValue (bits : List Bool) : Nat := bits.foldl (fun v b => 2 * v + b.toNat) 0

/-- `FormatWord(M5)` of R141. -/
def formatWord (m5 : Nat) : Nat :=
  ((m5 <<< 10) ||| bitsValue (bchParity (bitsOf 5 m5))) ^^^ formatXor

/-- BCH_ENCODE (R143), with M5 = ECL·8 + MASKID (R142). -/
def execBchEncode (ecl : BitVec 2) (maskId : BitVec 3) (s : State) : Host.Outcome State Fault Refusal :=
  conclude s (.ok (s.setResult (BitVec.ofNat 16 (formatWord (8 * ecl.toNat + maskId.toNat)))))

end Sys2Proof.Machine
end

