-- ==== Sys2Proof/Machine/Control.lean ====
section
/-! DEFINITION. The control command NOP (R113). -/

namespace Sys2Proof.Machine

/-- NOP (R113): "Nothing changes except the completion flags." -/
def execNop (s : State) : Host.Outcome State Fault Refusal := conclude s (.ok s)

end Sys2Proof.Machine
end

