-- ==== Sys2Proof/Machine/Galois.lean ====
section
/-! DEFINITION. The GF(256) commands (R112, R114 to R117). -/

namespace Sys2Proof.Machine

/-- GF_ADD (R114). -/
def execGfAdd (a b : Byte) (s : State) : Host.Outcome State Fault Refusal :=
  conclude s (.ok (s.setResult ((gfAdd a b).setWidth 16)))

/-- GF_MUL (R115). -/
def execGfMul (a b : Byte) (s : State) : Host.Outcome State Fault Refusal :=
  conclude s (.ok (s.setResult ((gfMul a b).setWidth 16)))

/-- GF_EXP (R116): the exponent is taken mod 255. -/
def execGfExp (a : Byte) (s : State) : Host.Outcome State Fault Refusal :=
  conclude s (.ok (s.setResult ((gfExp a.toNat).setWidth 16)))

/-- GF_LOG (R117): the logarithm of 0 raises INV_LOG_ZERO, so the sentinel is never returned. -/
def execGfLog (a : Byte) (s : State) : Host.Outcome State Fault Refusal :=
  conclude s (if a = 0#8 then .error .invLogZero else .ok (s.setResult (BitVec.ofNat 16 (logAt a))))

end Sys2Proof.Machine
end

