-- ==== Sys2Proof/Machine/Grids.lean ====
section
/-! DEFINITION. The grid commands CLEAR_REF and CLEAR_DATA (R151, R152). -/

namespace Sys2Proof.Machine

/-- The cells `(r, c)` with `r, c < side` in row-major order. -/
def square (side : Nat) : List (Nat × Nat) :=
  (List.range side).flatMap (fun r => (List.range side).map (fun c => (r, c)))

/-- Every cell of a grid set to Unset, all 41 × 41 of them, whatever VERSION holds (R151, R152). -/
def State.clearGrid (s : State) (g : GridId) : State :=
  s.writeCells ((square maxSide).map (fun p => (cellAddr g p.1 p.2, QrModule.code .unset)))

/-- CLEAR_REF (R151). -/
def execClearRef (s : State) : Host.Outcome State Fault Refusal := conclude s (.ok (s.clearGrid .ref))

/-- CLEAR_DATA (R152). -/
def execClearData (s : State) : Host.Outcome State Fault Refusal := conclude s (.ok (s.clearGrid .data))

end Sys2Proof.Machine
end

