-- ==== Sys2Proof/Machine/Operands.lean ====
section
/-! DEFINITION. The operands a command reads besides its immediate fields (R20, R100): VERSION, the layout,
the message, and the bits of the sequence. -/

namespace Sys2Proof.Machine

/-- L(v) = 17 + 4·v (R7). -/
def sideOf (v : Nat) : Nat := 17 + 4 * v

/-- VERSION's side length when VERSION is in 1..6, else CFG_VERSION (R7, R222). -/
def State.side (s : State) : Except CmdError Nat :=
  if 1 ≤ s.csr.version.toNat ∧ s.csr.version.toNat ≤ 6 then .ok (sideOf s.csr.version.toNat)
  else .error .cfgVersion

/-- DCOUNT and REPEAT of a layout register (R31). -/
def layoutPair (w : BitVec 16) : Nat × Nat := ((w.extractLsb' 0 8).toNat, (w.extractLsb' 8 8).toNat)

/-- The valid layout entries, LAYOUT0 first (R30, R31). -/
def State.layout (s : State) : List (Nat × Nat) :=
  ([s.csr.layout0, s.csr.layout1, s.csr.layout2, s.csr.layout3].take s.csr.layoutN.toNat).map layoutPair

/-- DATA_IN[off .. off+len) (R132, R170). -/
def State.message (s : State) (off len : Nat) : List Byte := ((s.buffer .dataIn).drop off).take len

/-- `SeqBit(k)` of R78 over the entries of SEQ: codewords expanded MSB first. -/
def seqBit (seq : List Byte) (k : Nat) : Bool := (seq.getD (k / 8) 0#8).getLsbD (7 - k % 8)

/-- The first `n` bits of the sequence (R78). -/
def State.sequence (s : State) (n : Nat) : List Bool := (List.range n).map (seqBit (s.buffer .seq))

end Sys2Proof.Machine
end

