-- ==== Sys2Proof/Machine/ReedSolomon.lean ====
section
/-! DEFINITION. The Reed-Solomon polynomial divider and RS_ENCODE (R130 to R132). -/

namespace Sys2Proof.Machine

/-- One row of the division (R131): rem[j] XOR EXP[(g[j] + lg) mod 255] over the generator's length. -/
def addRow (lg : Nat) : List Nat → List Byte → List Byte
  | g :: gs, r :: rs => (r ^^^ expAt ((g + lg) % 255)) :: addRow lg gs rs
  | [], rs => rs
  | _ :: _, [] => []

/-- One turn of the division's loop (R131): a zero leading coefficient contributes no terms, and the
leading coefficient is dropped in both cases. -/
def divideStep (g : List Nat) : List Byte → List Byte
  | [] => []
  | lead :: rest => if lead = 0#8 then rest else (addRow (logAt lead) g (lead :: rest)).drop 1

/-- `k` turns of the division's loop. -/
def divideSteps (g : List Nat) : Nat → List Byte → List Byte
  | 0, rem => rem
  | k + 1, rem => divideSteps g k (divideStep g rem)

/-- `RsRem(msg, n)` of R131, `g` being GEN[n]: the loop runs exactly `len(msg)` times. -/
def rsRem (g : List Nat) (n : Nat) (msg : List Byte) : List Byte :=
  divideSteps g msg.length (msg ++ List.replicate n 0#8)

/-- What RS_ENCODE computes (R132), its checks in the order of R223. -/
def rsEncodeResult (off len n : Byte) (s : State) : Except CmdError State :=
  match genRow n.toNat with
  | none => .error .cfgEcKey
  | some g =>
    if off.toNat + len.toNat > bufEntries then .error .ovfRange
    else .ok (s.writeCells (cellsFrom (BufferId.base .ecOut)
      (rsRem g n.toNat (s.message off.toNat len.toNat))))

/-- RS_ENCODE (R132). -/
def execRsEncode (off len n : Byte) (s : State) : Host.Outcome State Fault Refusal :=
  conclude s (rsEncodeResult off len n s)

end Sys2Proof.Machine
end

