-- ==== Sys2Proof/Machine/Interleave.lean ====
section
/-! DEFINITION. The block interleaver and INTERLEAVE (R170, R171). -/

namespace Sys2Proof.Machine

/-- `Blocks()` of R170 from position `pos` on: (start, length) of each block, in layout order. -/
def blocksFrom (pos : Nat) : List (Nat × Nat) → List (Nat × Nat)
  | [] => []
  | (dcount, rep) :: es =>
    (List.range rep).map (fun t => (pos + dcount * t, dcount)) ++ blocksFrom (pos + dcount * rep) es

/-- The number of blocks, the sum of REPEAT (R170). -/
def blockCount (layout : List (Nat × Nat)) : Nat := (layout.map Prod.snd).sum

/-- The codewords the layout covers, the sum of DCOUNT·REPEAT (R170). -/
def layoutTotal (layout : List (Nat × Nat)) : Nat := (layout.map (fun p => p.1 * p.2)).sum

/-- The first `height` columns of the blocks, "skipping any block once its data is exhausted" (R171). -/
def columns (height : Nat) (blocks : List (List Byte)) : List Byte :=
  (List.range height).flatMap (fun i => blocks.filterMap (fun b => b[i]?))

/-- The longest block's length. -/
def tallest (blocks : List (List Byte)) : Nat := (blocks.map List.length).foldl Nat.max 0

/-- The commit of INTERLEAVE (R171): `data` the blocks' codewords, `ec` their EC codewords, `count` the
number of blocks and `e` the EC codewords per block. -/
def interleaveCommit (data ec : List (List Byte)) (count e : Nat) (s : State) : State :=
  let t := s.writeCells (cellsFrom (BufferId.base .ecOut) ec.flatten
    ++ cellsFrom (BufferId.base .seq) (columns (tallest data) data ++ columns e ec))
  { t with csr := { t.csr with
      seqNbits := BitVec.ofNat 12 (8 * (s.csr.dataLen.toNat + s.csr.ecTotal.toNat))
      ecStart := BitVec.ofNat 12 (8 * s.csr.dataLen.toNat)
      blocks := BitVec.ofNat 10 count
      ecPerBlock := BitVec.ofNat 8 e } }

/-- What INTERLEAVE computes (R171), its checks in R171's order. -/
def interleaveResult (s : State) : Except CmdError State :=
  let count := blockCount s.layout
  let e := s.csr.ecTotal.toNat / count
  if s.csr.layoutN.toNat < 1 ∨ layoutEntries < s.csr.layoutN.toNat then .error .cfgLayout
  else if count = 0 then .error .cfgLayout
  else if layoutTotal s.layout ≠ s.csr.dataLen.toNat then .error .cfgLayout
  else if s.csr.ecTotal.toNat % count ≠ 0 then .error .cfgEcDiv
  else match genRow e with
    | none => .error .cfgEcKey
    | some g =>
      if s.csr.dataLen.toNat + s.csr.ecTotal.toNat > bufEntries then .error .ovfRange
      else
        let data := (blocksFrom 0 s.layout).map (fun b => s.message b.1 b.2)
        .ok (interleaveCommit data (data.map (rsRem g e)) count e s)

/-- INTERLEAVE (R171). -/
def execInterleave (s : State) : Host.Outcome State Fault Refusal := conclude s (interleaveResult s)

end Sys2Proof.Machine
end

