-- ==== Sys2Proof/Machine/Mask.lean ====
section
/-! DEFINITION. The mask predicates and MASK (R200, R201). -/

namespace Sys2Proof.Machine

/-- The predicate M_K(i, j) of R200. -/
def maskPredicate (k : Nat) (i j : Nat) : Bool :=
  match k with
  | 0 => (i + j) % 2 == 0
  | 1 => i % 2 == 0
  | 2 => j % 3 == 0
  | 3 => (i + j) % 3 == 0
  | 4 => (i / 2 + j / 3) % 2 == 0
  | 5 => (i * j) % 2 + (i * j) % 3 == 0
  | 6 => ((i * j) % 2 + (i * j) % 3) % 2 == 0
  | _ => ((i * j) % 3 + (i + j) % 2) % 2 == 0

/-- What MASK writes into row `i` of DATA: the flipped modules where the predicate holds and the cell is
not Unset (R201). -/
def maskRow (k side : Nat) (row : List QrModule) (i : Nat) : List Host.Cell :=
  (List.range side).filterMap (fun j =>
    let m := row.getD j .unset
    if !m.isUnset && maskPredicate k i j then some (cellAddr .data i j, m.flip.code) else none)

/-- What MASK computes (R201). -/
def maskResult (k : Nat) (s : State) : Except CmdError State :=
  match s.side with
  | .error e => .error e
  | .ok side =>
    let data := s.grid .data
    .ok (s.writeCells ((List.range side).flatMap (fun i => maskRow k side (data.getD i []) i)))

/-- MASK (R201). -/
def execMask (k : BitVec 3) (s : State) : Host.Outcome State Fault Refusal :=
  conclude s (maskResult k.toNat s)

end Sys2Proof.Machine
end

