-- ==== Sys2Proof/Machine/Placer.lean ====
section
/-! DEFINITION. The zigzag placer and PLACE (R180 to R187). -/

namespace Sys2Proof.Machine

/-- `Vacant(r, c)` of R180 over REF's rows: inside the L × L square and Unset in REF. -/
def vacantIn (rows : List (List QrModule)) (side r c : Nat) : Bool :=
  decide (r < side) && decide (c < side) && (moduleAt rows r c).isUnset

/-- The cell one column left of `(r, c)` is vacant; left of column 0 none is (R180, R183). -/
def vacantLeft (vac : Nat → Nat → Bool) (r : Nat) : Nat → Bool
  | 0 => false
  | c + 1 => vac r c

/-- The rows a probe visits from row `r` in direction `d` before it leaves the grid (R183, R184). -/
def probeRows (side r : Nat) : Dir → List Nat
  | .up => (List.range r).reverse
  | .down => List.range' (r + 1) (side - (r + 1))

/-- The opposite direction. -/
def Dir.flip : Dir → Dir
  | .up => .down
  | .down => .up

/-- The right phase's search (R183): at each probed row the right cell, then the left one; leaving the
grid raises INV_PLACE_OOB. -/
def rightProbe (vac : Nat → Nat → Bool) (c : Nat) (d : Dir) : List Nat → Except CmdError Trav
  | [] => .error .invPlaceOob
  | p :: ps =>
    if vac p c then .ok { row := p, col := c, dir := d, phase := .right }
    else if vacantLeft vac p c then .ok { row := p, col := c - 1, dir := d, phase := .left }
    else rightProbe vac c d ps

/-- `Exhausted(r, c, d)` of R185: columns c−1 down to 0, in each the rows r up to 0. -/
def exhausted (vac : Nat → Nat → Bool) (r c : Nat) (d : Dir) : Except CmdError Trav :=
  match (List.range c).reverse.findSome? (fun k =>
      ((List.range (r + 1)).reverse.find? (fun q => vac q k)).map (fun q => (q, k))) with
  | some (q, k) => .ok { row := q, col := k, dir := d.flip, phase := .right }
  | none => .error .invPlaceExhausted

/-- The left phase's search (R184): at each probed row the cell one column right, then the current
column; leaving the grid exhausts the column pair. -/
def leftProbe (vac : Nat → Nat → Bool) (r c : Nat) (d : Dir) : List Nat → Except CmdError Trav
  | [] => exhausted vac r c d
  | p :: ps =>
    if vac p (c + 1) then .ok { row := p, col := c + 1, dir := d, phase := .right }
    else if vac p c then .ok { row := p, col := c, dir := d, phase := .left }
    else leftProbe vac r c d ps

/-- `Advance(r, c, d, ph)` of R183 to R185. -/
def advance (vac : Nat → Nat → Bool) (side : Nat) (t : Trav) : Except CmdError Trav :=
  match t.phase with
  | .right =>
    if vacantLeft vac t.row t.col then
      .ok { row := t.row, col := t.col - 1, dir := t.dir, phase := .left }
    else rightProbe vac t.col t.dir (probeRows side t.row t.dir)
  | .left => leftProbe vac t.row t.col t.dir (probeRows side t.row t.dir)

/-- The cells of the next `n` bits, the first of them at `t`: the position advances before every bit but
the first, and a bit's cell must be vacant (R186). -/
def zigzag (vac : Nat → Nat → Bool) (side : Nat) : Nat → Trav → Except CmdError (List (Nat × Nat))
  | 0, _ => .ok []
  | n + 1, t =>
    if vac t.row t.col then
      if n = 0 then .ok [(t.row, t.col)]
      else match advance vac side t with
        | .error e => .error e
        | .ok t' =>
          match zigzag vac side n t' with
          | .error e => .error e
          | .ok cells => .ok ((t.row, t.col) :: cells)
    else .error .invPlaceReserved

/-- The traversal's initial state: the bottom-right cell, up, right phase (R182). -/
def startTrav (side : Nat) : Trav := { row := side - 1, col := side - 1, dir := .up, phase := .right }

/-- The module placed at `(r, c)`, where `row` lists the columns and bits placed in row `r` (R181). -/
def placedIn (row : List (Nat × Bool)) (c : Nat) : Option QrModule := (row.lookup c).map QrModule.ofBit

/-- The columns and bits of the placements in row `r`. -/
def rowPlacements (placed : List ((Nat × Nat) × Bool)) (r : Nat) : List (Nat × Bool) :=
  placed.filterMap (fun p => if p.1.1 = r then some (p.1.2, p.2) else none)

/-- A slack cell (R187): Unset in REF, and Unset in DATA after the placed bits. -/
def slackIn (ref data : List QrModule) (row : List (Nat × Bool)) (c : Nat) : Bool :=
  (ref.getD c .unset).isUnset && ((placedIn row c).getD (data.getD c .unset)).isUnset

/-- What PLACE writes into row `r` of DATA: the placed bits (R181) and the slack cells, Dark (R187). -/
def placeRow (side : Nat) (ref data : List QrModule) (row : List (Nat × Bool)) (r : Nat) : List Host.Cell :=
  (List.range side).filterMap (fun c =>
    match placedIn row c with
    | some m => some (cellAddr .data r c, m.code)
    | none => if slackIn ref data row c then some (cellAddr .data r c, QrModule.code .dark) else none)

/-- The slack cells of row `r` (R187). -/
def slackCount (side : Nat) (ref data : List QrModule) (row : List (Nat × Bool)) : Nat :=
  (List.range side).countP (slackIn ref data row)

/-- The commit of PLACE (R186): the placed cells and the slack fill into DATA, the fill count into
FILL_COUNT. -/
def placeCommit (side : Nat) (placed : List ((Nat × Nat) × Bool)) (s : State) : State :=
  let ref := s.grid .ref
  let data := s.grid .data
  let t := s.writeCells ((List.range side).flatMap (fun r =>
    placeRow side (ref.getD r []) (data.getD r []) (rowPlacements placed r) r))
  let fill := ((List.range side).map (fun r =>
    slackCount side (ref.getD r []) (data.getD r []) (rowPlacements placed r))).sum
  { t with csr := { t.csr with fillCount := BitVec.ofNat 11 fill } }

/-- What PLACE computes (R186): CFG_VERSION, then OVF_RANGE, then the traversal's first error. -/
def placeResult (s : State) : Except CmdError State :=
  match s.side with
  | .error e => .error e
  | .ok side =>
    if s.csr.seqNbits.toNat > maxBits then .error .ovfRange
    else match zigzag (vacantIn (s.grid .ref) side) side s.csr.seqNbits.toNat (startTrav side) with
      | .error e => .error e
      | .ok cells => .ok (placeCommit side (cells.zip (s.sequence s.csr.seqNbits.toNat)) s)

/-- PLACE (R186). -/
def execPlace (s : State) : Host.Outcome State Fault Refusal := conclude s (placeResult s)

end Sys2Proof.Machine
end

