-- ==== Sys2Proof/Machine/Dispatch.lean ====
section
/-! DEFINITION. Dispatch: the meaning of every command, one arm per row of R98. -/

namespace Sys2Proof.Machine

-- The Engine's execution of a decoded command (R70, steps 2 to 5).
def exec (i : Instr) (s : State) : Host.Outcome State Fault Refusal :=
  match i with
  | .nop => Sys2Proof.Machine.execNop s
  | .gfAdd a b => Sys2Proof.Machine.execGfAdd a b s
  | .gfMul a b => Sys2Proof.Machine.execGfMul a b s
  | .gfExp a => Sys2Proof.Machine.execGfExp a s
  | .gfLog a => Sys2Proof.Machine.execGfLog a s
  | .rsEncode off len n => Sys2Proof.Machine.execRsEncode off len n s
  | .bchEncode ecl maskId => Sys2Proof.Machine.execBchEncode ecl maskId s
  | .clearRef => Sys2Proof.Machine.execClearRef s
  | .clearData => Sys2Proof.Machine.execClearData s
  | .interleave => Sys2Proof.Machine.execInterleave s
  | .place => Sys2Proof.Machine.execPlace s
  | .mask k => Sys2Proof.Machine.execMask k s

end Sys2Proof.Machine
end

