-- ==== Sys2Proof/Machine/Engine.lean ====
section
/-! DEFINITION. The Engine's step (R70). -/

namespace Sys2Proof.Machine

/-- The Engine's one atomic step (R70): decode the latched word, execute the command, complete. A decode
error completes the command with ILLEGAL_OPCODE or RESERVED_FIELD (R90, R99). -/
def engineStep (s : State) : Host.Outcome State Fault Refusal :=
  match decode s.csr.cmd with
  | .ok i => exec i s
  | .error e => failWith e s

/-- The Engine's turn: its step is enabled only while BUSY = 1 (R70, R71). -/
def engineTurn (s : State) : Host.Outcome State Fault Refusal :=
  if s.status.busy then engineStep s else .next s

end Sys2Proof.Machine
end

