-- ==== Sys2Proof/Machine/HostBus.lean ====
section
/-! DEFINITION. The host interface: the window's map (R60 to R63, R69), the registers as the Host reads and
writes them (R22 to R38), the access rules (R64, R66), and one move of the Host's program (R71, R102). -/

namespace Sys2Proof.Machine

/-- The registers in the order of their offsets, 0x000 first (10_state.md section 2). -/
def regList : List Reg :=
  [.id, .status, .ctrl, .cmd, .result, .version, .dataLen, .ecTotal, .layoutN,
   .layout0, .layout1, .layout2, .layout3, .seqNbits, .ecStart, .blocks, .ecPerBlock, .fillCount]

/-- The slot `n` bytes into a grid's window (R63). -/
def gridSlot (g : GridId) (n : Nat) : Slot :=
  if n / 4 / gridStride < maxSide ∧ n / 4 % gridStride < maxSide then
    .cell g (n / 4 / gridStride) (n / 4 % gridStride)
  else .noStorage

/-- What the aligned offset `a` names: the map of R61. -/
def slotAt (a : Nat) : Slot :=
  if a < 0x01000 then (match regList[a / 4]? with | some r => .reg r | none => .reserved)
  else if a < 0x01400 then .entry .dataIn ((a - 0x01000) / 4)
  else if a < 0x01800 then .entry .ecOut ((a - 0x01400) / 4)
  else if a < 0x01C00 then .entry .seq ((a - 0x01800) / 4)
  else if a < 0x10000 then .reserved
  else if a < 0x14000 then gridSlot .ref (a - 0x10000)
  else if a < 0x18000 then gridSlot .data (a - 0x14000)
  else .reserved

/-- A register as the Host reads it, its unused bits 0 (R22 to R36, R38). -/
def readReg (s : State) : Reg → Word
  | .id => idValue
  | .status => s.status.word
  | .ctrl => BitVec.ofNat 32 s.csr.ie.toNat
  | .cmd => s.csr.cmd
  | .result => s.csr.result.setWidth 32
  | .version => s.csr.version.setWidth 32
  | .dataLen => s.csr.dataLen.setWidth 32
  | .ecTotal => s.csr.ecTotal.setWidth 32
  | .layoutN => s.csr.layoutN.setWidth 32
  | .layout0 => s.csr.layout0.setWidth 32
  | .layout1 => s.csr.layout1.setWidth 32
  | .layout2 => s.csr.layout2.setWidth 32
  | .layout3 => s.csr.layout3.setWidth 32
  | .seqNbits => s.csr.seqNbits.setWidth 32
  | .ecStart => s.csr.ecStart.setWidth 32
  | .blocks => s.csr.blocks.setWidth 32
  | .ecPerBlock => s.csr.ecPerBlock.setWidth 32
  | .fillCount => s.csr.fillCount.setWidth 32

/-- A slot as the Host reads it while BUSY = 0 (R62, R63, R69). No read has a side effect (R67). -/
def readSlot (s : State) : Slot → Word
  | .reg r => readReg s r
  | .entry b i => (s.entry b i).setWidth 32
  | .cell g r c => (s.cell g r c).code.setWidth 32
  | .noStorage => 0#32
  | .reserved => 0#32

/-- CTRL.IE <- w[0] (R24). -/
def writeIe (w : Word) (s : State) : State := { s with csr := { s.csr with ie := w.getLsbD 0 } }

/-- A host write to CTRL while BUSY = 0: SRST = 1 resets, and IE is then not stored (R24, R252). -/
def writeCtrl (w : Word) (s : State) : State := if w.getLsbD 1 then softReset s else writeIe w s

/-- A host write to a register while BUSY = 0 (R22 to R38): an RW register stores the bits of its used
width, an RO register ignores the write. -/
def writeReg (w : Word) (s : State) : Reg → State
  | .id => s
  | .status => acknowledge w s
  | .ctrl => writeCtrl w s
  | .cmd => issue w s
  | .result => s
  | .version => { s with csr := { s.csr with version := w.setWidth 3 } }
  | .dataLen => { s with csr := { s.csr with dataLen := w.setWidth 9 } }
  | .ecTotal => { s with csr := { s.csr with ecTotal := w.setWidth 9 } }
  | .layoutN => { s with csr := { s.csr with layoutN := w.setWidth 3 } }
  | .layout0 => { s with csr := { s.csr with layout0 := w.setWidth 16 } }
  | .layout1 => { s with csr := { s.csr with layout1 := w.setWidth 16 } }
  | .layout2 => { s with csr := { s.csr with layout2 := w.setWidth 16 } }
  | .layout3 => { s with csr := { s.csr with layout3 := w.setWidth 16 } }
  | .seqNbits => { s with csr := { s.csr with seqNbits := w.setWidth 12 } }
  | .ecStart => s
  | .blocks => s
  | .ecPerBlock => s
  | .fillCount => s

/-- The cell code in a written word's bits [1:0]; 0b01 is illegal (R63). -/
def codeOfWord (w : Word) : Option Byte :=
  match (w.extractLsb' 0 2).toNat with
  | 0 => some 0b00#8
  | 2 => some 0b10#8
  | 3 => some 0b11#8
  | _ => none

/-- A host write to a slot while BUSY = 0 (R62, R63, R69). -/
def writeSlot (w : Word) (s : State) : Slot → State
  | .reg r => writeReg w s r
  | .entry b i => s.writeByte (entryAddr b i) (w.setWidth 8)
  | .cell g r c =>
    match codeOfWord w with
    | some code => s.writeByte (cellAddr g r c) code
    | none => hostError s
  | .noStorage => s
  | .reserved => s

/-- A host write to a slot while BUSY = 1 (R66): STATUS and CTRL with SRST = 0 take effect; a reserved
offset and a grid slot without storage never set HERR (R69, R230; log entry 7); every other write is
dropped and sets HERR. -/
def writeSlotBusy (w : Word) (s : State) : Slot → State
  | .reg .status => acknowledge w s
  | .reg .ctrl => if w.getLsbD 1 then hostError s else writeIe w s
  | .reg _ => hostError s
  | .entry _ _ => hostError s
  | .cell _ _ _ => hostError s
  | .noStorage => s
  | .reserved => s

/-- A location whose read while BUSY = 1 is what it is while BUSY = 0: ID, STATUS, CTRL and CMD (R66), and the
places that always read 0, a reserved offset (R37, R69) and a grid slot without storage (R63; log entry 6).
R66's draw is for "any other register, buffer entry or grid cell". -/
def readableBusy : Slot → Bool
  | .reg .id | .reg .status | .reg .ctrl | .reg .cmd => true
  | .noStorage | .reserved => true
  | _ => false

/-- The one legal access: 32 bits wide at a 4-byte-aligned offset (R64). -/
def legalAccess (size : Width) (a : BitVec 17) : Bool := size == .word && a.toNat % 4 == 0

/-- A host read at window offset `a` (R64, R66, R68): the value returned and the state after it. A narrow or
misaligned access is refused before its offset is looked at (log entry 19, a DESIGN CHOICE where the
offset is reserved or has no storage, or BUSY = 1). -/
def busRead (size : Width) (a : BitVec 17) (s : State) : Word × State :=
  if !legalAccess size a then (0#32, hostError s)
  else if s.status.busy && !readableBusy (slotAt a.toNat) then drawWord s
  else (readSlot s (slotAt a.toNat), s)

/-- A host write at window offset `a` (R64, R66, R68). A narrow or misaligned access is refused before its
offset is looked at (log entry 19, a DESIGN CHOICE where the offset is reserved or has no storage). -/
def busWrite (size : Width) (a : BitVec 17) (w : Word) (s : State) : State :=
  if !legalAccess size a then hostError s
  else if s.status.busy then writeSlotBusy w s (slotAt a.toNat)
  else writeSlot w s (slotAt a.toNat)

/-- The window offset an access reaches (R60): an address outside the window does not reach the block. -/
def Target.resolve : Target → Option (BitVec 17)
  | .offset a => some a
  | .bus address =>
    if Config.base ≤ address ∧ address < Config.base + 0x20000 then
      some (BitVec.ofNat 17 (address - Config.base))
    else none

/-- A host read wherever it goes; one that misses the block is another device's, its value free (log
entry 9). -/
def accessRead (size : Width) (t : Target) (s : State) : Word × State :=
  match t.resolve with
  | some a => busRead size a s
  | none => drawWord s

/-- A host write wherever it goes; one that misses the block does not touch it (R60). -/
def accessWrite (size : Width) (t : Target) (w : Word) (s : State) : State :=
  match t.resolve with
  | some a => busWrite size a w s
  | none => s

/-- The Host keeps what a read returned. -/
def keepRead (p : Word × State) : State := { p.2 with reads := p.1 :: p.2.reads }

/-- One move of the Host (R71, R102): its next access, in program order. `wait` reads STATUS and goes on
only when DONE = 1; `waitIrq` makes no access and goes on only when `irq` = 1 (R73, R258; log entry 5). A Host
with nothing left does nothing. -/
def hostTurn (s : State) : State :=
  match s.prog with
  | [] => s
  | .read size t :: rest => keepRead (accessRead size t { s with prog := rest })
  | .write size t w :: rest => accessWrite size t w { s with prog := rest }
  | .wait :: rest =>
    keepRead (busRead .word 0x00004#17 { s with prog := if s.status.done then rest else .wait :: rest })
  | .waitIrq :: rest => { s with prog := if s.irq then rest else .waitIrq :: rest }

end Sys2Proof.Machine
end

