-- ==== Sys2Proof/Machine/Step.lean ====
section
/-! DEFINITION. One step of the machine: the agent whose turn it is moves (R12, R70, R71). -/

namespace Sys2Proof.Machine

/-- One step. The head of `turns` says who moves; when no turn is set, the Engine moves while BUSY = 1 and
the Host otherwise (R70 to R72, R262; log entry 4). The hard-reset input is the platform's (R250). -/
def step (s : State) : Host.Outcome State Fault Refusal :=
  match s.turns with
  | .host :: ts => .next (hostTurn { s with turns := ts })
  | .engine :: ts => engineTurn { s with turns := ts }
  | .hardReset :: ts => .next (hardReset { s with turns := ts })
  | [] => if s.status.busy then engineTurn s else .next (hostTurn s)

/-- The state in which the next step executes the word whose low `nbits` bits are `w`'s, the rest 0:
QRCORE fetches nothing (R21), so the word is issued as by a host write to CMD (R25), and the Engine
moves next. -/
def State.withFetchWord (s : State) (nbits w : Nat) : State :=
  loadForFetch (BitVec.ofNat 32 (w % 2 ^ nbits)) s

end Sys2Proof.Machine
end

