-- ==== Sys2Proof/Machine/HostSide.lean ====
section
/-! DEFINITION. What the spec defines on the Host's side for the end-to-end result: the standard reserved
set and pattern grid (R153 to R158), `place`, `overwrite` and `merge` (R159), and the host-program forms
of R102. No step of the machine uses them (R5). -/

namespace Sys2Proof.Machine

/-- The distance |x − y|. -/
def apart (x y : Nat) : Nat := (x - y) + (y - x)

/-- A position-marker tile covers `(r, c)` (R153). -/
def markerTile (side r c : Nat) : Bool :=
  (decide (r < 8) && decide (c < 8))
    || (decide (r < 8) && decide (side - 8 ≤ c))
    || (decide (side - 8 ≤ r) && decide (c < 8))

/-- The position-marker value at `(r, c)` of a tile whose 7 × 7 square begins at `(r0, c0)` (R153): Dark
on the core and the outer ring, Light on the inner ring and the border. -/
def markerModule (r0 c0 r c : Nat) : QrModule :=
  if r0 ≤ r ∧ r < r0 + 7 ∧ c0 ≤ c ∧ c < c0 + 7 then
    (if Nat.max (apart r (r0 + 3)) (apart c (c0 + 3)) = 2 then .light else .dark)
  else .light

/-- The marker value at a cell of one of the three tiles (R153). -/
def markerAt (side r c : Nat) : QrModule :=
  markerModule (if r < 8 then 0 else side - 7) (if c < 8 then 0 else side - 7) r c

/-- The alignment tile covers `(r, c)`: versions 2 and above only (R154). -/
def alignmentTile (v side r c : Nat) : Bool :=
  decide (2 ≤ v) && decide (side - 9 ≤ r) && decide (r ≤ side - 5) && decide (side - 9 ≤ c)
    && decide (c ≤ side - 5)

/-- The alignment tile's value: Light at distance 1 from its centre, Dark at 0 and 2 (R154). -/
def alignmentAt (side r c : Nat) : QrModule :=
  if Nat.max (apart r (side - 7)) (apart c (side - 7)) = 1 then .light else .dark

/-- The bit of the format word that cell `(r, c)` holds, copy 1 or copy 2 (R157). -/
def formatBit (side r c : Nat) : Option Nat :=
  if c = 8 ∧ r < 6 then some r
  else if c = 8 ∧ r = 7 then some 6
  else if c = 8 ∧ r = 8 then some 7
  else if r = 8 ∧ c = 7 then some 8
  else if r = 8 ∧ c < 6 then some (14 - c)
  else if r = 8 ∧ side - 8 ≤ c ∧ c < side then some (side - 1 - c)
  else if c = 8 ∧ side - 7 ≤ r ∧ r < side then some (r + 15 - side)
  else none

/-- `StdRef(v)` of R156: cell `(r, c)` is in the standard reserved set. -/
def stdRef (v r c : Nat) : Bool :=
  let side := sideOf v
  decide (r < side) && decide (c < side)
    && (markerTile side r c || alignmentTile v side r c || r == 6 || c == 6
      || (r == side - 8 && c == 8) || (formatBit side r c).isSome)

/-- `Pat(v, F)` of R158: the timing pattern, over it the tiles, the alignment tile, the dark module and
the format bits of F; every other cell Unset. -/
def patternAt (v f r c : Nat) : QrModule :=
  let side := sideOf v
  if side ≤ r ∨ side ≤ c then .unset
  else match formatBit side r c with
    | some k => QrModule.ofBit (f.testBit k)
    | none =>
      if r = side - 8 ∧ c = 8 then .dark
      else if alignmentTile v side r c then alignmentAt side r c
      else if markerTile side r c then markerAt side r c
      else if r = 6 then QrModule.ofBit (c % 2 == 0)
      else if c = 6 then QrModule.ofBit (r % 2 == 0)
      else .unset

/-- `Pat(v, F)` as rows. -/
def patternGrid (v f : Nat) : List (List QrModule) :=
  (List.range (sideOf v)).map (fun r => (List.range (sideOf v)).map (patternAt v f r))

/-- The L × L square of a grid memory, as rows (R159). -/
def State.symbolRows (s : State) (g : GridId) (side : Nat) : List (List QrModule) :=
  (List.range side).map (fun r => (List.range side).map (s.cell g r))

/-- `place(tile, row, col)` of R159: overwrite a rectangular sub-region unconditionally; a negative index
counts from the far edge (R11). Cells of the tile past the grid's edge are dropped, and an index below −L is
taken as 0 (DESIGN CHOICE, log entry 20). -/
def placeTile (tile grid : List (List QrModule)) (row col : Int) : List (List QrModule) :=
  let edge (i : Int) (n : Nat) : Nat := (if i < 0 then i + n else i).toNat
  grid.mapIdx (fun r line => line.mapIdx (fun c old =>
    let r0 := edge row grid.length
    let c0 := edge col line.length
    if r0 ≤ r ∧ c0 ≤ c then (((tile.getD (r - r0) [])[c - c0]?).getD old) else old))

/-- `overwrite` at one cell (R159): the other grid's value wins unless it is Unset. -/
def overwriteModule (a b : QrModule) : QrModule := if b.isUnset then a else b

/-- `merge` at one cell (R159). -/
def mergeModule (allowEmpties : Bool) (a b : QrModule) : Except MergeError QrModule :=
  match a.isUnset, b.isUnset with
  | true, false => .ok b
  | true, true => if allowEmpties then .ok .unset else .error .bothNull
  | false, false => .error .collision
  | false, true => .ok a

/-- `overwrite(A, B)` of R159. -/
def overwriteGrid (a b : List (List QrModule)) : List (List QrModule) :=
  List.zipWith (List.zipWith overwriteModule) a b

/-- Collect a list of results, the first error winning (log entry 14). -/
def collect {α : Type} : List (Except MergeError α) → Except MergeError (List α)
  | [] => .ok []
  | x :: xs =>
    match x with
    | .error e => .error e
    | .ok y =>
      match collect xs with
      | .error e => .error e
      | .ok ys => .ok (y :: ys)

/-- `merge(A, B, allowEmpties)` of R159: a failed merge yields no grid. -/
def mergeGrid (allowEmpties : Bool) (a b : List (List QrModule)) : Except MergeError (List (List QrModule)) :=
  collect (List.zipWith (fun x y => collect (List.zipWith (mergeModule allowEmpties) x y)) a b)

/-- The final symbol of R159: `merge(Pat(v, F), DATA, false)` over r, c < L. -/
def State.symbol (s : State) (v f : Nat) : Except MergeError (List (List QrModule)) :=
  mergeGrid false (patternGrid v f) (s.symbolRows .data (sideOf v))

/-- The window offset of a register (R102). -/
def Reg.offset (r : Reg) : Nat := 4 * regList.idxOf r

/-- `wr X, v` at a window offset (R102). -/
def wr (a : Nat) (v : Word) : HostOp := .write .word (.offset (BitVec.ofNat 17 a)) v

/-- `rd X` at a window offset (R102). -/
def rd (a : Nat) : HostOp := .read .word (.offset (BitVec.ofNat 17 a))

/-- `cmd <command>` (R102): write the command's encoding to CMD, then `wait`. -/
def cmd (i : Instr) : List HostOp := [wr (Reg.offset .cmd) (encode i), .wait]

/-- `load X, i, [b0, b1, ...]` (R102). -/
def load (b : BufferId) (i : Nat) (bs : List Byte) : List HostOp :=
  bs.mapIdx (fun k x => wr (entryAddr b (i + k)) (x.setWidth 32))

/-- `loadref v` (R102): CLEAR_REF, then Light into every cell of StdRef(v) in row-major order. -/
def loadref (v : Nat) : List HostOp :=
  cmd .clearRef ++ ((square (sideOf v)).filter (fun p => stdRef v p.1 p.2)).map
    (fun p => wr (cellAddr .ref p.1 p.2) 0b10#32)

end Sys2Proof.Machine
end

