-- ==== Sys2Proof/Safety.lean ====
section
/-! DEFINITION. What claims are stated in: the end of a run (R263), the outcome classes of R238, and the
invariant of the machine. -/

namespace Sys2Proof.Machine

/-- The run has ended (R263): the Host has performed its last access and BUSY = 0. A run whose Host has only
waits for `irq` left, which make no access, has not ended (DESIGN CHOICE, log entry 21). -/
def State.ended (s : State) : Bool := s.prog.isEmpty && !s.status.busy

/-- The premise of a claim about a host program (R238): HERR = 0 at the end. -/
def State.accessesClean (s : State) : Bool := !s.status.herr

/-- The premise that a command succeeded (R238): STATUS.ERR = 0 after its completion. -/
def State.commandClean (s : State) : Bool := s.status.done && !s.status.err

/-- The values ERR_CODE holds (R221): 0x00, or one of the eleven codes. -/
def legalErrCodes : List Byte :=
  [0x00#8, 0x11#8, 0x12#8, 0x21#8, 0x22#8, 0x23#8, 0x24#8, 0x31#8, 0x41#8, 0x42#8, 0x43#8, 0x44#8]

/-- STATUS keeps its form: while BUSY = 1 neither DONE nor ERR is set (R25, R224), ERR is set exactly when
ERR_CODE is not 0x00 (R23), and ERR_CODE holds no other value than R221's. -/
def Status.inv (t : Status) : Bool :=
  (!t.busy || (!t.done && !t.err)) && (t.err == (t.errCode != 0x00#8)) && legalErrCodes.contains t.errCode

/-- The result registers keep their bounds: RESULT bit 15 is 0 (R26, R143), FILL_COUNT is at most 41 × 41
(R36, R187), and EC_START, BLOCKS and EC_PER_BLOCK describe a sequence that fits SEQ (R33 to R35, R171). -/
def Csr.inv (c : Csr) : Bool :=
  !c.result.getLsbD 15 && decide (c.fillCount.toNat ≤ maxSide * maxSide)
    && c.ecStart.toNat % 8 == 0
    && decide (c.ecStart.toNat + 8 * (c.blocks.toNat * c.ecPerBlock.toNat) ≤ maxBits)
    && (c.ecPerBlock.toNat == 0 || keys.contains c.ecPerBlock.toNat)

/-- The invariant of the machine: STATUS and the result registers keep their form, and the memory keeps
its canonical form. -/
def State.inv (s : State) : Bool := s.status.inv && s.csr.inv && Memory.wf s.mem

/-! The terms the statements are written in. They name what the spec's rules say, field by field, and no
operation of the model. -/

/-- `s` after a successful completion that wrote nothing else (R224): BUSY 0, DONE 1. -/
def State.afterSuccess (s : State) : State :=
  { s with status := { s.status with busy := false, done := true } }

/-- `s` after an error completion with the code `code` (R224): nothing but STATUS changes. -/
def State.afterError (s : State) (code : Byte) : State :=
  { s with status := { s.status with busy := false, done := true, err := true, errCode := code } }

/-- `s` with HERR set and nothing else changed (R230). -/
def State.afterHostError (s : State) : State := { s with status := { s.status with herr := true } }

/-- KEYS as R6 lists them. -/
def keyList : List Nat := [7, 10, 13, 16, 17, 18, 22, 28]

/-- `EXP[i]·x^j` summed by Horner's rule: the value at `x` of the polynomial with these coefficients, the
highest degree first (R133). -/
def polyValue (x : Byte) (cs : List Byte) : Byte := cs.foldl (fun acc c => gfMul acc x ^^^ c) 0#8

/-- The coefficients of `p(x)·(x − a)`, highest degree first (R130). -/
def timesLinear (a : Byte) (p : List Byte) : List Byte :=
  List.zipWith (· ^^^ ·) (p ++ [0#8]) (0#8 :: p.map (gfMul a))

/-- The coefficients of the product of `x − α^i` over `i` in 0..n−1, with α = 0x02 (R130). -/
def generatorProduct (n : Nat) : List Byte := (List.range n).foldl (fun p i => timesLinear (expAt i) p) [1#8]

/-- Carry-less remainder of `a` modulo `0x537`, where `a` has at most 15 bits (R144). -/
def carrylessRemainder (a : Nat) : Nat :=
  [14, 13, 12, 11, 10].foldl (fun r i => if r.testBit i then r ^^^ (0x537 <<< (i - 10)) else r) a

/-- `Vacant(r, c)` of R180, on the state. -/
def State.vacant (s : State) (side r c : Nat) : Bool :=
  decide (r < side) && decide (c < side) && (s.cell .ref r c).isUnset

/-- `Vacant(r, c)` of R180 when REF is StdRef(v) (R156). -/
def stdVacant (v r c : Nat) : Bool :=
  decide (r < sideOf v) && decide (c < sideOf v) && !stdRef v r c

/-- V(v): the number of vacant cells of the standard grid (R156, R188). -/
def stdVacantCount (v : Nat) : Nat := ((square (sideOf v)).filter (fun p => stdVacant v p.1 p.2)).length

/-- A row the placer's probe may reach from row `r` in direction `d`: on the grid's side of it (R183, R184). -/
def Dir.ahead (d : Dir) (side r p : Nat) : Prop :=
  p < side ∧ match d with | .up => p < r | .down => r < p

/-- The cell one column left of `(r, c)` is vacant (R183); left of column 0 there is none (R180). -/
def vacantLeftOf (vac : Nat → Nat → Bool) (r c : Nat) : Prop := 0 < c ∧ vac r (c - 1) = true

/-- A walk of the placer: `n` traversal states, the first the initial one of R182, each next one the advance
of the one before it (R186). -/
def IsWalk (vac : Nat → Nat → Bool) (side n : Nat) (walk : List Trav) : Prop :=
  walk.length = n ∧
  (∀ t, walk[0]? = some t → t = { row := side - 1, col := side - 1, dir := .up, phase := .right }) ∧
  (∀ k t u, walk[k]? = some t → walk[k + 1]? = some u → advance vac side t = .ok u)

/-- The standard order for v = 1, as R188 lists it. -/
def standardOrder1 : List (Nat × Nat) :=
  [(20, 20), (20, 19), (19, 20), (19, 19), (18, 20), (18, 19), (17, 20), (17, 19),
   (16, 20), (16, 19), (15, 20), (15, 19), (14, 20), (14, 19), (13, 20), (13, 19)] ++
  [(12, 20), (12, 19), (11, 20), (11, 19), (10, 20), (10, 19), (9, 20), (9, 19),
   (9, 18), (9, 17), (10, 18), (10, 17), (11, 18), (11, 17), (12, 18), (12, 17)] ++
  [(13, 18), (13, 17), (14, 18), (14, 17), (15, 18), (15, 17), (16, 18), (16, 17),
   (17, 18), (17, 17), (18, 18), (18, 17), (19, 18), (19, 17), (20, 18), (20, 17)] ++
  [(20, 16), (20, 15), (19, 16), (19, 15), (18, 16), (18, 15), (17, 16), (17, 15),
   (16, 16), (16, 15), (15, 16), (15, 15), (14, 16), (14, 15), (13, 16), (13, 15)] ++
  [(12, 16), (12, 15), (11, 16), (11, 15), (10, 16), (10, 15), (9, 16), (9, 15),
   (9, 14), (9, 13), (10, 14), (10, 13), (11, 14), (11, 13), (12, 14), (12, 13)] ++
  [(13, 14), (13, 13), (14, 14), (14, 13), (15, 14), (15, 13), (16, 14), (16, 13),
   (17, 14), (17, 13), (18, 14), (18, 13), (19, 14), (19, 13), (20, 14), (20, 13)] ++
  [(20, 12), (20, 11), (19, 12), (19, 11), (18, 12), (18, 11), (17, 12), (17, 11),
   (16, 12), (16, 11), (15, 12), (15, 11), (14, 12), (14, 11), (13, 12), (13, 11)] ++
  [(12, 12), (12, 11), (11, 12), (11, 11), (10, 12), (10, 11), (9, 12), (9, 11),
   (8, 12), (8, 11), (7, 12), (7, 11), (5, 12), (5, 11), (4, 12), (4, 11)] ++
  [(3, 12), (3, 11), (2, 12), (2, 11), (1, 12), (1, 11), (0, 12), (0, 11),
   (0, 10), (0, 9), (1, 10), (1, 9), (2, 10), (2, 9), (3, 10), (3, 9)] ++
  [(4, 10), (4, 9), (5, 10), (5, 9), (7, 10), (7, 9), (8, 10), (8, 9),
   (9, 10), (9, 9), (10, 10), (10, 9), (11, 10), (11, 9), (12, 10), (12, 9)] ++
  [(13, 10), (13, 9), (14, 10), (14, 9), (15, 10), (15, 9), (16, 10), (16, 9),
   (17, 10), (17, 9), (18, 10), (18, 9), (19, 10), (19, 9), (20, 10), (20, 9)] ++
  [(12, 8), (12, 7), (11, 8), (11, 7), (10, 8), (10, 7), (9, 8), (9, 7),
   (9, 5), (9, 4), (10, 5), (10, 4), (11, 5), (11, 4), (12, 5), (12, 4)] ++
  [(12, 3), (12, 2), (11, 3), (11, 2), (10, 3), (10, 2), (9, 3), (9, 2),
   (9, 1), (9, 0), (10, 1), (10, 0), (11, 1), (11, 0), (12, 1), (12, 0)]

/-- REF is the standard reference grid of version `v` in its L × L square (R156). -/
def State.refIsStandard (s : State) (v : Nat) : Prop :=
  ∀ r < sideOf v, ∀ c < sideOf v, ((s.cell .ref r c).isUnset = false ↔ stdRef v r c = true)

/-- DATA is Unset in the L × L square (as after CLEAR_DATA, R152). -/
def State.dataCleared (s : State) (side : Nat) : Prop :=
  ∀ r < side, ∀ c < side, s.cell .data r c = .unset

/-- The codewords of the blocks of R170, read from DATA_IN. -/
def State.dataBlocks (s : State) : List (List Byte) :=
  (blocksFrom 0 s.layout).map (fun b => (List.range b.2).map (fun i => s.entry .dataIn (b.1 + i)))

end Sys2Proof.Machine
end

