-- ==== Sys2Proof/Certificates/Slice0/Obligations.lean ====
section
/-! DEFINITION. The statements about QRCORE, from the spec's numbered rules. -/

open Sys2Proof Sys2Proof.Machine

/-! ### The commands, one statement each -/

/-- R113: NOP changes nothing except the completion flags; a NOP word with a non-zero bit above the
opcode is RESERVED_FIELD. -/
def Obligations.NopCommand : Prop :=
  (∀ s : State, exec .nop s = .next s.afterSuccess) ∧
  (∀ w : Word, field w 0 8 = 0x00#8 →
    decode w = if field w 8 24 = 0#24 then .ok .nop else .error .reservedField)

/-- R114: GF_ADD writes A XOR B into RESULT and completes; nothing else changes. -/
def Obligations.GfAddCommand : Prop :=
  (∀ (a b : Byte) (s : State), exec (.gfAdd a b) s
    = .next { s.afterSuccess with csr := { s.csr with result := (a ^^^ b).setWidth 16 } }) ∧
  (∀ w : Word, field w 0 8 = 0x01#8 → decode w =
    if field w 24 8 = 0#8 then .ok (.gfAdd (field w 8 8) (field w 16 8)) else .error .reservedField)

/-- R115: GF_MUL writes gf_mul(A, B) into RESULT and completes, with 0 where an operand is 0; nothing else
changes. -/
def Obligations.GfMulCommand : Prop :=
  (∀ (a b : Byte) (s : State), exec (.gfMul a b) s
    = .next { s.afterSuccess with csr := { s.csr with result :=
        (if a = 0#8 ∨ b = 0#8 then 0#8 else expAt ((logAt a + logAt b) % 255)).setWidth 16 } }) ∧
  (∀ w : Word, field w 0 8 = 0x02#8 → decode w =
    if field w 24 8 = 0#8 then .ok (.gfMul (field w 8 8) (field w 16 8)) else .error .reservedField)

/-- R116: GF_EXP writes EXP[A mod 255] into RESULT and completes; the result is never 0, and A = 255
gives 0x01. -/
def Obligations.GfExpCommand : Prop :=
  (∀ (a : Byte) (s : State), exec (.gfExp a) s
    = .next { s.afterSuccess with csr := { s.csr with result := (expAt (a.toNat % 255)).setWidth 16 } }) ∧
  (∀ a : Byte, expAt (a.toNat % 255) ≠ 0#8) ∧ expAt ((0xFF#8).toNat % 255) = 0x01#8 ∧
  (∀ w : Word, field w 0 8 = 0x03#8 → decode w =
    if field w 16 16 = 0#16 then .ok (.gfExp (field w 8 8)) else .error .reservedField)

/-- R117: GF_LOG of a non-zero A writes LOG[A], at most 254, into RESULT and completes; GF_LOG of 0 fails
with INV_LOG_ZERO (0x41) and leaves everything but STATUS unchanged. -/
def Obligations.GfLogCommand : Prop :=
  (∀ (a : Byte) (s : State), a ≠ 0#8 → logAt a ≤ 254 ∧ exec (.gfLog a) s
    = .next { s.afterSuccess with csr := { s.csr with result := BitVec.ofNat 16 (logAt a) } }) ∧
  (∀ s : State, exec (.gfLog 0#8) s = .next (s.afterError 0x41#8)) ∧
  (∀ w : Word, field w 0 8 = 0x04#8 → decode w =
    if field w 16 16 = 0#16 then .ok (.gfLog (field w 8 8)) else .error .reservedField)

/-- R132: RS_ENCODE. An N that is no key fails with CFG_EC_KEY (first), a range past entry 255 with
OVF_RANGE; otherwise EC_OUT[0..N) receives the remainder of the message DATA_IN[OFF..OFF+LEN) and nothing
else but the completion flags changes. -/
def Obligations.RsEncodeCommand : Prop :=
  (∀ (off len n : Byte) (s : State),
    (n.toNat ∉ keyList → exec (.rsEncode off len n) s = .next (s.afterError 0x22#8)) ∧
    (n.toNat ∈ keyList → 256 < off.toNat + len.toNat →
      exec (.rsEncode off len n) s = .next (s.afterError 0x31#8)) ∧
    (n.toNat ∈ keyList → off.toNat + len.toNat ≤ 256 →
      ∃ g t, genRow n.toNat = some g ∧ exec (.rsEncode off len n) s = .next t ∧
        (∀ j < n.toNat, some (t.entry .ecOut j) =
          (rsRem g n.toNat ((List.range len.toNat).map (fun i => s.entry .dataIn (off.toNat + i))))[j]?) ∧
        (∀ a, (∀ j < n.toNat, a ≠ entryAddr .ecOut j) → t.readByte a = s.readByte a) ∧
        { t with mem := s.mem } = s.afterSuccess)) ∧
  (∀ w : Word, field w 0 8 = 0x10#8 →
    decode w = .ok (.rsEncode (field w 8 8) (field w 16 8) (field w 24 8)))

/-- R143: BCH_ENCODE writes FormatWord(ECL·8 + MASKID), a 15-bit word, into RESULT and completes; nothing
else changes. -/
def Obligations.BchEncodeCommand : Prop :=
  (∀ (ecl : BitVec 2) (maskId : BitVec 3) (s : State),
    formatWord (8 * ecl.toNat + maskId.toNat) < 2 ^ 15 ∧
    exec (.bchEncode ecl maskId) s = .next { s.afterSuccess with
      csr := { s.csr with result := BitVec.ofNat 16 (formatWord (8 * ecl.toNat + maskId.toNat)) } }) ∧
  formatWord 0 = 0x5412 ∧
  (∀ w : Word, field w 0 8 = 0x20#8 → decode w =
    if field w 13 19 = 0#19 then .ok (.bchEncode (field w 11 2) (field w 8 3)) else .error .reservedField)

/-- R151: CLEAR_REF sets all 41 × 41 cells of REF to Unset, whatever VERSION holds, and completes; no
other byte and no other register but STATUS changes. -/
def Obligations.ClearRefCommand : Prop :=
  (∀ s : State, ∃ t, exec .clearRef s = .next t ∧
    (∀ r < 41, ∀ c < 41, t.cell .ref r c = .unset) ∧
    (∀ a, (∀ r < 41, ∀ c < 41, a ≠ cellAddr .ref r c) → t.readByte a = s.readByte a) ∧
    { t with mem := s.mem } = s.afterSuccess) ∧
  (∀ w : Word, field w 0 8 = 0x30#8 →
    decode w = if field w 8 24 = 0#24 then .ok .clearRef else .error .reservedField)

/-- R152: CLEAR_DATA sets all 41 × 41 cells of DATA to Unset and completes; no other byte and no other
register but STATUS changes. -/
def Obligations.ClearDataCommand : Prop :=
  (∀ s : State, ∃ t, exec .clearData s = .next t ∧
    (∀ r < 41, ∀ c < 41, t.cell .data r c = .unset) ∧
    (∀ a, (∀ r < 41, ∀ c < 41, a ≠ cellAddr .data r c) → t.readByte a = s.readByte a) ∧
    { t with mem := s.mem } = s.afterSuccess) ∧
  (∀ w : Word, field w 0 8 = 0x31#8 →
    decode w = if field w 8 24 = 0#24 then .ok .clearData else .error .reservedField)

/-- R171: INTERLEAVE. Its six checks fail in order with their codes and change nothing but STATUS;
otherwise SEQ receives the data columns and then the EC columns, EC_OUT the blocks' EC codewords, and
SEQ_NBITS, EC_START, BLOCKS and EC_PER_BLOCK their values; nothing else but the completion flags
changes. -/
def Obligations.InterleaveCommand : Prop :=
  (∀ s : State,
    let n := s.csr.layoutN.toNat
    let len := s.csr.dataLen.toNat
    let total := s.csr.ecTotal.toNat
    let count := blockCount s.layout
    let e := total / count
    (n = 0 ∨ 4 < n → exec .interleave s = .next (s.afterError 0x24#8)) ∧
    (1 ≤ n → n ≤ 4 → count = 0 → exec .interleave s = .next (s.afterError 0x24#8)) ∧
    (1 ≤ n → n ≤ 4 → count ≠ 0 →
      (layoutTotal s.layout ≠ len → exec .interleave s = .next (s.afterError 0x24#8)) ∧
      (layoutTotal s.layout = len → total % count ≠ 0 → exec .interleave s = .next (s.afterError 0x23#8)) ∧
      (layoutTotal s.layout = len → total % count = 0 → e ∉ keyList →
        exec .interleave s = .next (s.afterError 0x22#8)) ∧
      (layoutTotal s.layout = len → total % count = 0 → e ∈ keyList → 256 < len + total →
        exec .interleave s = .next (s.afterError 0x31#8)) ∧
      (layoutTotal s.layout = len → total % count = 0 → e ∈ keyList → len + total ≤ 256 →
        ∃ g t, genRow e = some g ∧ exec .interleave s = .next t ∧
          (let ec := s.dataBlocks.map (rsRem g e)
           let sequence := columns (tallest s.dataBlocks) s.dataBlocks ++ columns e ec
           sequence.length = len + total ∧
           (∀ k < len + total, some (t.entry .seq k) = sequence[k]?) ∧
           (∀ b < count, ∀ j < e, some (t.entry .ecOut (b * e + j)) = (ec[b]?).bind (fun x => x[j]?))) ∧
          (∀ a, (∀ k < len + total, a ≠ entryAddr .seq k) → (∀ k < total, a ≠ entryAddr .ecOut k) →
            t.readByte a = s.readByte a) ∧
          t.csr = { s.csr with
            seqNbits := BitVec.ofNat 12 (8 * (len + total))
            ecStart := BitVec.ofNat 12 (8 * len)
            blocks := BitVec.ofNat 10 count
            ecPerBlock := BitVec.ofNat 8 e } ∧
          { t with mem := s.mem, csr := s.csr } = s.afterSuccess))) ∧
  (∀ w : Word, field w 0 8 = 0x40#8 →
    decode w = if field w 8 24 = 0#24 then .ok .interleave else .error .reservedField)

/-- R186 and R187: PLACE. VERSION outside 1..6 fails with CFG_VERSION (0x21), then SEQ_NBITS above 2048 with
OVF_RANGE (0x31), then the traversal's first error with INV_PLACE_RESERVED (0x42), INV_PLACE_OOB (0x43) or
INV_PLACE_EXHAUSTED (0x44), and no other, each changing nothing but STATUS; otherwise the k-th cell of the
traversal receives bit k of the sequence, every cell that stays Unset in both grids is filled Dark and counted
in FILL_COUNT, and nothing else but the completion flags changes. -/
def Obligations.PlaceCommand : Prop :=
  (∀ s : State,
    let v := s.csr.version.toNat
    let n := s.csr.seqNbits.toNat
    let side := 17 + 4 * v
    (v = 0 ∨ v = 7 → exec .place s = .next (s.afterError 0x21#8)) ∧
    (1 ≤ v → v ≤ 6 → 2048 < n → exec .place s = .next (s.afterError 0x31#8)) ∧
    (1 ≤ v → v ≤ 6 → n ≤ 2048 →
      (zigzag (s.vacant side) side n (startTrav side) = .error .invPlaceReserved →
        exec .place s = .next (s.afterError 0x42#8)) ∧
      (zigzag (s.vacant side) side n (startTrav side) = .error .invPlaceOob →
        exec .place s = .next (s.afterError 0x43#8)) ∧
      (zigzag (s.vacant side) side n (startTrav side) = .error .invPlaceExhausted →
        exec .place s = .next (s.afterError 0x44#8)) ∧
      (∀ e, zigzag (s.vacant side) side n (startTrav side) = .error e →
        e = .invPlaceReserved ∨ e = .invPlaceOob ∨ e = .invPlaceExhausted)) ∧
    (1 ≤ v → v ≤ 6 → n ≤ 2048 → ∀ cells, zigzag (s.vacant side) side n (startTrav side) = .ok cells →
      let slack := fun r c => s.vacant side r c && (s.cell .data r c).isUnset && !cells.contains (r, c)
      ∃ t, exec .place s = .next t ∧ cells.length = n ∧
        (∀ k r c, cells[k]? = some (r, c) → t.cell .data r c =
          if (s.entry .seq (k / 8)).getLsbD (7 - k % 8) then .dark else .light) ∧
        (∀ r < side, ∀ c < side, slack r c = true → t.cell .data r c = .dark) ∧
        (∀ a, (∀ p ∈ cells, a ≠ cellAddr .data p.1 p.2) →
          (∀ r < side, ∀ c < side, slack r c = true → a ≠ cellAddr .data r c) →
          t.readByte a = s.readByte a) ∧
        t.csr = { s.csr with
          fillCount := BitVec.ofNat 11 ((square side).countP (fun p => slack p.1 p.2)) } ∧
        { t with mem := s.mem, csr := s.csr } = s.afterSuccess)) ∧
  (∀ w : Word, field w 0 8 = 0x50#8 →
    decode w = if field w 8 24 = 0#24 then .ok .place else .error .reservedField)

/-- R201: MASK. VERSION outside 1..6 fails with CFG_VERSION and changes nothing but STATUS; otherwise, in
the L × L square, every cell of DATA that is not Unset and where M_K holds changes between Light and Dark,
and nothing else but the completion flags changes. -/
def Obligations.MaskCommand : Prop :=
  (∀ (k : BitVec 3) (s : State),
    let v := s.csr.version.toNat
    let side := 17 + 4 * v
    let flips := fun r c => !(s.cell .data r c).isUnset && maskPredicate k.toNat r c
    (v = 0 ∨ v = 7 → exec (.mask k) s = .next (s.afterError 0x21#8)) ∧
    (1 ≤ v → v ≤ 6 → ∃ t, exec (.mask k) s = .next t ∧
      (∀ r < side, ∀ c < side, flips r c = true →
        t.cell .data r c = if s.cell .data r c = .dark then .light else .dark) ∧
      (∀ a, (∀ r < side, ∀ c < side, flips r c = true → a ≠ cellAddr .data r c) →
        t.readByte a = s.readByte a) ∧
      { t with mem := s.mem } = s.afterSuccess)) ∧
  (∀ w : Word, field w 0 8 = 0x60#8 →
    decode w = if field w 11 21 = 0#21 then .ok (.mask (field w 8 3)) else .error .reservedField)

/-! ### The field and its tables -/

/-- R112: the three field operations, gf_exp for every natural exponent; the sum of two logarithms of
non-zero elements is exact and at most 508. -/
def Obligations.FieldOperationsExact : Prop :=
  (∀ a b : Byte, gfAdd a b = a ^^^ b) ∧
  (∀ b : Byte, gfMul 0#8 b = 0#8) ∧ (∀ a : Byte, gfMul a 0#8 = 0#8) ∧
  (∀ a b : Byte, a ≠ 0#8 → b ≠ 0#8 →
    gfMul a b = expAt ((logAt a + logAt b) % 255) ∧ logAt a + logAt b ≤ 508) ∧
  (∀ e : Nat, gfExp e = expAt (e % 255))

/-- R110: EXP[0] is 1 and each next entry is the last one shifted left, reduced by 0x1D when bit 8 comes
out; EXP is a permutation of 1..255. -/
def Obligations.ExpTableIsPowers : Prop :=
  expTable.length = 255 ∧ expAt 0 = 0x01#8 ∧
  (∀ i < 254, expAt (i + 1) =
    if (expAt i).getLsbD 7 then (expAt i <<< 1) ^^^ 0x1D#8 else expAt i <<< 1) ∧
  (∀ i < 255, expAt i ≠ 0#8) ∧ (∀ a : Byte, a ≠ 0#8 → ∃ i < 255, expAt i = a)

/-- R111: for a non-zero `a`, LOG[a] is the unique `i` in 0..254 with EXP[i] = a, and LOG[0] is the
sentinel 0xFF. -/
def Obligations.LogTableInvertsExp : Prop :=
  logTable.length = 256 ∧ logAt 0#8 = 0xFF ∧
  (∀ a : Byte, a ≠ 0#8 → logAt a < 255 ∧ expAt (logAt a) = a ∧ ∀ i < 255, expAt i = a → i = logAt a)

/-- R118: the field laws of GF(256). -/
def Obligations.GfFieldLaws : Prop :=
  (∀ a : Byte, a ≠ 0#8 → expAt (logAt a) = a) ∧ (∀ e < 255, logAt (expAt e) = e) ∧
  (∀ a b : Byte, gfMul a b = gfMul b a) ∧
  (∀ a b c : Byte, gfMul (gfMul a b) c = gfMul a (gfMul b c)) ∧
  (∀ a : Byte, gfMul 0x01#8 a = a) ∧ (∀ a : Byte, gfMul 0#8 a = 0#8) ∧
  (∀ a b c : Byte, gfMul a (b ^^^ c) = gfMul a b ^^^ gfMul a c) ∧
  (∀ a : Byte, a ≠ 0#8 → gfMul a (expAt ((255 - logAt a) % 255)) = 0x01#8) ∧
  (∀ a : Byte, gfAdd a a = 0#8)

/-! ### The Reed-Solomon divider and the BCH encoder -/

/-- R130: GEN has exactly one row for each key, of n + 1 log-exponents in 0..254, the first 0, and the row
is the generator, the product of x − α^i over i in 0..n−1. -/
def Obligations.GenRowsAreProducts : Prop :=
  (∀ n, (genRow n).isSome = true ↔ n ∈ keyList) ∧
  (∀ n g, genRow n = some g → g.length = n + 1 ∧ (∀ x ∈ g, x < 255) ∧ g.head? = some 0 ∧
    g.map expAt = generatorProduct n)

/-- R131: the division ends with exactly n codewords, for every message and every key. -/
def Obligations.RsRemainderLength : Prop :=
  ∀ (n : Nat) (g : List Nat) (msg : List Byte), genRow n = some g → (rsRem g n msg).length = n

/-- R133: the remainder is GF(256)-linear in the message (additive, and a scalar multiple of a message has that
multiple of its remainder), leading zero codewords do not change it, and a message of zeros (or none) gives n
zeros. -/
def Obligations.RsRemainderLinear : Prop :=
  ∀ (n : Nat) (g : List Nat), genRow n = some g →
    (∀ a b : List Byte, a.length = b.length →
      rsRem g n (List.zipWith (· ^^^ ·) a b) = List.zipWith (· ^^^ ·) (rsRem g n a) (rsRem g n b)) ∧
    (∀ (c : Byte) (msg : List Byte), rsRem g n (msg.map (gfMul c)) = (rsRem g n msg).map (gfMul c)) ∧
    (∀ msg : List Byte, rsRem g n (0#8 :: msg) = rsRem g n msg) ∧
    (∀ k : Nat, rsRem g n (List.replicate k 0#8) = List.replicate n 0#8)

/-- R133 with R130: a message followed by its EC codewords is divisible by the generator, so it has the
generator's n roots: its value at every α^i with i < n is 0. -/
def Obligations.RsCodewordHasGeneratorRoots : Prop :=
  ∀ (n : Nat) (g : List Nat) (msg : List Byte), genRow n = some g →
    ∀ i < n, polyValue (expAt i) (msg ++ rsRem g n msg) = 0#8

/-- R145: the 32 format words, for ECL 1, 0, 3, 2 and mask ids 0 to 7. -/
def Obligations.FormatWordTable : Prop :=
  ([1, 0, 3, 2].map (fun ecl => (List.range 8).map (fun k => formatWord (8 * ecl + k)))) =
    [[0x77C4, 0x72F3, 0x7DAA, 0x789D, 0x662F, 0x6318, 0x6C41, 0x6976],
     [0x5412, 0x5125, 0x5E7C, 0x5B4B, 0x45F9, 0x40CE, 0x4F97, 0x4AA0],
     [0x355F, 0x3068, 0x3F31, 0x3A06, 0x24B4, 0x2183, 0x2EDA, 0x2BED],
     [0x1689, 0x13BE, 0x1CE7, 0x19D0, 0x0762, 0x0255, 0x0D0C, 0x083B]]

/-- R144: BchParity is the carry-less remainder of m·x^10 modulo 0x537, in exactly 10 bits, and is
additive. -/
def Obligations.BchParityIsRemainder : Prop :=
  (∀ m < 32, (bchParity (bitsOf 5 m)).length = 10 ∧
    bitsValue (bchParity (bitsOf 5 m)) = carrylessRemainder (m <<< 10)) ∧
  (∀ a < 32, ∀ b < 32, bitsValue (bchParity (bitsOf 5 (a ^^^ b))) =
    bitsValue (bchParity (bitsOf 5 a)) ^^^ bitsValue (bchParity (bitsOf 5 b)))

/-! ### The interleaver -/

/-- R170: the block list in layout order has one block for each repeat, each block starts where the
blocks before it end, and together they cover the layout's total. -/
def Obligations.BlockPartition : Prop :=
  ∀ layout : List (Nat × Nat),
    (blocksFrom 0 layout).length = blockCount layout ∧
    (blocksFrom 0 layout).map Prod.snd = layout.flatMap (fun p => List.replicate p.2 p.1) ∧
    (∀ b start len, (blocksFrom 0 layout)[b]? = some (start, len) →
      start = (((blocksFrom 0 layout).take b).map Prod.snd).sum) ∧
    ((blocksFrom 0 layout).map Prod.snd).sum = layoutTotal layout

/-- R172, properties 1 and 2: after a successful INTERLEAVE, SEQ[0..DATA_LEN) is a permutation of
DATA_IN[0..DATA_LEN) and SEQ[DATA_LEN..DATA_LEN+EC_TOTAL) one of EC_OUT[0..EC_TOTAL). -/
def Obligations.InterleavePermutesCodewords : Prop :=
  ∀ s t : State, s.status.err = false → exec .interleave s = .next t → t.status.err = false →
    ((List.range s.csr.dataLen.toNat).map (t.entry .seq)).Perm
      ((List.range s.csr.dataLen.toNat).map (t.entry .dataIn)) ∧
    ((List.range s.csr.ecTotal.toNat).map (fun k => t.entry .seq (s.csr.dataLen.toNat + k))).Perm
      ((List.range s.csr.ecTotal.toNat).map (t.entry .ecOut))

/-- R172, properties 3 to 6, after a successful INTERLEAVE, with B the number of blocks and `start` the first
DATA_IN entry of block b: with one block the data stands unchanged before its EC codewords; with blocks of one
length n, data codeword i of block b goes to SEQ[i·B + b]; with `short` blocks of n before `long` blocks of
n + 1 it does so for i < n, and a long block's last codeword goes to SEQ[n·B + (b − short)]; EC codeword j of
block b goes to SEQ[DATA_LEN + j·B + b]. -/
def Obligations.InterleaveEcColumnPositions : Prop :=
  ∀ s t : State, s.status.err = false → exec .interleave s = .next t → t.status.err = false →
    let count := blockCount s.layout
    let blocks := blocksFrom 0 s.layout
    (∀ b < count, ∀ j < s.csr.ecTotal.toNat / count,
      t.entry .seq (s.csr.dataLen.toNat + j * count + b)
        = t.entry .ecOut (b * (s.csr.ecTotal.toNat / count) + j)) ∧
    (count = 1 → ∀ k < s.csr.dataLen.toNat, t.entry .seq k = s.entry .dataIn k) ∧
    (∀ n, blocks.map Prod.snd = List.replicate count n →
      ∀ b start len, blocks[b]? = some (start, len) →
        ∀ i < n, t.entry .seq (i * count + b) = s.entry .dataIn (start + i)) ∧
    (∀ n short long, blocks.map Prod.snd = List.replicate short n ++ List.replicate long (n + 1) →
      ∀ b start len, blocks[b]? = some (start, len) →
        (∀ i < n, t.entry .seq (i * count + b) = s.entry .dataIn (start + i)) ∧
        (short ≤ b → t.entry .seq (n * count + (b - short)) = s.entry .dataIn (start + n)))

/-! ### The placer -/

/-- R188, property 2: no cell is visited twice in one PLACE, whatever cells are vacant, and every cell
visited is vacant. -/
def Obligations.PlacerNeverRevisits : Prop :=
  ∀ (vac : Nat → Nat → Bool) (side n : Nat) (cells : List (Nat × Nat)),
    zigzag vac side n (startTrav side) = .ok cells →
      cells.length = n ∧ cells.Nodup ∧ ∀ p ∈ cells, vac p.1 p.2 = true

/-- R186: INV_PLACE_RESERVED can only occur at bit 0, when the bottom-right cell is reserved; then it does
occur whenever there is a bit to place. -/
def Obligations.ReservedErrorOnlyAtFirstBit : Prop :=
  ∀ (vac : Nat → Nat → Bool) (side n : Nat),
    zigzag vac side n (startTrav side) = .error .invPlaceReserved
      ↔ 0 < n ∧ vac (side - 1) (side - 1) = false

/-- R182 to R186 and R188: the order of the traversal. A traversal's cells are those of a walk from the initial
state by `advance`, and an error other than INV_PLACE_RESERVED is that of the advance from the end of such a
walk. In the right phase `advance` goes to the left cell if it is vacant, else to the nearest row ahead with the
pair's right cell, then its left cell, and raises INV_PLACE_OOB exactly when no row ahead has either. In the
left phase it goes to the nearest row ahead with the cell one column right, then the current column; when no row
ahead has either, to the first vacant cell of the columns c−1 to 0, rows r to 0, the direction flipped and the
right phase, and raises INV_PLACE_EXHAUSTED if there is none. On the standard grid of every version the
traversal visits every vacant cell exactly once, its first and last three cells are those of V-PL-1, and for
v = 1 its order is R188's. -/
def Obligations.StandardTraversalIsComplete : Prop :=
  (∀ (vac : Nat → Nat → Bool) (side n : Nat),
    (∀ cells, zigzag vac side n (startTrav side) = .ok cells →
      ∃ walk, IsWalk vac side n walk ∧ cells = walk.map (fun t => (t.row, t.col))) ∧
    (∀ e, zigzag vac side n (startTrav side) = .error e → e ≠ .invPlaceReserved →
      ∃ k walk t, k + 1 < n ∧ IsWalk vac side (k + 1) walk ∧ walk[k]? = some t ∧
        advance vac side t = .error e)) ∧
  (∀ (vac : Nat → Nat → Bool) (side r c : Nat) (d : Dir), r < side →
    let right := advance vac side { row := r, col := c, dir := d, phase := .right }
    let left := advance vac side { row := r, col := c, dir := d, phase := .left }
    (vacantLeftOf vac r c → right = .ok { row := r, col := c - 1, dir := d, phase := .left }) ∧
    (¬ vacantLeftOf vac r c → ∀ p, d.ahead side r p →
      (∀ q, d.ahead side r q → d.ahead side q p → vac q c = false ∧ ¬ vacantLeftOf vac q c) →
      (vac p c = true → right = .ok { row := p, col := c, dir := d, phase := .right }) ∧
      (vac p c = false → vacantLeftOf vac p c →
        right = .ok { row := p, col := c - 1, dir := d, phase := .left })) ∧
    (right = .error .invPlaceOob ↔
      ¬ vacantLeftOf vac r c ∧ ∀ p, d.ahead side r p → vac p c = false ∧ ¬ vacantLeftOf vac p c) ∧
    (∀ p, d.ahead side r p →
      (∀ q, d.ahead side r q → d.ahead side q p → vac q (c + 1) = false ∧ vac q c = false) →
      (vac p (c + 1) = true → left = .ok { row := p, col := c + 1, dir := d, phase := .right }) ∧
      (vac p (c + 1) = false → vac p c = true →
        left = .ok { row := p, col := c, dir := d, phase := .left })) ∧
    ((∀ p, d.ahead side r p → vac p (c + 1) = false ∧ vac p c = false) →
      (∀ q k, q ≤ r → k < c → vac q k = true →
        (∀ q' k', q' ≤ r → k < k' → k' < c → vac q' k' = false) →
        (∀ q', q < q' → q' ≤ r → vac q' k = false) →
        left = .ok { row := q, col := k, dir := if d = .up then .down else .up, phase := .right }) ∧
      ((∀ q k, q ≤ r → k < c → vac q k = false) → left = .error .invPlaceExhausted))) ∧
  (∀ v, 1 ≤ v → v ≤ 6 → ∃ cells,
    zigzag (stdVacant v) (sideOf v) (stdVacantCount v) (startTrav (sideOf v)) = .ok cells ∧
    cells.Nodup ∧ (∀ r c, (r, c) ∈ cells ↔ stdVacant v r c = true) ∧
    cells.take 3 = [(sideOf v - 1, sideOf v - 1), (sideOf v - 1, sideOf v - 2), (sideOf v - 2, sideOf v - 1)] ∧
    cells.drop (stdVacantCount v - 3) = [(sideOf v - 10, 0), (sideOf v - 9, 1), (sideOf v - 9, 0)] ∧
    (v = 1 → cells = standardOrder1))

/-- R188, property 3: with REF = StdRef(v) and DATA cleared, PLACE succeeds for every N up to the vacant
count V(v) and leaves FILL_COUNT = V(v) − N; it fails with INV_PLACE_EXHAUSTED for V(v) < N ≤ 2048. -/
def Obligations.PlaceOnStandardGrid : Prop :=
  ∀ (s : State) (v : Nat), s.csr.version.toNat = v → 1 ≤ v → v ≤ 6 → s.refIsStandard v →
    s.dataCleared (sideOf v) →
    (s.csr.seqNbits.toNat ≤ stdVacantCount v → ∃ t, exec .place s = .next t ∧
      t.status = s.afterSuccess.status ∧
      t.csr.fillCount = BitVec.ofNat 11 (stdVacantCount v - s.csr.seqNbits.toNat)) ∧
    (stdVacantCount v < s.csr.seqNbits.toNat → s.csr.seqNbits.toNat ≤ 2048 →
      exec .place s = .next (s.afterError 0x44#8))

/-- R159, first derived property: after a successful PLACE on a cleared data layer, the cells of DATA in
the L × L square that are not Unset are exactly the vacant cells of REF. -/
def Obligations.PlaceFillsExactlyTheVacantCells : Prop :=
  ∀ s t : State, s.status.err = false → s.dataCleared (sideOf s.csr.version.toNat) →
    exec .place s = .next t → t.status.err = false →
    ∀ r < sideOf s.csr.version.toNat, ∀ c < sideOf s.csr.version.toNat,
      ((t.cell .data r c).isUnset = false ↔ (t.cell .ref r c).isUnset = true)

/-- R188, property 5: what PLACE does to DATA, FILL_COUNT and STATUS depends on which cells of REF are
reserved, not on whether they are Light or Dark. -/
def Obligations.PlaceReadsOnlyTheReservedSet : Prop :=
  ∀ s s' t t' : State, s'.csr = s.csr → s'.status = s.status →
    (∀ i < 256, s'.entry .seq i = s.entry .seq i) →
    (∀ r < 41, ∀ c < 41, s'.cell .data r c = s.cell .data r c) →
    (∀ r < 41, ∀ c < 41, (s'.cell .ref r c).isUnset = (s.cell .ref r c).isUnset) →
    exec .place s = .next t → exec .place s' = .next t' →
    t'.csr = t.csr ∧ t'.status = t.status ∧ ∀ r < 41, ∀ c < 41, t'.cell .data r c = t.cell .data r c

/-! ### The mask -/

/-- R200: the eight predicates over row i and column j. -/
def Obligations.MaskPredicateFormulas : Prop :=
  ∀ i j : Nat,
    (maskPredicate 0 i j = true ↔ (i + j) % 2 = 0) ∧
    (maskPredicate 1 i j = true ↔ i % 2 = 0) ∧
    (maskPredicate 2 i j = true ↔ j % 3 = 0) ∧
    (maskPredicate 3 i j = true ↔ (i + j) % 3 = 0) ∧
    (maskPredicate 4 i j = true ↔ (i / 2 + j / 3) % 2 = 0) ∧
    (maskPredicate 5 i j = true ↔ i * j % 2 + i * j % 3 = 0) ∧
    (maskPredicate 6 i j = true ↔ (i * j % 2 + i * j % 3) % 2 = 0) ∧
    (maskPredicate 7 i j = true ↔ (i * j % 3 + (i + j) % 2) % 2 = 0)

/-- R201: MASK is an involution: issued twice with the same K and VERSION it restores every cell of
DATA, and it leaves every byte outside DATA as it was. -/
def Obligations.MaskTwiceRestores : Prop :=
  ∀ (k : BitVec 3) (s t : State), 1 ≤ s.csr.version.toNat → s.csr.version.toNat ≤ 6 →
    exec (.mask k) s = .next t → ∃ u, exec (.mask k) t = .next u ∧
      (∀ r < 41, ∀ c < 41, u.cell .data r c = s.cell .data r c) ∧
      (∀ a, (∀ r < 41, ∀ c < 41, a ≠ cellAddr .data r c) → u.readByte a = s.readByte a)

/-! ### Decoding and encoding -/

/-- R90 to R97 and R101: decoding the encoding of a command gives the command back, with every field at
every value. -/
def Obligations.DecodeEncodeRoundTrip : Prop := ∀ i : Instr, decode (encode i) = .ok i

/-- Every word has one meaning: a word that decodes to a command is that command's encoding. -/
def Obligations.EncodeDecodeRoundTrip : Prop := ∀ (w : Word) (i : Instr), decode w = .ok i → encode i = w

/-- R98: a word spells a command exactly when (w AND mask) = match for some of the twelve rows of the opcode
map, the row is that of the command's mnemonic and of no other, and a word whose opcode is some row's but
which fails that test is RESERVED_FIELD. -/
def Obligations.DecodeMatchesOpcodeMap : Prop :=
  (∀ w : Word, (∃ i, decode w = .ok i) ↔ ∃ row ∈ opcodeMap, spells w row = true) ∧
  (∀ (w : Word) (i : Instr), decode w = .ok i →
    ∀ row ∈ opcodeMap, (spells w row = true ↔ row.1 = mnemonic i)) ∧
  (∀ w : Word, (∃ row ∈ opcodeMap, field w 0 8 = field row.2.1 0 8) →
    (∀ row ∈ opcodeMap, spells w row = false) → decode w = .error .reservedField) ∧
  opcodeMap.length = 12

/-- R90 and R99: a word whose opcode is not one of the twelve is ILLEGAL_OPCODE whatever its other bits;
any other word that spells no command is RESERVED_FIELD; no other decode error exists. -/
def Obligations.DecodeErrorOrder : Prop :=
  ∀ w : Word,
    let opcodes : List Byte := [0x00#8, 0x01#8, 0x02#8, 0x03#8, 0x04#8, 0x10#8, 0x20#8, 0x30#8, 0x31#8,
      0x40#8, 0x50#8, 0x60#8]
    (field w 0 8 ∉ opcodes ↔ decode w = .error .illegalOpcode) ∧
    (field w 0 8 ∈ opcodes → (∃ i, decode w = .ok i) ∨ decode w = .error .reservedField)

/-- R101: the worked encodings, and one word of each other format, decode to their commands. -/
def Obligations.DecodeSpelledWords : Prop :=
  decode 0x00CA5302#32 = .ok (.gfMul 0x53#8 0xCA#8) ∧
  decode 0x0A100010#32 = .ok (.rsEncode 0#8 16#8 10#8) ∧
  decode 0x00000F20#32 = .ok (.bchEncode 1#2 7#3) ∧
  decode 0x00000760#32 = .ok (.mask 7#3) ∧
  decode 0x0000FF03#32 = .ok (.gfExp 255#8) ∧
  decode 0x00000031#32 = .ok .clearData

/-- R101: the assembler refuses a line with an operand that does not fit its field (a, b, e, off, len and n of
256 or more, ecl of 4 or more, mask and k of 8 or more), and encodes every other line as the syntax table
says. -/
def Obligations.AssemblerEncodings : Prop :=
  (∀ a b, 256 ≤ a ∨ 256 ≤ b → (AsmLine.gfAdd a b).assemble = none ∧ (AsmLine.gfMul a b).assemble = none) ∧
  (∀ a, 256 ≤ a → (AsmLine.gfExp a).assemble = none ∧ (AsmLine.gfLog a).assemble = none) ∧
  (∀ off len n, 256 ≤ off ∨ 256 ≤ len ∨ 256 ≤ n → (AsmLine.rsEncode off len n).assemble = none) ∧
  (∀ ecl k, 4 ≤ ecl ∨ 8 ≤ k → (AsmLine.bchEncode ecl k).assemble = none) ∧
  (∀ k, 8 ≤ k → (AsmLine.mask k).assemble = none) ∧
  (∀ a b, a < 256 → b < 256 →
    (AsmLine.gfAdd a b).assemble.map encode = some (BitVec.ofNat 32 (b <<< 16 ||| a <<< 8 ||| 0x01)) ∧
    (AsmLine.gfMul a b).assemble.map encode = some (BitVec.ofNat 32 (b <<< 16 ||| a <<< 8 ||| 0x02))) ∧
  (∀ a, a < 256 →
    (AsmLine.gfExp a).assemble.map encode = some (BitVec.ofNat 32 (a <<< 8 ||| 0x03)) ∧
    (AsmLine.gfLog a).assemble.map encode = some (BitVec.ofNat 32 (a <<< 8 ||| 0x04))) ∧
  (∀ off len n, off < 256 → len < 256 → n < 256 →
    (AsmLine.rsEncode off len n).assemble.map encode
      = some (BitVec.ofNat 32 (n <<< 24 ||| len <<< 16 ||| off <<< 8 ||| 0x10))) ∧
  (∀ ecl k, ecl < 4 → k < 8 →
    (AsmLine.bchEncode ecl k).assemble.map encode = some (BitVec.ofNat 32 (ecl <<< 11 ||| k <<< 8 ||| 0x20))) ∧
  (∀ k, k < 8 → (AsmLine.mask k).assemble.map encode = some (BitVec.ofNat 32 (k <<< 8 ||| 0x60))) ∧
  AsmLine.nop.assemble.map encode = some 0x00000000#32 ∧
  AsmLine.clearRef.assemble.map encode = some 0x00000030#32 ∧
  AsmLine.clearData.assemble.map encode = some 0x00000031#32 ∧
  AsmLine.interleave.assemble.map encode = some 0x00000040#32 ∧
  AsmLine.place.assemble.map encode = some 0x00000050#32

/-! ### The Engine's step and the machine as a whole -/

/-- R70: while BUSY = 1, when the Engine moves (its turn is next, or no turn is set) and the latched word
decodes to a command, the step is the execution of that command; the turn, if any, is used up. Turns are the
model's own (log entry 4). -/
def Obligations.StepRunsDecodedCommand : Prop :=
  ∀ (s : State) (i : Instr), s.status.busy = true → decode s.csr.cmd = .ok i →
    (s.turns = [] → step s = exec i s) ∧
    (∀ ts, s.turns = .engine :: ts → step s = exec i { s with turns := ts })

/-- R90 and R99: while BUSY = 1, when the Engine moves (its turn is next, or no turn is set) and the latched
word decodes to no command, the step completes the command with ILLEGAL_OPCODE (0x11) or RESERVED_FIELD (0x12)
and changes nothing else; the turn, if any, is used up. Turns are the model's own (log entry 4). -/
def Obligations.StepReportsDecodeErrors : Prop :=
  ∀ s u : State, s.status.busy = true →
    (s.turns = [] ∧ u = s ∨ ∃ ts, s.turns = .engine :: ts ∧ u = { s with turns := ts }) →
    (decode s.csr.cmd = .error .illegalOpcode → step s = .next (u.afterError 0x11#8)) ∧
    (decode s.csr.cmd = .error .reservedField → step s = .next (u.afterError 0x12#8)) ∧
    ((∃ i, decode s.csr.cmd = .ok i) ∨ decode s.csr.cmd = .error .illegalOpcode
      ∨ decode s.csr.cmd = .error .reservedField)

/-- R224: every command either succeeds, setting BUSY 0 and DONE 1 and leaving ERR and ERR_CODE, or fails
as a whole with a code of R221, and then nothing but STATUS changes. -/
def Obligations.CommitRule : Prop :=
  ∀ (i : Instr) (s : State), ∃ t, exec i s = .next t ∧
    (t.status = { s.status with busy := false, done := true } ∨
      ∃ code ∈ legalErrCodes, code ≠ 0x00#8 ∧ t = s.afterError code)

/-- R40, R41, R26, R23: what no command writes, and what only one writes: REF but for CLEAR_REF, DATA but
for PLACE, MASK and CLEAR_DATA, DATA_IN never, RESULT only for the five scalar commands, the INTERLEAVE
registers and FILL_COUNT each for one command, and the configuration registers, HERR and the Host's side
never. -/
def Obligations.CommandsWriteOnlyTheirOutputs : Prop :=
  ∀ (i : Instr) (s t : State), exec i s = .next t →
    t.status.herr = s.status.herr ∧ t.epoch = s.epoch ∧ t.draws = s.draws ∧ t.prog = s.prog ∧
    t.reads = s.reads ∧ t.turns = s.turns ∧
    { t.csr with
      result := s.csr.result
      seqNbits := s.csr.seqNbits
      ecStart := s.csr.ecStart
      blocks := s.csr.blocks
      ecPerBlock := s.csr.ecPerBlock
      fillCount := s.csr.fillCount } = s.csr ∧
    (t.csr.result ≠ s.csr.result →
      mnemonic i ∈ ["GF_ADD", "GF_MUL", "GF_EXP", "GF_LOG", "BCH_ENCODE"]) ∧
    (t.csr.seqNbits ≠ s.csr.seqNbits ∨ t.csr.ecStart ≠ s.csr.ecStart ∨ t.csr.blocks ≠ s.csr.blocks ∨
      t.csr.ecPerBlock ≠ s.csr.ecPerBlock → i = .interleave) ∧
    (t.csr.fillCount ≠ s.csr.fillCount → i = .place) ∧
    (∀ k < 256, t.entry .dataIn k = s.entry .dataIn k) ∧
    (∀ k < 256, t.entry .ecOut k ≠ s.entry .ecOut k → mnemonic i ∈ ["RS_ENCODE", "INTERLEAVE"]) ∧
    (∀ k < 256, t.entry .seq k ≠ s.entry .seq k → i = .interleave) ∧
    (∀ r < 41, ∀ c < 41, t.cell .ref r c ≠ s.cell .ref r c → i = .clearRef) ∧
    (∀ r < 41, ∀ c < 41, t.cell .data r c ≠ s.cell .data r c →
      mnemonic i ∈ ["PLACE", "MASK", "CLEAR_DATA"])

/-- R238 and R220: every step answers a next state; none ends in a fault or a refusal. That nothing stops the
machine is read from these rules (log entry 15). A Host that waits without an issue (R258), or has nothing left
to do, still takes steps, which is the model's form (log entries 4 and 5). -/
def Obligations.StepAlwaysAnswersNext : Prop := ∀ s : State, ∃ t, step s = .next t

/-- The invariant of the machine (STATUS and the result registers keep their form, the memory its canonical
form) is kept by every step, the Engine's, the Host's and the hard reset. The canonical form is the model's
(log entry 1). -/
def Obligations.EveryStepKeepsInvariant : Prop :=
  ∀ s t : State, s.inv = true → step s = .next t → t.inv = true

/-- The invariant holds in the state right after reset. -/
def Obligations.ResetMeetsInvariant : Prop := State.reset.inv = true

/-- R75: while BUSY = 1 a move of the Host changes nothing the Engine's step reads: the memories and every
register but STATUS's clearable flags and CTRL.IE are as they were, and BUSY stays 1. -/
def Obligations.BusyHostMovesKeepInputs : Prop :=
  ∀ s : State, s.status.busy = true →
    (hostTurn s).status.busy = true ∧ (hostTurn s).mem = s.mem ∧ (hostTurn s).epoch = s.epoch ∧
    { (hostTurn s).csr with ie := s.csr.ie } = s.csr

/-- R262 and R70: an issued command completes after finitely many steps: unless a hard reset intervenes, a
busy machine reaches BUSY = 0 and DONE = 1 in at most one step more than there are turns set. The bound is the
model's: its turns are finite and the Engine moves when none is set (log entry 4). -/
def Obligations.IssuedCommandCompletes : Prop :=
  ∀ s : State, s.status.busy = true → Turn.hardReset ∉ s.turns →
    ∃ k t, k ≤ s.turns.length + 1 ∧ Sys2Proof.core.run k s = .next t ∧
      t.status.busy = false ∧ t.status.done = true

/-- R258: a Host that waits for DONE, or for `irq`, without having issued a command waits forever, whoever
moves next and even over a hard reset. That `wait` and `waitIrq` are moves of the Host, the first of which polls
STATUS, is the model's form of R102 and R73 (log entry 5); the turns and the hard reset's place among them are
the model's too (log entries 4 and 13). -/
def Obligations.WaitWithoutIssueNeverEnds : Prop :=
  ∀ (s : State) (rest : List HostOp), s.status.busy = false → s.status.done = false →
    (s.prog = .wait :: rest ∨ s.prog = .waitIrq :: rest) → ∀ k : Nat, ∃ t,
      Sys2Proof.core.run k s = .next t ∧ t.prog = s.prog ∧ t.status.done = false ∧ t.status.busy = false

/-- R71, R73, R60 and R102: the Host's operations take effect one at a time in program order. When the Host
moves (its turn is next, whatever BUSY is, or no turn is set and BUSY = 0), a read returns its value to the
Host, a write takes effect, at an offset or at the bus address BASE + offset; `wait` goes on only when DONE = 1
and `waitIrq` only when IE = 1 and DONE = 1; an empty program does nothing. An access to a bus address outside
the window does not reach the block, and its read value is free (log entry 9). The Host's program, what its
reads returned and the turns are the model's own (log entries 3, 4 and 5), and an Engine's turn while BUSY = 0
does nothing. -/
def Obligations.HostMovesInProgramOrder : Prop :=
  (∀ (s u : State) (rest : List HostOp),
    (s.turns = [] ∧ s.status.busy = false ∧ u = { s with prog := rest } ∨
      ∃ ts, s.turns = .host :: ts ∧ u = { s with turns := ts, prog := rest }) →
    (∀ size a, s.prog = .read size (.offset a) :: rest ∨
        (∃ address, s.prog = .read size (.bus address) :: rest ∧ Config.base ≤ address ∧
          address < Config.base + 0x20000 ∧ a.toNat = address - Config.base) →
      step s = .next { (busRead size a u).2 with reads := (busRead size a u).1 :: s.reads }) ∧
    (∀ size a w, s.prog = .write size (.offset a) w :: rest ∨
        (∃ address, s.prog = .write size (.bus address) w :: rest ∧ Config.base ≤ address ∧
          address < Config.base + 0x20000 ∧ a.toNat = address - Config.base) →
      step s = .next (busWrite size a w u)) ∧
    (∀ size address, address < Config.base ∨ Config.base + 0x20000 ≤ address →
      (s.prog = .read size (.bus address) :: rest →
        step s = .next { u with draws := s.draws + 1, reads := Config.drawWord s.draws :: s.reads }) ∧
      (∀ w, s.prog = .write size (.bus address) w :: rest → step s = .next u)) ∧
    (s.prog = .wait :: rest → step s = .next { u with
      prog := if s.status.done then rest else .wait :: rest
      reads := s.status.word :: s.reads }) ∧
    (s.prog = .waitIrq :: rest → step s = .next { u with
      prog := if s.csr.ie && s.status.done then rest else .waitIrq :: rest }) ∧
    (s.prog = [] → rest = [] → step s = .next u)) ∧
  (∀ (s : State) (ts : List Turn), s.turns = .engine :: ts → s.status.busy = false →
    step s = .next { s with turns := ts })

/-! ### Resets -/

/-- R250, R251 and R253: after the hard reset every control register and STATUS is 0 and `irq` is 0, whatever
was in execution, and every buffer entry and grid cell holds a fresh draw, one free value each; the state right
after reset is idle, every register but ID reads 0 in it and its memories are draws too. That the reset is a
turn which takes one step and is used up is the model's choice (log entries 4 and 13), and so are the form of
the draws and the number of the reset that picks them (log entries 1 and 2). -/
def Obligations.HardResetClearsRegisters : Prop :=
  (∀ (s : State) (ts : List Turn), s.turns = .hardReset :: ts → ∃ t, step s = .next t ∧
    t.status.word = 0#32 ∧ t.status.busy = false ∧ t.irq = false ∧ (∀ r : Reg, r ≠ .id → readReg t r = 0#32) ∧
    readReg t .id = 0x51524331#32 ∧ t.turns = ts ∧
    (∀ b, ∀ i < 256, t.entry b i = Config.drawByte (s.epoch + 1) (entryAddr b i)) ∧
    (∀ g, ∀ r < 41, ∀ c < 41, t.cell g r c = Config.drawModule (s.epoch + 1) (cellAddr g r c))) ∧
  State.reset.status.word = 0#32 ∧ State.reset.status.busy = false ∧ State.reset.irq = false ∧
  (∀ r : Reg, r ≠ .id → readReg State.reset r = 0#32) ∧ readReg State.reset .id = 0x51524331#32 ∧
  (∀ b, ∀ i < 256, State.reset.entry b i = Config.drawByte 0 (entryAddr b i)) ∧
  (∀ g, ∀ r < 41, ∀ c < 41, State.reset.cell g r c = Config.drawModule 0 (cellAddr g r c))

/-- R252: a write to CTRL with SRST = 1 while BUSY = 0 resets the control registers, stores no IE, and
leaves every memory unchanged, and `irq` is 0; while BUSY = 1 it is dropped and sets HERR; SRST itself
always reads 0. -/
def Obligations.SoftResetKeepsMemories : Prop :=
  ∀ (s : State) (w : Word), w.getLsbD 1 = true →
    (s.status.busy = false → busWrite .word 0x00008#17 w s
      = { s with status := State.reset.status, csr := State.reset.csr }) ∧
    (s.status.busy = true → busWrite .word 0x00008#17 w s = s.afterHostError) ∧
    (busRead .word 0x00008#17 s).1.getLsbD 1 = false ∧ (busWrite .word 0x00008#17 w { s with status :=
      { s.status with busy := false } }).irq = false

/-! ### The host interface -/

/-- R22, R38 and R66: ID always reads 0x5152_4331, busy or not, and a write to it is ignored while BUSY = 0
(R22, R38) and dropped with HERR set, and nothing else changed, while BUSY = 1 (R38, R66). -/
def Obligations.IdRegisterConstant : Prop :=
  (∀ s : State, busRead .word 0x00000#17 s = (0x51524331#32, s)) ∧
  (∀ (s : State) (w : Word), s.status.busy = false → busWrite .word 0x00000#17 w s = s) ∧
  (∀ (s : State) (w : Word), s.status.busy = true → busWrite .word 0x00000#17 w s = s.afterHostError)

/-- R64 and R230: an access that is not 32 bits wide or not aligned has no effect but HERR, and a read returns
0. That this comes before the rules for reserved offsets and slots without storage (R37, R69) and for reads
while BUSY = 1 (R66) is the model's choice (log entry 19). -/
def Obligations.IllegalAccessRefused : Prop :=
  ∀ (size : Width) (a : BitVec 17) (w : Word) (s : State), size ≠ .word ∨ a.toNat % 4 ≠ 0 →
    busRead size a s = (0#32, s.afterHostError) ∧ busWrite size a w s = s.afterHostError

/-- R22 to R38 and R69, while BUSY = 0: a write to an RW register stores the bits of its used width, which read
back, and changes nothing else; a write to CTRL with SRST = 0 stores IE and nothing else; an RO register ignores
a write; every register reads its value with zeros above, STATUS as BUSY [0], DONE [1], ERR [2], HERR [3] and
ERR_CODE [15:8]; a reserved offset reads 0 and ignores a write without HERR. -/
def Obligations.RegisterWindow : Prop :=
  ∀ (s : State) (w : Word), s.status.busy = false →
    (busWrite .word 0x00014#17 w s = { s with csr := { s.csr with version := w.setWidth 3 } } ∧
      busWrite .word 0x00018#17 w s = { s with csr := { s.csr with dataLen := w.setWidth 9 } } ∧
      busWrite .word 0x0001C#17 w s = { s with csr := { s.csr with ecTotal := w.setWidth 9 } } ∧
      busWrite .word 0x00020#17 w s = { s with csr := { s.csr with layoutN := w.setWidth 3 } } ∧
      busWrite .word 0x00024#17 w s = { s with csr := { s.csr with layout0 := w.setWidth 16 } } ∧
      busWrite .word 0x00028#17 w s = { s with csr := { s.csr with layout1 := w.setWidth 16 } } ∧
      busWrite .word 0x0002C#17 w s = { s with csr := { s.csr with layout2 := w.setWidth 16 } } ∧
      busWrite .word 0x00030#17 w s = { s with csr := { s.csr with layout3 := w.setWidth 16 } } ∧
      busWrite .word 0x00034#17 w s = { s with csr := { s.csr with seqNbits := w.setWidth 12 } }) ∧
    (w.getLsbD 1 = false →
      busWrite .word 0x00008#17 w s = { s with csr := { s.csr with ie := w.getLsbD 0 } }) ∧
    (∀ p ∈ ([(0x00014#17, 0x7#32), (0x00018#17, 0x1FF#32), (0x0001C#17, 0x1FF#32), (0x00020#17, 0x7#32),
        (0x00024#17, 0xFFFF#32), (0x00028#17, 0xFFFF#32), (0x0002C#17, 0xFFFF#32), (0x00030#17, 0xFFFF#32),
        (0x00034#17, 0xFFF#32)] : List (BitVec 17 × Word)),
      (busRead .word p.1 (busWrite .word p.1 w s)).1 = w &&& p.2) ∧
    (∀ a ∈ ([0x00000#17, 0x00010#17, 0x00038#17, 0x0003C#17, 0x00040#17, 0x00044#17] : List (BitVec 17)),
      busWrite .word a w s = s) ∧
    busRead .word 0x00004#17 s = (0#16 ++ s.status.errCode ++ 0#4 ++ BitVec.ofBool s.status.herr ++
      BitVec.ofBool s.status.err ++ BitVec.ofBool s.status.done ++ BitVec.ofBool s.status.busy, s) ∧
    (∀ p ∈ ([(0x00000#17, 0x51524331#32), (0x00008#17, (BitVec.ofBool s.csr.ie).setWidth 32),
        (0x0000C#17, s.csr.cmd), (0x00010#17, s.csr.result.setWidth 32),
        (0x00014#17, s.csr.version.setWidth 32), (0x00018#17, s.csr.dataLen.setWidth 32),
        (0x0001C#17, s.csr.ecTotal.setWidth 32), (0x00020#17, s.csr.layoutN.setWidth 32)] ++
       [(0x00024#17, s.csr.layout0.setWidth 32), (0x00028#17, s.csr.layout1.setWidth 32),
        (0x0002C#17, s.csr.layout2.setWidth 32), (0x00030#17, s.csr.layout3.setWidth 32),
        (0x00034#17, s.csr.seqNbits.setWidth 32), (0x00038#17, s.csr.ecStart.setWidth 32),
        (0x0003C#17, s.csr.blocks.setWidth 32), (0x00040#17, s.csr.ecPerBlock.setWidth 32),
        (0x00044#17, s.csr.fillCount.setWidth 32)] : List (BitVec 17 × Word)),
      busRead .word p.1 s = (p.2, s)) ∧
    (∀ a : BitVec 17, a.toNat % 4 = 0 →
      (0x048 ≤ a.toNat ∧ a.toNat < 0x1000 ∨ 0x1C00 ≤ a.toNat ∧ a.toNat < 0x10000 ∨ 0x18000 ≤ a.toNat) →
      busRead .word a s = (0#32, s) ∧ busWrite .word a w s = s)

/-- R62: while BUSY = 0, the word at X_base + 4·i reads entry i of buffer X with zeros above, and a write
stores its low 8 bits there and changes nothing else. -/
def Obligations.BufferWindow : Prop :=
  ∀ (s : State) (b : BufferId) (i : Nat) (w : Word), s.status.busy = false → i < 256 →
    let base : Nat := match b with | .dataIn => 0x01000 | .ecOut => 0x01400 | .seq => 0x01800
    let a : BitVec 17 := BitVec.ofNat 17 (base + 4 * i)
    busRead .word a s = ((s.entry b i).setWidth 32, s) ∧
    (busWrite .word a w s).entry b i = w.setWidth 8 ∧
    (∀ x, x ≠ base + 4 * i → (busWrite .word a w s).readByte x = s.readByte x) ∧
    { busWrite .word a w s with mem := s.mem } = s

/-- R63: while BUSY = 0, the word at G_base + 4·(64·r + c) reads the code of cell (r, c); a write stores the
module its bits [1:0] encode and changes nothing else; the code 0b01 leaves the cell unchanged and sets
HERR; a slot without storage reads 0 and ignores writes. -/
def Obligations.GridWindow : Prop :=
  ∀ (s : State) (g : GridId) (r c : Nat) (w : Word), s.status.busy = false → r < 64 → c < 64 →
    let base : Nat := match g with | .ref => 0x10000 | .data => 0x14000
    let a : BitVec 17 := BitVec.ofNat 17 (base + 4 * (64 * r + c))
    (r < 41 ∧ c < 41 →
      busRead .word a s = ((match s.cell g r c with | .unset => 0#32 | .light => 2#32 | .dark => 3#32), s) ∧
      (w.extractLsb' 0 2 = 1#2 → busWrite .word a w s = s.afterHostError) ∧
      (w.extractLsb' 0 2 ≠ 1#2 →
        (busWrite .word a w s).cell g r c =
          (if w.extractLsb' 0 2 = 0#2 then .unset else if w.extractLsb' 0 2 = 2#2 then .light else .dark) ∧
        (∀ x, x ≠ base + 4 * (64 * r + c) → (busWrite .word a w s).readByte x = s.readByte x) ∧
        { busWrite .word a w s with mem := s.mem } = s)) ∧
    (41 ≤ r ∨ 41 ≤ c → busRead .word a s = (0#32, s) ∧ busWrite .word a w s = s)

/-- R66: while BUSY = 1, STATUS and CTRL with SRST = 0 take a write; a write to CMD, to CTRL with SRST = 1,
to any other register, buffer entry or grid cell is dropped and sets HERR; ID, STATUS, CTRL and CMD read
their values; a read of any other register, buffer entry or grid cell returns a free word and changes
nothing the block holds. The free word and the counter that picks it are the model's (log entry 3). R37, R63,
R69 and R230: a reserved offset and a grid slot without storage read 0 and ignore writes without HERR; that they
do so while BUSY = 1 is deduced (log entries 6 and 7). -/
def Obligations.BusyAccesses : Prop :=
  ∀ (s : State) (a : BitVec 17) (w : Word), s.status.busy = true → a.toNat % 4 = 0 →
    let element : Prop := a.toNat < 0x048 ∨ 0x1000 ≤ a.toNat ∧ a.toNat < 0x1C00 ∨
      0x10000 ≤ a.toNat ∧ a.toNat < 0x18000 ∧ (a.toNat - 0x10000) / 4 % 4096 / 64 < 41 ∧
        a.toNat / 4 % 64 < 41
    (a = 0x00004#17 → busWrite .word a w s = { s with status := s.status.writeOneToClear w }) ∧
    (a = 0x00008#17 → w.getLsbD 1 = false →
      busWrite .word a w s = { s with csr := { s.csr with ie := w.getLsbD 0 } }) ∧
    (a = 0x00008#17 → w.getLsbD 1 = true → busWrite .word a w s = s.afterHostError) ∧
    (element → a ≠ 0x00004#17 → a ≠ 0x00008#17 → busWrite .word a w s = s.afterHostError) ∧
    (a.toNat < 0x10 → busRead .word a s =
      (if a.toNat = 0 then 0x51524331#32 else if a.toNat = 4 then s.status.word
        else if a.toNat = 8 then BitVec.ofNat 32 s.csr.ie.toNat else s.csr.cmd, s)) ∧
    (element → 0x10 ≤ a.toNat → busRead .word a s = (Config.drawWord s.draws, { s with draws := s.draws + 1 })) ∧
    (¬ element → busRead .word a s = (0#32, s) ∧ busWrite .word a w s = s)

/-- R25, R23, R39 and R226: a write to CMD while BUSY = 0 issues the word, with DONE, ERR and ERR_CODE cleared,
and HERR kept; a write of ones to STATUS clears DONE, ERR and HERR and, with ERR, ERR_CODE, and a zero bit
leaves its flag; `irq` is IE AND DONE in every state, so a completion raises it exactly when IE = 1, and an
issue or an acknowledgement of DONE drops it. That ERR_CODE is cleared also when ERR was 0 already is read from
the rules for states no run reaches (log entry 12). -/
def Obligations.IssueAcknowledgeAndIrq : Prop :=
  (∀ s : State, s.irq = (s.csr.ie && s.status.done)) ∧
  (∀ (s : State) (w : Word), s.status.busy = false → busWrite .word 0x0000C#17 w s = { s with
    status := { busy := true, done := false, err := false, herr := s.status.herr, errCode := 0x00#8 }
    csr := { s.csr with cmd := w } } ∧ (busWrite .word 0x0000C#17 w s).irq = false) ∧
  (∀ (s : State) (w : Word), busWrite .word 0x00004#17 w s = { s with status :=
    { busy := s.status.busy
      done := if w.getLsbD 1 then false else s.status.done
      err := if w.getLsbD 2 then false else s.status.err
      herr := if w.getLsbD 3 then false else s.status.herr
      errCode := if w.getLsbD 2 then 0x00#8 else s.status.errCode } } ∧
    (w.getLsbD 1 = true → (busWrite .word 0x00004#17 w s).irq = false)) ∧
  (∀ (i : Instr) (s t : State), exec i s = .next t → t.irq = s.csr.ie)

/-- R156 and R158: the sizes of the standard reserved sets of versions 1 to 6, and that the standard
pattern grid is non-Unset exactly on the reserved set, whatever the format word. -/
def Obligations.StandardReservedSet : Prop :=
  ([1, 2, 3, 4, 5, 6].map (fun v => ((square (sideOf v)).filter (fun p => stdRef v p.1 p.2)).length))
    = [233, 266, 274, 282, 290, 298] ∧
  ([1, 2, 3, 4, 5, 6].map stdVacantCount) = [208, 359, 567, 807, 1079, 1383] ∧
  (∀ v f r c, 1 ≤ v → v ≤ 6 → ((patternAt v f r c).isUnset = false ↔ stdRef v r c = true))
end

