-- ==== Sys2Proof/Laws/State.lean ====
section
/-! SUPPORT. What each update of the state leaves in each field, so that no later proof unfolds a record
update: true by definition. -/

namespace Sys2Proof.Machine

@[simp] theorem State.setResult_status (s : State) (v : BitVec 16) : (s.setResult v).status = s.status := rfl
@[simp] theorem State.setResult_csr (s : State) (v : BitVec 16) : (s.setResult v).csr = { s.csr with result := v } := rfl
@[simp] theorem State.setResult_mem (s : State) (v : BitVec 16) : (s.setResult v).mem = s.mem := rfl
@[simp] theorem State.setResult_epoch (s : State) (v : BitVec 16) : (s.setResult v).epoch = s.epoch := rfl
@[simp] theorem State.setResult_draws (s : State) (v : BitVec 16) : (s.setResult v).draws = s.draws := rfl
@[simp] theorem State.setResult_prog (s : State) (v : BitVec 16) : (s.setResult v).prog = s.prog := rfl
@[simp] theorem State.setResult_reads (s : State) (v : BitVec 16) : (s.setResult v).reads = s.reads := rfl
@[simp] theorem State.setResult_turns (s : State) (v : BitVec 16) : (s.setResult v).turns = s.turns := rfl

@[simp] theorem State.writeCells_status (s : State) (us : List Host.Cell) : (s.writeCells us).status = s.status := rfl
@[simp] theorem State.writeCells_csr (s : State) (us : List Host.Cell) : (s.writeCells us).csr = s.csr := rfl
@[simp] theorem State.writeCells_mem (s : State) (us : List Host.Cell) : (s.writeCells us).mem = Memory.writeMany us s.mem := rfl
@[simp] theorem State.writeCells_epoch (s : State) (us : List Host.Cell) : (s.writeCells us).epoch = s.epoch := rfl
@[simp] theorem State.writeCells_draws (s : State) (us : List Host.Cell) : (s.writeCells us).draws = s.draws := rfl
@[simp] theorem State.writeCells_prog (s : State) (us : List Host.Cell) : (s.writeCells us).prog = s.prog := rfl
@[simp] theorem State.writeCells_reads (s : State) (us : List Host.Cell) : (s.writeCells us).reads = s.reads := rfl
@[simp] theorem State.writeCells_turns (s : State) (us : List Host.Cell) : (s.writeCells us).turns = s.turns := rfl

@[simp] theorem State.writeByte_status (s : State) (a : Nat) (b : Byte) : (s.writeByte a b).status = s.status := rfl
@[simp] theorem State.writeByte_csr (s : State) (a : Nat) (b : Byte) : (s.writeByte a b).csr = s.csr := rfl
@[simp] theorem State.writeByte_mem (s : State) (a : Nat) (b : Byte) : (s.writeByte a b).mem = Memory.writeMany [(a, b)] s.mem := rfl
@[simp] theorem State.writeByte_epoch (s : State) (a : Nat) (b : Byte) : (s.writeByte a b).epoch = s.epoch := rfl
@[simp] theorem State.writeByte_draws (s : State) (a : Nat) (b : Byte) : (s.writeByte a b).draws = s.draws := rfl
@[simp] theorem State.writeByte_prog (s : State) (a : Nat) (b : Byte) : (s.writeByte a b).prog = s.prog := rfl
@[simp] theorem State.writeByte_reads (s : State) (a : Nat) (b : Byte) : (s.writeByte a b).reads = s.reads := rfl
@[simp] theorem State.writeByte_turns (s : State) (a : Nat) (b : Byte) : (s.writeByte a b).turns = s.turns := rfl

@[simp] theorem State.clearGrid_status (s : State) (g : GridId) : (s.clearGrid g).status = s.status := rfl
@[simp] theorem State.clearGrid_csr (s : State) (g : GridId) : (s.clearGrid g).csr = s.csr := rfl
@[simp] theorem State.clearGrid_epoch (s : State) (g : GridId) : (s.clearGrid g).epoch = s.epoch := rfl
@[simp] theorem State.clearGrid_draws (s : State) (g : GridId) : (s.clearGrid g).draws = s.draws := rfl
@[simp] theorem State.clearGrid_prog (s : State) (g : GridId) : (s.clearGrid g).prog = s.prog := rfl
@[simp] theorem State.clearGrid_reads (s : State) (g : GridId) : (s.clearGrid g).reads = s.reads := rfl
@[simp] theorem State.clearGrid_turns (s : State) (g : GridId) : (s.clearGrid g).turns = s.turns := rfl

@[simp] theorem acknowledge_status (w : Word) (s : State) : (acknowledge w s).status = s.status.writeOneToClear w := rfl
@[simp] theorem acknowledge_csr (w : Word) (s : State) : (acknowledge w s).csr = s.csr := rfl
@[simp] theorem acknowledge_mem (w : Word) (s : State) : (acknowledge w s).mem = s.mem := rfl
@[simp] theorem acknowledge_epoch (w : Word) (s : State) : (acknowledge w s).epoch = s.epoch := rfl
@[simp] theorem acknowledge_draws (w : Word) (s : State) : (acknowledge w s).draws = s.draws := rfl
@[simp] theorem acknowledge_prog (w : Word) (s : State) : (acknowledge w s).prog = s.prog := rfl
@[simp] theorem acknowledge_reads (w : Word) (s : State) : (acknowledge w s).reads = s.reads := rfl
@[simp] theorem acknowledge_turns (w : Word) (s : State) : (acknowledge w s).turns = s.turns := rfl

@[simp] theorem hostError_status (s : State) : (hostError s).status = s.status.hostError := rfl
@[simp] theorem hostError_csr (s : State) : (hostError s).csr = s.csr := rfl
@[simp] theorem hostError_mem (s : State) : (hostError s).mem = s.mem := rfl
@[simp] theorem hostError_epoch (s : State) : (hostError s).epoch = s.epoch := rfl
@[simp] theorem hostError_draws (s : State) : (hostError s).draws = s.draws := rfl
@[simp] theorem hostError_prog (s : State) : (hostError s).prog = s.prog := rfl
@[simp] theorem hostError_reads (s : State) : (hostError s).reads = s.reads := rfl
@[simp] theorem hostError_turns (s : State) : (hostError s).turns = s.turns := rfl

@[simp] theorem issue_status (w : Word) (s : State) : (issue w s).status = s.status.issued := rfl
@[simp] theorem issue_csr (w : Word) (s : State) : (issue w s).csr = { s.csr with cmd := w } := rfl
@[simp] theorem issue_mem (w : Word) (s : State) : (issue w s).mem = s.mem := rfl
@[simp] theorem issue_epoch (w : Word) (s : State) : (issue w s).epoch = s.epoch := rfl
@[simp] theorem issue_draws (w : Word) (s : State) : (issue w s).draws = s.draws := rfl
@[simp] theorem issue_prog (w : Word) (s : State) : (issue w s).prog = s.prog := rfl
@[simp] theorem issue_reads (w : Word) (s : State) : (issue w s).reads = s.reads := rfl
@[simp] theorem issue_turns (w : Word) (s : State) : (issue w s).turns = s.turns := rfl

@[simp] theorem softReset_status (s : State) : (softReset s).status = Status.reset := rfl
@[simp] theorem softReset_csr (s : State) : (softReset s).csr = Csr.reset := rfl
@[simp] theorem softReset_mem (s : State) : (softReset s).mem = s.mem := rfl
@[simp] theorem softReset_epoch (s : State) : (softReset s).epoch = s.epoch := rfl
@[simp] theorem softReset_draws (s : State) : (softReset s).draws = s.draws := rfl
@[simp] theorem softReset_prog (s : State) : (softReset s).prog = s.prog := rfl
@[simp] theorem softReset_reads (s : State) : (softReset s).reads = s.reads := rfl
@[simp] theorem softReset_turns (s : State) : (softReset s).turns = s.turns := rfl

@[simp] theorem hardReset_status (s : State) : (hardReset s).status = Status.reset := rfl
@[simp] theorem hardReset_csr (s : State) : (hardReset s).csr = Csr.reset := rfl
@[simp] theorem hardReset_mem (s : State) : (hardReset s).mem = [] := rfl
@[simp] theorem hardReset_epoch (s : State) : (hardReset s).epoch = s.epoch + 1 := rfl
@[simp] theorem hardReset_draws (s : State) : (hardReset s).draws = s.draws := rfl
@[simp] theorem hardReset_prog (s : State) : (hardReset s).prog = s.prog := rfl
@[simp] theorem hardReset_reads (s : State) : (hardReset s).reads = s.reads := rfl
@[simp] theorem hardReset_turns (s : State) : (hardReset s).turns = s.turns := rfl

@[simp] theorem writeIe_status (w : Word) (s : State) : (writeIe w s).status = s.status := rfl
@[simp] theorem writeIe_csr (w : Word) (s : State) : (writeIe w s).csr = { s.csr with ie := w.getLsbD 0 } := rfl
@[simp] theorem writeIe_mem (w : Word) (s : State) : (writeIe w s).mem = s.mem := rfl
@[simp] theorem writeIe_epoch (w : Word) (s : State) : (writeIe w s).epoch = s.epoch := rfl
@[simp] theorem writeIe_draws (w : Word) (s : State) : (writeIe w s).draws = s.draws := rfl
@[simp] theorem writeIe_prog (w : Word) (s : State) : (writeIe w s).prog = s.prog := rfl
@[simp] theorem writeIe_reads (w : Word) (s : State) : (writeIe w s).reads = s.reads := rfl
@[simp] theorem writeIe_turns (w : Word) (s : State) : (writeIe w s).turns = s.turns := rfl

@[simp] theorem loadForFetch_status (w : Word) (s : State) : (loadForFetch w s).status = s.status.issued := rfl
@[simp] theorem loadForFetch_csr (w : Word) (s : State) : (loadForFetch w s).csr = { s.csr with cmd := w } := rfl
@[simp] theorem loadForFetch_mem (w : Word) (s : State) : (loadForFetch w s).mem = s.mem := rfl
@[simp] theorem loadForFetch_epoch (w : Word) (s : State) : (loadForFetch w s).epoch = s.epoch := rfl
@[simp] theorem loadForFetch_draws (w : Word) (s : State) : (loadForFetch w s).draws = s.draws := rfl
@[simp] theorem loadForFetch_prog (w : Word) (s : State) : (loadForFetch w s).prog = s.prog := rfl
@[simp] theorem loadForFetch_reads (w : Word) (s : State) : (loadForFetch w s).reads = s.reads := rfl
@[simp] theorem loadForFetch_turns (w : Word) (s : State) : (loadForFetch w s).turns = .engine :: s.turns := rfl

@[simp] theorem keepRead_status (p : Word × State) : (keepRead p).status = p.2.status := rfl
@[simp] theorem keepRead_csr (p : Word × State) : (keepRead p).csr = p.2.csr := rfl
@[simp] theorem keepRead_mem (p : Word × State) : (keepRead p).mem = p.2.mem := rfl
@[simp] theorem keepRead_epoch (p : Word × State) : (keepRead p).epoch = p.2.epoch := rfl
@[simp] theorem keepRead_draws (p : Word × State) : (keepRead p).draws = p.2.draws := rfl
@[simp] theorem keepRead_prog (p : Word × State) : (keepRead p).prog = p.2.prog := rfl
@[simp] theorem keepRead_reads (p : Word × State) : (keepRead p).reads = p.1 :: p.2.reads := rfl
@[simp] theorem keepRead_turns (p : Word × State) : (keepRead p).turns = p.2.turns := rfl

@[simp] theorem drawWord_status (s : State) : ((drawWord s).2).status = s.status := rfl
@[simp] theorem drawWord_csr (s : State) : ((drawWord s).2).csr = s.csr := rfl
@[simp] theorem drawWord_mem (s : State) : ((drawWord s).2).mem = s.mem := rfl
@[simp] theorem drawWord_epoch (s : State) : ((drawWord s).2).epoch = s.epoch := rfl
@[simp] theorem drawWord_draws (s : State) : ((drawWord s).2).draws = s.draws + 1 := rfl
@[simp] theorem drawWord_prog (s : State) : ((drawWord s).2).prog = s.prog := rfl
@[simp] theorem drawWord_reads (s : State) : ((drawWord s).2).reads = s.reads := rfl
@[simp] theorem drawWord_turns (s : State) : ((drawWord s).2).turns = s.turns := rfl

@[simp] theorem interleaveCommit_status (data ec : List (List Byte)) (count e : Nat) (s : State) : (interleaveCommit data ec count e s).status = s.status := rfl
@[simp] theorem interleaveCommit_epoch (data ec : List (List Byte)) (count e : Nat) (s : State) : (interleaveCommit data ec count e s).epoch = s.epoch := rfl
@[simp] theorem interleaveCommit_draws (data ec : List (List Byte)) (count e : Nat) (s : State) : (interleaveCommit data ec count e s).draws = s.draws := rfl
@[simp] theorem interleaveCommit_prog (data ec : List (List Byte)) (count e : Nat) (s : State) : (interleaveCommit data ec count e s).prog = s.prog := rfl
@[simp] theorem interleaveCommit_reads (data ec : List (List Byte)) (count e : Nat) (s : State) : (interleaveCommit data ec count e s).reads = s.reads := rfl
@[simp] theorem interleaveCommit_turns (data ec : List (List Byte)) (count e : Nat) (s : State) : (interleaveCommit data ec count e s).turns = s.turns := rfl

@[simp] theorem placeCommit_status (side : Nat) (placed : List ((Nat × Nat) × Bool)) (s : State) : (placeCommit side placed s).status = s.status := rfl
@[simp] theorem placeCommit_epoch (side : Nat) (placed : List ((Nat × Nat) × Bool)) (s : State) : (placeCommit side placed s).epoch = s.epoch := rfl
@[simp] theorem placeCommit_draws (side : Nat) (placed : List ((Nat × Nat) × Bool)) (s : State) : (placeCommit side placed s).draws = s.draws := rfl
@[simp] theorem placeCommit_prog (side : Nat) (placed : List ((Nat × Nat) × Bool)) (s : State) : (placeCommit side placed s).prog = s.prog := rfl
@[simp] theorem placeCommit_reads (side : Nat) (placed : List ((Nat × Nat) × Bool)) (s : State) : (placeCommit side placed s).reads = s.reads := rfl
@[simp] theorem placeCommit_turns (side : Nat) (placed : List ((Nat × Nat) × Bool)) (s : State) : (placeCommit side placed s).turns = s.turns := rfl

@[simp] theorem Status.issued_busy (t : Status) : t.issued.busy = true := rfl
@[simp] theorem Status.issued_done (t : Status) : t.issued.done = false := rfl
@[simp] theorem Status.issued_err (t : Status) : t.issued.err = false := rfl
@[simp] theorem Status.issued_herr (t : Status) : t.issued.herr = t.herr := rfl
@[simp] theorem Status.issued_errCode (t : Status) : t.issued.errCode = 0x00#8 := rfl
@[simp] theorem Status.succeeded_busy (t : Status) : t.succeeded.busy = false := rfl
@[simp] theorem Status.succeeded_done (t : Status) : t.succeeded.done = true := rfl
@[simp] theorem Status.succeeded_err (t : Status) : t.succeeded.err = t.err := rfl
@[simp] theorem Status.succeeded_herr (t : Status) : t.succeeded.herr = t.herr := rfl
@[simp] theorem Status.succeeded_errCode (t : Status) : t.succeeded.errCode = t.errCode := rfl
@[simp] theorem Status.failed_busy (t : Status) (e : CmdError) : (t.failed e).busy = false := rfl
@[simp] theorem Status.failed_done (t : Status) (e : CmdError) : (t.failed e).done = true := rfl
@[simp] theorem Status.failed_err (t : Status) (e : CmdError) : (t.failed e).err = true := rfl
@[simp] theorem Status.failed_herr (t : Status) (e : CmdError) : (t.failed e).herr = t.herr := rfl
@[simp] theorem Status.failed_errCode (t : Status) (e : CmdError) : (t.failed e).errCode = e.code := rfl
@[simp] theorem Status.hostError_busy (t : Status) : t.hostError.busy = t.busy := rfl
@[simp] theorem Status.hostError_done (t : Status) : t.hostError.done = t.done := rfl
@[simp] theorem Status.hostError_err (t : Status) : t.hostError.err = t.err := rfl
@[simp] theorem Status.hostError_herr (t : Status) : t.hostError.herr = true := rfl
@[simp] theorem Status.hostError_errCode (t : Status) : t.hostError.errCode = t.errCode := rfl
@[simp] theorem Status.writeOneToClear_busy (t : Status) (w : Word) :
    (t.writeOneToClear w).busy = t.busy := rfl
@[simp] theorem Status.writeOneToClear_done (t : Status) (w : Word) :
    (t.writeOneToClear w).done = (t.done && !w.getLsbD 1) := rfl
@[simp] theorem Status.writeOneToClear_err (t : Status) (w : Word) :
    (t.writeOneToClear w).err = (t.err && !w.getLsbD 2) := rfl
@[simp] theorem Status.writeOneToClear_herr (t : Status) (w : Word) :
    (t.writeOneToClear w).herr = (t.herr && !w.getLsbD 3) := rfl
@[simp] theorem Status.writeOneToClear_errCode (t : Status) (w : Word) :
    (t.writeOneToClear w).errCode = (if w.getLsbD 2 then 0x00#8 else t.errCode) := rfl

@[simp] theorem State.afterSuccess_status (s : State) :
    s.afterSuccess.status = { s.status with busy := false, done := true } := rfl
@[simp] theorem State.afterSuccess_csr (s : State) : s.afterSuccess.csr = s.csr := rfl
@[simp] theorem State.afterSuccess_mem (s : State) : s.afterSuccess.mem = s.mem := rfl
@[simp] theorem State.afterSuccess_epoch (s : State) : s.afterSuccess.epoch = s.epoch := rfl
@[simp] theorem State.afterSuccess_draws (s : State) : s.afterSuccess.draws = s.draws := rfl
@[simp] theorem State.afterSuccess_prog (s : State) : s.afterSuccess.prog = s.prog := rfl
@[simp] theorem State.afterSuccess_reads (s : State) : s.afterSuccess.reads = s.reads := rfl
@[simp] theorem State.afterSuccess_turns (s : State) : s.afterSuccess.turns = s.turns := rfl

@[simp] theorem State.afterError_status (s : State) (code : Byte) :
    (s.afterError code).status = { s.status with busy := false, done := true, err := true, errCode := code } := rfl
@[simp] theorem State.afterError_csr (s : State) (code : Byte) : (s.afterError code).csr = s.csr := rfl
@[simp] theorem State.afterError_mem (s : State) (code : Byte) : (s.afterError code).mem = s.mem := rfl
@[simp] theorem State.afterError_epoch (s : State) (code : Byte) : (s.afterError code).epoch = s.epoch := rfl
@[simp] theorem State.afterError_draws (s : State) (code : Byte) : (s.afterError code).draws = s.draws := rfl
@[simp] theorem State.afterError_prog (s : State) (code : Byte) : (s.afterError code).prog = s.prog := rfl
@[simp] theorem State.afterError_reads (s : State) (code : Byte) : (s.afterError code).reads = s.reads := rfl
@[simp] theorem State.afterError_turns (s : State) (code : Byte) : (s.afterError code).turns = s.turns := rfl

@[simp] theorem State.afterHostError_status (s : State) :
    s.afterHostError.status = { s.status with herr := true } := rfl
@[simp] theorem State.afterHostError_csr (s : State) : s.afterHostError.csr = s.csr := rfl
@[simp] theorem State.afterHostError_mem (s : State) : s.afterHostError.mem = s.mem := rfl
@[simp] theorem State.afterHostError_epoch (s : State) : s.afterHostError.epoch = s.epoch := rfl
@[simp] theorem State.afterHostError_draws (s : State) : s.afterHostError.draws = s.draws := rfl
@[simp] theorem State.afterHostError_prog (s : State) : s.afterHostError.prog = s.prog := rfl
@[simp] theorem State.afterHostError_reads (s : State) : s.afterHostError.reads = s.reads := rfl
@[simp] theorem State.afterHostError_turns (s : State) : s.afterHostError.turns = s.turns := rfl

end Sys2Proof.Machine
end

