-- ==== Sys2Proof/Laws/Memory.lean ====
section
/-! SUPPORT. The laws of the memory: what a read gives after a write, that a pass over rising addresses
reads what single reads give, and that every memory operation keeps the canonical form. -/

namespace Sys2Proof.Machine

/-! ### Reading after writing -/

theorem Memory.from_nil (a : Nat) : Memory.from a [] = [] := rfl

theorem Memory.from_cons (a : Nat) (e : Host.Cell) (m : List Host.Cell) :
    Memory.from a (e :: m) = if e.1 < a then Memory.from a m else e :: m := by
  by_cases h : e.1 < a <;> simp [Memory.from, h]

/-- Passing to a higher address forgets a pass to a lower one. -/
theorem Memory.from_from {a b : Nat} (h : a ≤ b) (m : List Host.Cell) :
    Memory.from b (Memory.from a m) = Memory.from b m := by
  induction m with
  | nil => rfl
  | cons e m ih =>
    rw [Memory.from_cons a]
    split
    · rw [ih, Memory.from_cons b, if_pos (by omega)]
    · rfl

@[simp] theorem Memory.find_nil (a : Nat) : Memory.find [] a = none := rfl

/-- One cell at a time: a read stops at the first address that is not below it. -/
theorem Memory.find_cons (k : Nat) (v : Byte) (m : List Host.Cell) (a : Nat) :
    Memory.find ((k, v) :: m) a = if k < a then Memory.find m a else if k = a then some v else none := by
  by_cases h : k < a <;> simp [Memory.find, Memory.from_cons, h, Memory.head]

theorem Memory.find_from {a b : Nat} (h : a ≤ b) (m : List Host.Cell) :
    Memory.find (Memory.from a m) b = Memory.find m b := by
  simp [Memory.find, Memory.from_from h]

/-- Reading a memory whose cells below `a` are kept, `a` is written and the rest is `rest`. -/
theorem Memory.find_splice (a : Nat) (b : Byte) (m rest : List Host.Cell) (x : Nat) :
    Memory.find (m.takeWhile (fun e => e.1 < a) ++ (a, b) :: rest) x
      = if x < a then Memory.find m x else if a = x then some b else Memory.find rest x := by
  induction m with
  | nil =>
    simp only [List.takeWhile_nil, List.nil_append, Memory.find_cons, Memory.find_nil]
    split_ifs <;> first | rfl | omega
  | cons e m ih =>
    obtain ⟨k, v⟩ := e
    by_cases h : k < a
    · simp only [List.takeWhile_cons, h, decide_true, if_true, List.cons_append, Memory.find_cons, ih]
      split_ifs <;> first | rfl | omega
    · simp only [List.takeWhile_cons, h, decide_false]
      simp only [Bool.false_eq_true, if_false, List.nil_append, Memory.find_cons]
      split_ifs <;> first | rfl | omega

/-- THE law of writing: a read finds what was written there, or else what it found before. -/
theorem Memory.find_writeMany (us m : List Host.Cell) (x : Nat) :
    Memory.find (Memory.writeMany us m) x = (Memory.find us x).or (Memory.find m x) := by
  induction us generalizing m with
  | nil => simp [Memory.writeMany]
  | cons u us ih =>
    obtain ⟨a, b⟩ := u
    rw [Memory.writeMany, Memory.find_splice, Memory.find_cons]
    by_cases h : x < a
    · simp [h, show ¬ a < x by omega, show ¬ a = x by omega]
    · by_cases ha : a = x
      · simp [ha]
      · rw [if_neg h, if_neg ha, if_pos (by omega), ih, Memory.find_from (by omega)]

/-! ### Rising addresses -/

theorem Memory.rising_iff (as : List Nat) : Memory.rising as = true ↔ as.Pairwise (· < ·) := by
  induction as with
  | nil => simp [Memory.rising]
  | cons a as ih =>
    cases as with
    | nil => simp [Memory.rising]
    | cons b as =>
      rw [Memory.rising, Bool.and_eq_true, ih, decide_eq_true_eq]
      constructor
      · rintro ⟨h, hp⟩
        refine List.pairwise_cons.2 ⟨fun c hc => ?_, hp⟩
        rcases List.mem_cons.1 hc with rfl | hc
        · exact h
        · exact lt_trans h ((List.pairwise_cons.1 hp).1 c hc)
      · intro hp
        exact ⟨(List.pairwise_cons.1 hp).1 b (by simp), (List.pairwise_cons.1 hp).2⟩

/-- Where addresses rise, a read finds exactly the cells listed. -/
theorem Memory.find_eq_some_iff {m : List Host.Cell} (h : (m.map Prod.fst).Pairwise (· < ·)) (a : Nat)
    (b : Byte) : Memory.find m a = some b ↔ (a, b) ∈ m := by
  induction m with
  | nil => simp
  | cons e m ih =>
    obtain ⟨k, v⟩ := e
    rw [List.map_cons, List.pairwise_cons] at h
    rw [Memory.find_cons, List.mem_cons, Prod.mk.injEq]
    by_cases hk : k < a
    · rw [if_pos hk, ih h.2]
      constructor
      · exact Or.inr
      · rintro (⟨rfl, -⟩ | h')
        · omega
        · exact h'
    · rw [if_neg hk]
      have hnot : (a, b) ∉ m := fun hm => hk (h.1 a (List.mem_map_of_mem hm))
      by_cases ha : k = a
      · subst ha
        simp [hnot, eq_comm]
      · simp [ha, hnot, Ne.symm ha]

/-- Where addresses rise, a read finds nothing exactly where no cell is listed. -/
theorem Memory.find_eq_none_iff {m : List Host.Cell} (h : (m.map Prod.fst).Pairwise (· < ·)) (a : Nat) :
    Memory.find m a = none ↔ ∀ b, (a, b) ∉ m := by
  rw [Option.eq_none_iff_forall_ne_some]
  exact forall_congr' fun b => not_congr (Memory.find_eq_some_iff h a b)

/-- One pass over rising addresses reads what single reads give. -/
theorem Memory.readMany_eq (other : Nat → Byte) {as : List Nat} (h : as.Pairwise (· < ·))
    (m : List Host.Cell) :
    Memory.readMany other as m = as.map (fun a => (Memory.find m a).getD (other a)) := by
  induction as generalizing m with
  | nil => rfl
  | cons a as ih =>
    rw [List.pairwise_cons] at h
    rw [Memory.readMany, List.map_cons, ih h.2]
    refine List.cons_eq_cons.2 ⟨rfl, List.map_congr_left fun x hx => ?_⟩
    rw [Memory.find_from (le_of_lt (h.1 x hx))]

theorem slotsFrom_rising (a n : Nat) : (slotsFrom a n).Pairwise (· < ·) := by
  rw [slotsFrom, List.pairwise_map]
  exact List.Pairwise.imp (fun h => by omega) List.pairwise_lt_range

@[simp] theorem slotsFrom_length (a n : Nat) : (slotsFrom a n).length = n := by simp [slotsFrom]

theorem slotsFrom_zero (a : Nat) : slotsFrom a 0 = [] := rfl

theorem slotsFrom_succ (a n : Nat) : slotsFrom a (n + 1) = a :: slotsFrom (a + 4) n := by
  rw [slotsFrom, List.range_succ_eq_map, List.map_cons, List.map_map]
  refine List.cons_eq_cons.2 ⟨rfl, List.map_congr_left fun i _ => ?_⟩
  simp only [Function.comp]; omega

/-! ### The elements of the buffers and grids -/

/-- A buffer is its 256 entries (R40). -/
theorem State.buffer_eq (s : State) (b : BufferId) :
    s.buffer b = (List.range bufEntries).map (s.entry b) := by
  rw [State.buffer, Memory.readMany_eq _ (slotsFrom_rising _ _), slotsFrom, List.map_map]
  rfl

@[simp] theorem State.buffer_length (s : State) (b : BufferId) : (s.buffer b).length = bufEntries := by
  simp [State.buffer_eq]

/-- The message is the entries of DATA_IN it names (R132). -/
theorem State.message_eq (s : State) {off len : Nat} (h : off + len ≤ bufEntries) :
    s.message off len = (List.range len).map (fun i => s.entry .dataIn (off + i)) := by
  apply List.ext_getElem
  · simp [State.message]; omega
  · intro i h1 h2
    simp [State.message, State.buffer_eq]

@[simp] theorem cellAddr_zero (g : GridId) : cellAddr g 0 0 = g.base := by simp [cellAddr]

theorem cellAddr_row (g : GridId) (r c : Nat) : cellAddr g r 0 + 4 * c = cellAddr g r c := by
  simp only [cellAddr]; omega

theorem cellAddr_mono (g : GridId) {r r' : Nat} (h : r ≤ r') : cellAddr g r 0 ≤ cellAddr g r' 0 := by
  simp only [cellAddr, gridStride]; omega

theorem rowsOf_eq (other : Nat → Byte) (g : GridId) (m : List Host.Cell) (n r : Nat) :
    rowsOf other g n r (Memory.from (cellAddr g r 0) m)
      = (List.range n).map (fun i => (List.range maxSide).map (fun c =>
          QrModule.ofCode ((Memory.find m (cellAddr g (r + i) c)).getD (other (cellAddr g (r + i) c))))) := by
  induction n generalizing r with
  | zero => rfl
  | succ n ih =>
    rw [rowsOf, Memory.from_from (cellAddr_mono g (Nat.le_succ r)), ih, List.range_succ_eq_map,
      List.map_cons, List.map_map]
    refine List.cons_eq_cons.2 ⟨?_, List.map_congr_left fun i _ => ?_⟩
    · rw [rowSlots, Memory.readMany_eq _ (slotsFrom_rising _ _), slotsFrom, List.map_map, List.map_map]
      refine List.map_congr_left fun c _ => ?_
      simp only [Function.comp, cellAddr_row, Nat.add_zero]
      rw [Memory.find_from (by have := cellAddr_row g r c; omega)]
    · simp only [Function.comp, show r + 1 + i = r + (i + 1) by omega]

/-- A grid is its 41 × 41 cells (R41). -/
theorem State.grid_eq (s : State) (g : GridId) :
    s.grid g = (List.range maxSide).map (fun r => (List.range maxSide).map (s.cell g r)) := by
  rw [State.grid, ← cellAddr_zero, rowsOf_eq]
  simp only [Nat.zero_add]
  rfl

theorem State.grid_row (s : State) (g : GridId) {r : Nat} (h : r < maxSide) :
    (s.grid g).getD r [] = (List.range maxSide).map (s.cell g r) := by
  simp [State.grid_eq, List.getD, h]

/-- The rows of a grid hold its cells. -/
theorem State.moduleAt_grid (s : State) (g : GridId) {r c : Nat} (hr : r < maxSide) (hc : c < maxSide) :
    moduleAt (s.grid g) r c = s.cell g r c := by
  rw [moduleAt, State.grid_row s g hr]
  simp [List.getD, hc]

/-- A byte after a commit: what was committed there, or what stood there before. -/
theorem State.readByte_writeCells (s : State) (us : List Host.Cell) (a : Nat) :
    (s.writeCells us).readByte a = (Memory.find us a).getD (s.readByte a) := by
  simp only [State.readByte, State.writeCells_mem, State.writeCells_epoch, Memory.find_writeMany]
  cases Memory.find us a <;> simp

theorem State.readByte_writeByte (s : State) (a : Nat) (b : Byte) (x : Nat) :
    (s.writeByte a b).readByte x = if a = x then b else s.readByte x := by
  rw [State.writeByte, State.readByte_writeCells, Memory.find_cons, Memory.find_nil]
  split_ifs <;> first | rfl | omega

/-- A read depends on the memory and the epoch only. -/
theorem State.readByte_congr {s t : State} (hm : t.mem = s.mem) (he : t.epoch = s.epoch) (a : Nat) :
    t.readByte a = s.readByte a := by
  rw [State.readByte, State.readByte, hm, he]

/-! ### The cells a commit lists -/

theorem cellsFrom_eq (a : Nat) (bs : List Byte) : cellsFrom a bs = (slotsFrom a bs.length).zip bs := by
  induction bs generalizing a with
  | nil => rfl
  | cons b bs ih => rw [cellsFrom, List.length_cons, slotsFrom_succ, List.zip_cons_cons, ih]

theorem cellsFrom_addresses (a : Nat) (bs : List Byte) :
    (cellsFrom a bs).map Prod.fst = slotsFrom a bs.length := by
  rw [cellsFrom_eq, List.map_fst_zip (by simp)]

/-- A run of cells holds its `i`-th byte at its `i`-th slot, and nothing elsewhere. -/
theorem find_cellsFrom (a : Nat) (bs : List Byte) (x : Nat) :
    Memory.find (cellsFrom a bs) x
      = if a ≤ x ∧ (x - a) % 4 = 0 then bs[(x - a) / 4]? else none := by
  induction bs generalizing a with
  | nil => simp [cellsFrom]
  | cons b bs ih =>
    rw [cellsFrom, Memory.find_cons, ih]
    by_cases h1 : a < x
    · rw [if_pos h1]
      by_cases h4 : a + 4 ≤ x
      · by_cases hm : (x - a) % 4 = 0
        · rw [if_pos ⟨h4, by omega⟩, if_pos ⟨by omega, hm⟩,
            show (x - a) / 4 = (x - (a + 4)) / 4 + 1 by omega, List.getElem?_cons_succ]
        · rw [if_neg (by omega), if_neg (by omega)]
      · rw [if_neg (by omega), if_neg (by omega)]
    · rw [if_neg h1]
      by_cases h2 : a = x
      · subst h2; simp
      · rw [if_neg h2, if_neg (by omega)]

theorem find_cellsFrom_slot (a : Nat) (bs : List Byte) (i : Nat) :
    Memory.find (cellsFrom a bs) (a + 4 * i) = bs[i]? := by
  rw [find_cellsFrom, if_pos (by omega), show (a + 4 * i - a) / 4 = i by omega]

/-! ### The canonical form -/

theorem Memory.wf_iff (m : List Host.Cell) :
    Memory.wf m = true ↔ (m.map Prod.fst).Pairwise (· < ·) ∧ ∀ e ∈ m, Memory.legal e = true := by
  rw [Memory.wf, Bool.and_eq_true, Memory.rising_iff, List.all_eq_true]

theorem Memory.mem_from_le {a : Nat} {m : List Host.Cell} (h : (m.map Prod.fst).Pairwise (· < ·)) :
    ∀ e ∈ Memory.from a m, a ≤ e.1 := by
  induction m with
  | nil => simp [Memory.from_nil]
  | cons e m ih =>
    rw [List.map_cons, List.pairwise_cons] at h
    rw [Memory.from_cons]
    split
    · exact ih h.2
    · intro x hx
      rcases List.mem_cons.1 hx with rfl | hx
      · omega
      · exact le_trans (by omega) (le_of_lt (h.1 x.1 (List.mem_map_of_mem hx)))

/-- A commit of rising, legal cells keeps the canonical form. -/
theorem Memory.wf_writeMany {us m : List Host.Cell} (hu : Memory.wf us = true) (hm : Memory.wf m = true) :
    Memory.wf (Memory.writeMany us m) = true := by
  rw [Memory.wf_iff] at hu hm ⊢
  have key : ∀ us m : List Host.Cell, (us.map Prod.fst).Pairwise (· < ·) →
      (m.map Prod.fst).Pairwise (· < ·) →
      ((Memory.writeMany us m).map Prod.fst).Pairwise (· < ·)
        ∧ ∀ e ∈ Memory.writeMany us m, e ∈ us ∨ e ∈ m := by
    intro us
    induction us with
    | nil => intro m _ hm; exact ⟨hm, fun e he => Or.inr he⟩
    | cons u us ih =>
      intro m hu hm
      obtain ⟨a, b⟩ := u
      rw [List.map_cons, List.pairwise_cons] at hu
      have hsub : (Memory.from (a + 1) m).Sublist m := List.dropWhile_sublist _
      have hfrom : ((Memory.from (a + 1) m).map Prod.fst).Pairwise (· < ·) :=
        hm.sublist (hsub.map _)
      obtain ⟨ihp, ihm⟩ := ih (Memory.from (a + 1) m) hu.2 hfrom
      have htake : ∀ e ∈ m.takeWhile (fun e => decide (e.1 < a)), e.1 < a := fun e he => by
        simpa using List.mem_takeWhile_imp he
      have hrest : ∀ e ∈ Memory.writeMany us (Memory.from (a + 1) m), a < e.1 := by
        intro e he
        rcases ihm e he with h | h
        · exact hu.1 e.1 (List.mem_map_of_mem h)
        · exact Memory.mem_from_le hm e h
      rw [Memory.writeMany]
      constructor
      · rw [List.map_append, List.pairwise_append, List.map_cons, List.pairwise_cons]
        refine ⟨hm.sublist ((List.takeWhile_sublist _).map _), ⟨?_, ihp⟩, ?_⟩
        · intro x hx
          obtain ⟨e, he, rfl⟩ := List.mem_map.1 hx
          exact hrest e he
        · intro x hx y hy
          obtain ⟨e, he, rfl⟩ := List.mem_map.1 hx
          have := htake e he
          rcases List.mem_cons.1 hy with rfl | hy
          · exact this
          · obtain ⟨f, hf, rfl⟩ := List.mem_map.1 hy
            have := hrest f hf
            omega
      · intro e he
        rcases List.mem_append.1 he with h | h
        · exact Or.inr ((List.takeWhile_sublist _).subset h)
        · rcases List.mem_cons.1 h with rfl | h
          · exact Or.inl (by simp)
          · rcases ihm e h with h | h
            · exact Or.inl (by simp [h])
            · exact Or.inr (hsub.subset h)
  obtain ⟨hp, hmem⟩ := key us m hu.1 hm.1
  exact ⟨hp, fun e he => (hmem e he).elim (hu.2 e) (hm.2 e)⟩

theorem State.wf_writeCells {s : State} {us : List Host.Cell} (hu : Memory.wf us = true)
    (h : Memory.wf s.mem = true) : Memory.wf (s.writeCells us).mem = true :=
  Memory.wf_writeMany hu h

theorem State.reset_wf : Memory.wf State.reset.mem = true := rfl

theorem QrModule.legal_code (m : QrModule) :
    (m.code == 0b00#8 || m.code == 0b10#8 || m.code == 0b11#8) = true := by
  cases m <;> rfl

@[simp] theorem QrModule.ofCode_code (m : QrModule) : QrModule.ofCode m.code = m := by
  cases m <;> decide

/-- The slot of a cell with storage is one the memory may list. -/
theorem legal_cell (g : GridId) {r c : Nat} (hr : r < maxSide) (hc : c < maxSide) (m : QrModule) :
    Memory.legal (cellAddr g r c, m.code) = true := by
  have hs : gridStorage g.base (cellAddr g r c) = true := by
    simp only [maxSide] at hr hc
    simp only [gridStorage, Bool.and_eq_true, decide_eq_true_eq, beq_iff_eq]
    simp only [cellAddr, gridStride, maxSide]
    omega
  rw [Memory.legal]
  cases g <;> simp only [hs, QrModule.legal_code, Bool.or_true, Bool.true_or, Bool.and_self]

/-- The slot of a buffer entry is one the memory may list, with any byte. -/
theorem legal_entry (b : BufferId) {i : Nat} (h : i < bufEntries) (x : Byte) :
    Memory.legal (entryAddr b i, x) = true := by
  have hs : entryStorage (entryAddr b i) = true := by
    simp only [bufEntries] at h
    simp only [entryStorage, Bool.and_eq_true, decide_eq_true_eq, beq_iff_eq]
    cases b <;> simp only [entryAddr, BufferId.base] <;> omega
  simp [Memory.legal, hs]

end Sys2Proof.Machine
end

