-- ==== Sys2Proof/Laws/Ops.lean ====
section
/-! SUPPORT. What each shared operation can do, said once: how a command concludes, what a commit over a
grid writes, and the inversion of every command's checks. -/

namespace Sys2Proof.Machine

/-! ### How a command concludes -/

/-- A command answers a next state: it commits and succeeds, or fails as a whole (R224). -/
theorem conclude_cases {s t : State} {r : Except CmdError State} (h : conclude s r = .next t) :
    (∃ u, r = .ok u ∧ t = u.afterSuccess) ∨
      (∃ e, r = .error e ∧ t = s.afterError e.code) := by
  cases r with
  | ok u => exact Or.inl ⟨u, rfl, (Host.Outcome.next.inj h).symm⟩
  | error e => exact Or.inr ⟨e, rfl, (Host.Outcome.next.inj h).symm⟩

@[simp] theorem conclude_ok (s u : State) :
    conclude s (.ok u) = .next u.afterSuccess := rfl

@[simp] theorem conclude_error (s : State) (e : CmdError) :
    conclude s (.error e) = .next (s.afterError e.code) := rfl

/-- A completion leaves every byte. -/
@[simp] theorem State.readByte_afterSuccess (s : State) (a : Nat) :
    s.afterSuccess.readByte a = s.readByte a := rfl

@[simp] theorem State.entry_afterSuccess (s : State) (b : BufferId) (i : Nat) :
    s.afterSuccess.entry b i = s.entry b i := rfl

@[simp] theorem State.cell_afterSuccess (s : State) (g : GridId) (r c : Nat) :
    s.afterSuccess.cell g r c = s.cell g r c := rfl

@[simp] theorem State.readByte_afterError (s : State) (code : Byte) (a : Nat) :
    (s.afterError code).readByte a = s.readByte a := rfl

/-- The codes of the eleven errors are all different from 0x00. -/
theorem CmdError.code_ne_zero (e : CmdError) : e.code ≠ 0x00#8 := by cases e <;> decide

/-! ### A commit over a grid -/

/-- The cells a row of a commit lists: column `c` holds `f c` where that is a byte. -/
def gridRow (g : GridId) (side r : Nat) (f : Nat → Option Byte) : List Host.Cell :=
  (List.range side).filterMap (fun c => (f c).map (fun b => (cellAddr g r c, b)))

/-- The cells a commit lists over the first `rows` rows. -/
def gridCells (g : GridId) (rows side : Nat) (f : Nat → Nat → Option Byte) : List Host.Cell :=
  (List.range rows).flatMap (fun r => gridRow g side r (f r))

theorem cellAddr_inj {g : GridId} {r c r' c' : Nat} (hc : c < 64) (hc' : c' < 64)
    (h : cellAddr g r c = cellAddr g r' c') : r = r' ∧ c = c' := by
  simp only [cellAddr, gridStride] at h
  omega

theorem mem_gridRow {g : GridId} {side r : Nat} {f : Nat → Option Byte} {e : Host.Cell} :
    e ∈ gridRow g side r f ↔ ∃ c < side, e.1 = cellAddr g r c ∧ f c = some e.2 := by
  simp only [gridRow, List.mem_filterMap, List.mem_range, Option.map_eq_some_iff]
  constructor
  · rintro ⟨c, hc, b, hb, rfl⟩
    exact ⟨c, hc, rfl, hb⟩
  · rintro ⟨c, hc, he, hb⟩
    exact ⟨c, hc, e.2, hb, by rw [← he]⟩

theorem mem_gridCells {g : GridId} {rows side : Nat} {f : Nat → Nat → Option Byte} {e : Host.Cell} :
    e ∈ gridCells g rows side f ↔ ∃ r < rows, ∃ c < side, e.1 = cellAddr g r c ∧ f r c = some e.2 := by
  simp only [gridCells, List.mem_flatMap, List.mem_range, mem_gridRow]

theorem gridRow_rising (g : GridId) (side r : Nat) (f : Nat → Option Byte) :
    ((gridRow g side r f).map Prod.fst).Pairwise (· < ·) := by
  rw [gridRow, List.pairwise_map, List.pairwise_filterMap]
  refine List.Pairwise.imp ?_ (List.pairwise_lt_range (n := side))
  intro c c' h b hb b' hb'
  obtain ⟨x, -, rfl⟩ := Option.map_eq_some_iff.1 hb
  obtain ⟨y, -, rfl⟩ := Option.map_eq_some_iff.1 hb'
  simp only [cellAddr]
  omega

/-- The addresses of a commit over a grid rise. -/
theorem gridCells_rising (g : GridId) (rows : Nat) {side : Nat} (h : side ≤ 64)
    (f : Nat → Nat → Option Byte) : ((gridCells g rows side f).map Prod.fst).Pairwise (· < ·) := by
  induction rows with
  | zero => simp [gridCells]
  | succ n ih =>
    rw [gridCells, List.range_succ, List.flatMap_append, List.map_append, List.pairwise_append]
    refine ⟨ih, ?_, ?_⟩
    · simpa using gridRow_rising g side n (f n)
    · intro a ha b hb
      obtain ⟨e, he, rfl⟩ := List.mem_map.1 ha
      obtain ⟨e', he', rfl⟩ := List.mem_map.1 hb
      obtain ⟨r, hr, c, hc, hac, -⟩ := mem_gridCells.1 he
      obtain ⟨c', hc', hbc, -⟩ := mem_gridRow.1 (by simpa using he')
      rw [hac, hbc]
      simp only [cellAddr, gridStride]
      omega

/-- A commit over a grid holds at a cell's slot what it puts there. -/
theorem find_gridCells (g : GridId) {rows side r c : Nat} (h : side ≤ 64) (hr : r < rows) (hc : c < side)
    (f : Nat → Nat → Option Byte) : Memory.find (gridCells g rows side f) (cellAddr g r c) = f r c := by
  have hrise := gridCells_rising g rows h f
  cases hf : f r c with
  | some b => exact (Memory.find_eq_some_iff hrise _ _).2 (mem_gridCells.2 ⟨r, hr, c, hc, rfl, hf⟩)
  | none =>
    refine (Memory.find_eq_none_iff hrise _).2 fun b hb => ?_
    obtain ⟨r', -, c', hc', ha, hb⟩ := mem_gridCells.1 hb
    obtain ⟨rfl, rfl⟩ := cellAddr_inj (by omega) (by omega) ha
    rw [hf] at hb
    cases hb

/-- A commit over a grid holds nothing at an address that is none of its written cells. -/
theorem find_gridCells_none (g : GridId) {rows side a : Nat} (h : side ≤ 64)
    {f : Nat → Nat → Option Byte}
    (ha : ∀ r < rows, ∀ c < side, (f r c).isSome = true → a ≠ cellAddr g r c) :
    Memory.find (gridCells g rows side f) a = none := by
  refine (Memory.find_eq_none_iff (gridCells_rising g rows h f) _).2 fun b hb => ?_
  obtain ⟨r, hr, c, hc, hac, hf⟩ := mem_gridCells.1 hb
  exact ha r hr c hc (by rw [hf]; rfl) hac

/-- A commit of modules over a grid's storage keeps the canonical form. -/
theorem gridCells_wf (g : GridId) {rows side : Nat} (hr : rows ≤ maxSide) (hs : side ≤ maxSide)
    (f : Nat → Nat → Option QrModule) :
    Memory.wf (gridCells g rows side (fun r c => (f r c).map QrModule.code)) = true := by
  rw [Memory.wf_iff]
  refine ⟨gridCells_rising g rows (le_trans hs (by decide)) _, fun e he => ?_⟩
  obtain ⟨r, hr', c, hc', hac, hf⟩ := mem_gridCells.1 he
  obtain ⟨m, -, hm⟩ := Option.map_eq_some_iff.1 hf
  rw [show e = (cellAddr g r c, m.code) from Prod.ext hac hm.symm]
  exact legal_cell g (by omega) (by omega) m

/-! ### The commits of the grid commands, as commits over a grid -/

theorem square_map {α : Type} (side : Nat) (f : Nat × Nat → α) :
    (square side).map f = (List.range side).flatMap (fun r => (List.range side).map (fun c => f (r, c))) := by
  simp [square, List.map_flatMap, Function.comp_def]

theorem mem_square {side r c : Nat} : (r, c) ∈ square side ↔ r < side ∧ c < side := by
  simp [square]

theorem clearGrid_eq (s : State) (g : GridId) :
    s.clearGrid g = s.writeCells (gridCells g maxSide maxSide
      (fun _ _ => (some QrModule.unset).map QrModule.code)) := by
  rw [State.clearGrid, square_map]
  simp [gridCells, gridRow]

theorem maskRow_eq (k side : Nat) (row : List QrModule) (i : Nat) :
    maskRow k side row i = gridRow .data side i (fun j =>
      (if !(row.getD j .unset).isUnset && maskPredicate k i j then some (row.getD j .unset).flip
        else none).map QrModule.code) := by
  rw [maskRow, gridRow]
  congr 1
  funext c
  dsimp only
  split_ifs <;> rfl

theorem placeRow_eq (side : Nat) (ref data : List QrModule) (row : List (Nat × Bool)) (r : Nat) :
    placeRow side ref data row r = gridRow .data side r (fun c =>
      (match placedIn row c with
        | some m => some m
        | none => if slackIn ref data row c then some QrModule.dark else none).map QrModule.code) := by
  rw [placeRow, gridRow]
  congr 1
  funext c
  cases placedIn row c with
  | some m => rfl
  | none => dsimp only; split_ifs <;> rfl

theorem flatMap_range_congr {α : Type} {n : Nat} {f g : Nat → List α} (h : ∀ i < n, f i = g i) :
    (List.range n).flatMap f = (List.range n).flatMap g := by
  induction n with
  | zero => rfl
  | succ n ih =>
    rw [List.range_succ, List.flatMap_append, List.flatMap_append, ih fun i hi => h i (by omega)]
    simp [h n (by omega)]

theorem gridRow_congr {g : GridId} {side r : Nat} {f f' : Nat → Option Byte} (h : ∀ c < side, f c = f' c) :
    gridRow g side r f = gridRow g side r f' := by
  rw [gridRow, gridRow]
  refine List.filterMap_congr fun c hc => ?_
  rw [h c (List.mem_range.1 hc)]

/-- What MASK commits (R201): the flipped modules. -/
theorem maskCells_eq (s : State) (k : Nat) {side : Nat} (h : side ≤ maxSide) :
    (List.range side).flatMap (fun i => maskRow k side ((s.grid .data).getD i []) i)
      = gridCells .data side side (fun r c => (if !(s.cell .data r c).isUnset && maskPredicate k r c then
          some (s.cell .data r c).flip else none).map QrModule.code) := by
  refine flatMap_range_congr fun r hr => ?_
  rw [maskRow_eq]
  refine gridRow_congr fun c hc => ?_
  have hm := State.moduleAt_grid s .data (r := r) (c := c) (by omega) (by omega)
  rw [moduleAt] at hm
  rw [hm]

/-- The module PLACE puts at `(r, c)`: the placed bit, or Dark where the cell is slack (R181, R187). -/
def placedModule (s : State) (placed : List ((Nat × Nat) × Bool)) (r c : Nat) : Option QrModule :=
  match placed.lookup (r, c) with
  | some b => some (QrModule.ofBit b)
  | none => if (s.cell .ref r c).isUnset && (s.cell .data r c).isUnset then some .dark else none

theorem placedIn_rowPlacements (placed : List ((Nat × Nat) × Bool)) (r c : Nat) :
    placedIn (rowPlacements placed r) c = (placed.lookup (r, c)).map QrModule.ofBit := by
  rw [placedIn]
  congr 1
  induction placed with
  | nil => rfl
  | cons p ps ih =>
    obtain ⟨⟨pr, pc⟩, b⟩ := p
    by_cases hr : pr = r
    · subst hr
      by_cases hc : c = pc
      · subst hc; simp [rowPlacements]
      · have hne : ((pr, c) == (pr, pc)) = false := by simp [hc]
        rw [List.lookup, hne]
        simp only [rowPlacements, List.filterMap_cons, if_true] at ih ⊢
        rw [List.lookup, beq_false_of_ne hc]
        exact ih
    · have hne : ((r, c) == (pr, pc)) = false := by simp [Ne.symm hr]
      rw [List.lookup, hne]
      simpa [rowPlacements, hr] using ih

theorem QrModule.isUnset_ofBit (b : Bool) : (QrModule.ofBit b).isUnset = false := by cases b <;> rfl

/-- What PLACE commits (R186, R187). -/
theorem placeCells_eq (s : State) (placed : List ((Nat × Nat) × Bool)) {side : Nat} (h : side ≤ maxSide) :
    (List.range side).flatMap (fun r => placeRow side ((s.grid .ref).getD r []) ((s.grid .data).getD r [])
        (rowPlacements placed r) r)
      = gridCells .data side side (fun r c => (placedModule s placed r c).map QrModule.code) := by
  refine flatMap_range_congr fun r hr => ?_
  rw [placeRow_eq]
  refine gridRow_congr fun c hc => ?_
  have hd := State.moduleAt_grid s .data (r := r) (c := c) (by omega) (by omega)
  have hf := State.moduleAt_grid s .ref (r := r) (c := c) (by omega) (by omega)
  rw [moduleAt] at hd hf
  simp only [placedModule, slackIn, placedIn_rowPlacements, hd, hf]
  cases placed.lookup (r, c) <;> rfl

/-- A slack cell of PLACE (R187): no bit placed there, Unset in both grids. -/
theorem slackIn_eq (s : State) (placed : List ((Nat × Nat) × Bool)) {r c : Nat} (hr : r < maxSide)
    (hc : c < maxSide) :
    slackIn ((s.grid .ref).getD r []) ((s.grid .data).getD r []) (rowPlacements placed r) c
      = ((s.cell .ref r c).isUnset && (s.cell .data r c).isUnset && (placed.lookup (r, c)).isNone) := by
  have hd := State.moduleAt_grid s .data hr hc
  have hf := State.moduleAt_grid s .ref hr hc
  rw [moduleAt] at hd hf
  rw [slackIn, placedIn_rowPlacements, hd, hf]
  cases placed.lookup (r, c) <;> simp [QrModule.isUnset_ofBit]

/-! ### The checks of each command -/

theorem genRow_mem {n : Nat} {g : List Nat} (h : genRow n = some g) : (n, g) ∈ genTable := by
  rw [genRow, List.lookup_eq_some_iff] at h
  obtain ⟨l₁, l₂, h, -⟩ := h
  simp [h]

/-- VERSION's check (R222). -/
theorem side_cases (s : State) :
    (1 ≤ s.csr.version.toNat ∧ s.csr.version.toNat ≤ 6 ∧ s.side = .ok (sideOf s.csr.version.toNat)) ∨
      ((s.csr.version.toNat = 0 ∨ s.csr.version.toNat = 7) ∧ s.side = .error .cfgVersion) := by
  have := s.csr.version.isLt
  rw [State.side]
  split_ifs with h
  · exact Or.inl ⟨h.1, h.2, rfl⟩
  · exact Or.inr ⟨by omega, rfl⟩

/-- RS_ENCODE commits only where N is a key and the message lies in DATA_IN (R132). -/
theorem rsEncodeResult_ok {off len n : Byte} {s t : State} (h : rsEncodeResult off len n s = .ok t) :
    ∃ g, genRow n.toNat = some g ∧ off.toNat + len.toNat ≤ bufEntries ∧
      t = s.writeCells (cellsFrom (BufferId.base .ecOut)
        (rsRem g n.toNat (s.message off.toNat len.toNat))) := by
  rw [rsEncodeResult] at h
  split at h
  · cases h
  · split at h
    · cases h
    · exact ⟨_, by assumption, by omega, (Except.ok.inj h).symm⟩

/-- INTERLEAVE commits only where its six checks pass (R171). -/
theorem interleaveResult_ok {s t : State} (h : interleaveResult s = .ok t) :
    ∃ g, genRow (s.csr.ecTotal.toNat / blockCount s.layout) = some g ∧
      1 ≤ s.csr.layoutN.toNat ∧ s.csr.layoutN.toNat ≤ 4 ∧ blockCount s.layout ≠ 0 ∧
      layoutTotal s.layout = s.csr.dataLen.toNat ∧ s.csr.ecTotal.toNat % blockCount s.layout = 0 ∧
      s.csr.dataLen.toNat + s.csr.ecTotal.toNat ≤ bufEntries ∧
      t = interleaveCommit ((blocksFrom 0 s.layout).map (fun b => s.message b.1 b.2))
        (((blocksFrom 0 s.layout).map (fun b => s.message b.1 b.2)).map
          (rsRem g (s.csr.ecTotal.toNat / blockCount s.layout)))
        (blockCount s.layout) (s.csr.ecTotal.toNat / blockCount s.layout) s := by
  simp only [interleaveResult] at h
  split at h
  · cases h
  · split at h
    · cases h
    · split at h
      · cases h
      · split at h
        · cases h
        · split at h
          · cases h
          · split at h
            · cases h
            · simp only [layoutEntries] at *
              exact ⟨_, by assumption, by omega, by omega, by assumption, by omega, by omega, by omega,
                (Except.ok.inj h).symm⟩

/-- PLACE commits only where VERSION and SEQ_NBITS are legal and the traversal completes (R186). -/
theorem placeResult_ok {s t : State} (h : placeResult s = .ok t) :
    ∃ cells, 1 ≤ s.csr.version.toNat ∧ s.csr.version.toNat ≤ 6 ∧ s.csr.seqNbits.toNat ≤ maxBits ∧
      zigzag (vacantIn (s.grid .ref) (sideOf s.csr.version.toNat)) (sideOf s.csr.version.toNat)
        s.csr.seqNbits.toNat (startTrav (sideOf s.csr.version.toNat)) = .ok cells ∧
      t = placeCommit (sideOf s.csr.version.toNat) (cells.zip (s.sequence s.csr.seqNbits.toNat)) s := by
  rw [placeResult] at h
  rcases side_cases s with ⟨h1, h6, hs⟩ | ⟨-, hs⟩ <;> rw [hs] at h
  · dsimp only at h
    split at h
    · cases h
    · split at h
      · cases h
      · exact ⟨_, h1, h6, by omega, by assumption, (Except.ok.inj h).symm⟩
  · cases h

/-- MASK commits only where VERSION is legal (R201). -/
theorem maskResult_ok {k : Nat} {s t : State} (h : maskResult k s = .ok t) :
    1 ≤ s.csr.version.toNat ∧ s.csr.version.toNat ≤ 6 ∧
      t = s.writeCells ((List.range (sideOf s.csr.version.toNat)).flatMap (fun i =>
        maskRow k (sideOf s.csr.version.toNat) ((s.grid .data).getD i []) i)) := by
  rw [maskResult] at h
  rcases side_cases s with ⟨h1, h6, hs⟩ | ⟨-, hs⟩ <;> rw [hs] at h
  · exact ⟨h1, h6, (Except.ok.inj h).symm⟩
  · cases h

end Sys2Proof.Machine
end

