-- ==== Sys2Proof/Laws/Bus.lean ====
section
/-! SUPPORT. The map of the window, slot by slot: what the offset of a register, a buffer entry, a grid
slot and a reserved location names. -/

namespace Sys2Proof.Machine

/-- A register's offset names the register (R22 to R36). -/
theorem slotAt_reg {n : Nat} {r : Reg} (h : regList[n]? = some r) : slotAt (4 * n) = .reg r := by
  have hn : n < 18 := by simpa [regList] using (List.getElem?_eq_some_iff.1 h).1
  have h1 : 4 * n < 0x1000 := by omega
  simp only [slotAt, h1, if_true, Nat.mul_div_cancel_left n (show 0 < 4 by decide), h]

/-- An entry's slot names the entry (R62). -/
theorem slotAt_entry (b : BufferId) {i : Nat} (h : i < 256) : slotAt (entryAddr b i) = .entry b i := by
  cases b
  · simp only [entryAddr, BufferId.base, slotAt, show ¬ 4096 + 4 * i < 4096 by omega,
      show 4096 + 4 * i < 5120 by omega, if_true, if_false, Slot.entry.injEq, true_and]
    omega
  · simp only [entryAddr, BufferId.base, slotAt, show ¬ 5120 + 4 * i < 4096 by omega,
      show ¬ 5120 + 4 * i < 5120 by omega, show 5120 + 4 * i < 6144 by omega, if_true, if_false,
      Slot.entry.injEq, true_and]
    omega
  · simp only [entryAddr, BufferId.base, slotAt, show ¬ 6144 + 4 * i < 4096 by omega,
      show ¬ 6144 + 4 * i < 5120 by omega, show ¬ 6144 + 4 * i < 6144 by omega,
      show 6144 + 4 * i < 7168 by omega, if_true, if_false, Slot.entry.injEq, true_and]
    omega

theorem gridSlot_eq (g : GridId) {r c : Nat} (hc : c < 64) :
    gridSlot g (4 * (64 * r + c)) = if r < 41 ∧ c < 41 then .cell g r c else .noStorage := by
  have h1 : 4 * (64 * r + c) / 4 / 64 = r := by omega
  have h2 : 4 * (64 * r + c) / 4 % 64 = c := by omega
  simp only [gridSlot, gridStride, maxSide, h1, h2]

/-- A grid slot names its cell where the cell has storage (R63). -/
theorem slotAt_cell (g : GridId) {r c : Nat} (hr : r < 64) (hc : c < 64) :
    slotAt (cellAddr g r c) = if r < 41 ∧ c < 41 then .cell g r c else .noStorage := by
  rw [← gridSlot_eq g hc]
  have hn : 4 * (64 * r + c) < 16384 := by omega
  simp only [cellAddr, gridStride]
  generalize 4 * (64 * r + c) = n at hn
  cases g
  · simp only [GridId.base, slotAt, show ¬ 65536 + n < 4096 by omega, show ¬ 65536 + n < 5120 by omega,
      show ¬ 65536 + n < 6144 by omega, show ¬ 65536 + n < 7168 by omega,
      show ¬ 65536 + n < 65536 by omega, show 65536 + n < 81920 by omega, if_true, if_false,
      Nat.add_sub_cancel_left]
  · simp only [GridId.base, slotAt, show ¬ 81920 + n < 4096 by omega, show ¬ 81920 + n < 5120 by omega,
      show ¬ 81920 + n < 6144 by omega, show ¬ 81920 + n < 7168 by omega,
      show ¬ 81920 + n < 65536 by omega, show ¬ 81920 + n < 81920 by omega,
      show 81920 + n < 98304 by omega, if_true, if_false, Nat.add_sub_cancel_left]

/-- What an aligned offset names is a register, a buffer entry, a grid slot or nothing (R61). -/
theorem slotAt_cases {a : Nat} (h4 : a % 4 = 0) (ha : a < 0x20000) :
    (∃ n r, n < 18 ∧ a = 4 * n ∧ regList[n]? = some r ∧ slotAt a = .reg r) ∨
      (∃ b i, i < 256 ∧ a = entryAddr b i ∧ slotAt a = .entry b i) ∨
      (∃ g r c, r < 64 ∧ c < 64 ∧ a = cellAddr g r c ∧
        slotAt a = if r < 41 ∧ c < 41 then .cell g r c else .noStorage) ∨
      ((0x048 ≤ a ∧ a < 0x1000 ∨ 0x1C00 ≤ a ∧ a < 0x10000 ∨ 0x18000 ≤ a) ∧ slotAt a = .reserved) := by
  have hres : (0x048 ≤ a ∧ a < 0x1000 ∨ 0x1C00 ≤ a ∧ a < 0x10000 ∨ 0x18000 ≤ a) → slotAt a = .reserved := by
    intro h
    simp only [slotAt]
    split_ifs <;> first | omega | rfl | skip
    rw [List.getElem?_eq_none (by simp [regList]; omega)]
  by_cases h1 : a < 0x48
  · obtain ⟨n, hn⟩ : ∃ n, a = 4 * n := ⟨a / 4, by omega⟩
    have h18 : n < regList.length := by simp [regList]; omega
    have hr := List.getElem?_eq_getElem h18
    exact Or.inl ⟨n, _, by omega, hn, hr, hn ▸ slotAt_reg hr⟩
  · have buf : ∀ b : BufferId, b.base ≤ a → a < b.base + 1024 →
        ∃ b i, i < 256 ∧ a = entryAddr b i ∧ slotAt a = .entry b i := by
      intro b hb hb'
      have hb4 : b.base % 4 = 0 := by cases b <;> rfl
      have hi : a = entryAddr b ((a - b.base) / 4) := by rw [entryAddr]; omega
      have h256 : (a - b.base) / 4 < 256 := by omega
      refine ⟨b, _, h256, hi, ?_⟩
      have h := slotAt_entry b h256
      rwa [← hi] at h
    have grd : ∀ g : GridId, g.base ≤ a → a < g.base + 0x4000 → ∃ g r c, r < 64 ∧ c < 64 ∧ a = cellAddr g r c ∧
        slotAt a = if r < 41 ∧ c < 41 then .cell g r c else .noStorage := by
      intro g hg hg'
      have hg4 : g.base % 4 = 0 := by cases g <;> rfl
      have hi : a = cellAddr g ((a - g.base) / 256) ((a - g.base) / 4 % 64) := by
        simp only [cellAddr, gridStride]; omega
      have h1 : (a - g.base) / 256 < 64 := by omega
      have h2 : (a - g.base) / 4 % 64 < 64 := by omega
      refine ⟨g, _, _, h1, h2, hi, ?_⟩
      have h := slotAt_cell g h1 h2
      rwa [← hi] at h
    by_cases h2 : 0x1000 ≤ a ∧ a < 0x1C00
    · right; left
      rcases Nat.lt_or_ge a 0x1400 with h3 | h3
      · exact buf .dataIn h2.1 h3
      · rcases Nat.lt_or_ge a 0x1800 with h5 | h5
        · exact buf .ecOut h3 h5
        · exact buf .seq h5 h2.2
    · by_cases h3 : 0x10000 ≤ a ∧ a < 0x18000
      · right; right; left
        rcases Nat.lt_or_ge a 0x14000 with h5 | h5
        · exact grd .ref h3.1 h5
        · exact grd .data h5 h3.2
      · have h6 : 0x048 ≤ a ∧ a < 0x1000 ∨ 0x1C00 ≤ a ∧ a < 0x10000 ∨ 0x18000 ≤ a := by omega
        exact Or.inr (Or.inr (Or.inr ⟨h6, hres h6⟩))

/-- A reserved offset and a grid slot without storage, busy or not: a read returns 0, a write is ignored, and
neither changes anything (R37, R63, R69). -/
theorem bus_empty {s : State} {a : BitVec 17} (h4 : a.toNat % 4 = 0)
    (h : slotAt a.toNat = .reserved ∨ slotAt a.toNat = .noStorage) (w : Word) :
    busRead .word a s = (0#32, s) ∧ busWrite .word a w s = s := by
  have ha : legalAccess .word a = true := by simp [legalAccess, h4]
  rcases h with h | h <;> simp [busRead, busWrite, ha, h, readableBusy, readSlot, writeSlot, writeSlotBusy]

/-- `wait` reads STATUS and goes on only when DONE = 1, busy or not (R102). -/
theorem hostTurn_wait {s : State} {rest : List HostOp} (h : s.prog = .wait :: rest) :
    hostTurn s = { s with
      prog := if s.status.done then rest else .wait :: rest
      reads := s.status.word :: s.reads } := by
  have ha : legalAccess .word 0x00004#17 = true := by decide
  have hs : slotAt (0x00004#17).toNat = .reg .status := by decide
  simp only [hostTurn, h, busRead, ha, hs, readableBusy, readSlot, readReg, keepRead, Bool.not_true, Bool.and_false,
    Bool.false_eq_true, if_false]

/-- `waitIrq` makes no access and goes on only when `irq` = 1 (R73, R258). -/
theorem hostTurn_waitIrq {s : State} {rest : List HostOp} (h : s.prog = .waitIrq :: rest) :
    hostTurn s = { s with prog := if s.irq then rest else .waitIrq :: rest } := by
  simp only [hostTurn, h]

end Sys2Proof.Machine
end

