-- ==== Sys2Proof/Laws/Encode.lean ====
section
/-! SUPPORT. The fields of an encoded command, bit by bit: what each field of R92 to R97 reads from the
word of R101. -/

namespace Sys2Proof

/-- A field that lies in the lower part of an appended word. -/
theorem extractLsb'_append_lower {a b : Nat} (x : BitVec a) (y : BitVec b) {lo n : Nat} (h : lo + n ≤ b) :
    (x ++ y).extractLsb' lo n = y.extractLsb' lo n := by
  ext i hi
  simp [BitVec.getLsbD_append, show lo + i < b by omega]

/-- A field that lies in the upper part of an appended word. -/
theorem extractLsb'_append_upper {a b : Nat} (x : BitVec a) (y : BitVec b) {lo n : Nat} (h : b ≤ lo) :
    (x ++ y).extractLsb' lo n = x.extractLsb' (lo - b) n := by
  ext i hi
  simp [BitVec.getLsbD_append, show ¬ lo + i < b by omega, show lo + i - b = lo - b + i by omega]

/-- The whole of a value, as a field of itself. -/
theorem extractLsb'_all {n : Nat} (x : BitVec n) : x.extractLsb' 0 n = x := by
  ext i hi
  simp

/-- The four bytes of a word. -/
theorem field_bytes (b3 b2 b1 b0 : Byte) :
    field (b3 ++ b2 ++ b1 ++ b0) 0 8 = b0 ∧ field (b3 ++ b2 ++ b1 ++ b0) 8 8 = b1 ∧
      field (b3 ++ b2 ++ b1 ++ b0) 16 8 = b2 ∧ field (b3 ++ b2 ++ b1 ++ b0) 24 8 = b3 := by
  refine ⟨?_, ?_, ?_, ?_⟩
  · exact (extractLsb'_append_lower _ b0 (by decide)).trans (extractLsb'_all b0)
  · refine (extractLsb'_append_upper _ b0 (by decide)).trans ?_
    exact (extractLsb'_append_lower _ b1 (by decide)).trans (extractLsb'_all b1)
  · refine (extractLsb'_append_upper _ b0 (by decide)).trans ?_
    refine (extractLsb'_append_upper _ b1 (by decide)).trans ?_
    exact (extractLsb'_append_lower _ b2 (by decide)).trans (extractLsb'_all b2)
  · refine (extractLsb'_append_upper _ b0 (by decide)).trans ?_
    refine (extractLsb'_append_upper _ b1 (by decide)).trans ?_
    exact (extractLsb'_append_upper _ b2 (by decide)).trans (extractLsb'_all b3)

/-- A format G1 word: the opcode, A, and the reserved half (R94). -/
theorem field_g1 (a o : Byte) : field (0#16 ++ a ++ o) 0 8 = o ∧ field (0#16 ++ a ++ o) 8 8 = a ∧
    field (0#16 ++ a ++ o) 16 16 = 0#16 := by
  refine ⟨?_, ?_, ?_⟩
  · exact (extractLsb'_append_lower _ o (by decide)).trans (extractLsb'_all o)
  · refine (extractLsb'_append_upper _ o (by decide)).trans ?_
    exact (extractLsb'_append_lower _ a (by decide)).trans (extractLsb'_all a)
  · refine (extractLsb'_append_upper _ o (by decide)).trans ?_
    exact (extractLsb'_append_upper _ a (by decide)).trans (extractLsb'_all _)

/-- A format B word: the opcode, MASKID, ECL and the reserved bits (R96). -/
theorem field_b (e : BitVec 2) (k : BitVec 3) (o : Byte) :
    field (0#19 ++ e ++ k ++ o) 0 8 = o ∧ field (0#19 ++ e ++ k ++ o) 8 3 = k ∧
      field (0#19 ++ e ++ k ++ o) 11 2 = e ∧ field (0#19 ++ e ++ k ++ o) 13 19 = 0#19 := by
  refine ⟨?_, ?_, ?_, ?_⟩
  · exact (extractLsb'_append_lower _ o (by decide)).trans (extractLsb'_all o)
  · refine (extractLsb'_append_upper _ o (by decide)).trans ?_
    exact (extractLsb'_append_lower _ k (by decide)).trans (extractLsb'_all k)
  · refine (extractLsb'_append_upper _ o (by decide)).trans ?_
    refine (extractLsb'_append_upper _ k (by decide)).trans ?_
    exact (extractLsb'_append_lower _ e (by decide)).trans (extractLsb'_all e)
  · refine (extractLsb'_append_upper _ o (by decide)).trans ?_
    refine (extractLsb'_append_upper _ k (by decide)).trans ?_
    exact (extractLsb'_append_upper _ e (by decide)).trans (extractLsb'_all _)

/-- A format K word: the opcode, K and the reserved bits (R97). -/
theorem field_k (k : BitVec 3) (o : Byte) : field (0#21 ++ k ++ o) 0 8 = o ∧ field (0#21 ++ k ++ o) 8 3 = k ∧
    field (0#21 ++ k ++ o) 11 21 = 0#21 := by
  refine ⟨?_, ?_, ?_⟩
  · exact (extractLsb'_append_lower _ o (by decide)).trans (extractLsb'_all o)
  · refine (extractLsb'_append_upper _ o (by decide)).trans ?_
    exact (extractLsb'_append_lower _ k (by decide)).trans (extractLsb'_all k)
  · refine (extractLsb'_append_upper _ o (by decide)).trans ?_
    exact (extractLsb'_append_upper _ k (by decide)).trans (extractLsb'_all _)

end Sys2Proof
end

