-- ==== Sys2Proof/Laws/PerInstr.lean ====
section
/-! SUPPORT. Per command: its encoding is spelled by the opcode-map row of its mnemonic (R98, R101). -/

namespace Sys2Proof.Laws.Spelling

/-- The row of R98 with the command's mnemonic spells the command's encoding. -/
def Statement (i : Instr) : Prop := ∃ row ∈ opcodeMap, row.1 = mnemonic i ∧ spells (encode i) row = true

/-- A row whose match is the encoding cut by its mask spells it. -/
theorem of_row {i : Instr} (row : String × Word × Word) (hr : row ∈ opcodeMap) (hm : row.1 = mnemonic i)
    (h : encode i &&& row.2.2 = row.2.1) : Statement i :=
  ⟨row, hr, hm, by rw [spells, h]; exact BEq.rfl⟩

theorem g2_word (b a o : Byte) : (0#8 ++ b ++ a ++ o : Word) &&& 0xFF0000FF#32 = 0#24 ++ o := by
  apply BitVec.eq_of_getLsbD_eq
  intro i hi
  simp only [BitVec.getLsbD_and, BitVec.getLsbD_append]
  interval_cases i <;> simp

theorem g1_word (a o : Byte) : (0#16 ++ a ++ o : Word) &&& 0xFFFF00FF#32 = 0#24 ++ o := by
  apply BitVec.eq_of_getLsbD_eq
  intro i hi
  simp only [BitVec.getLsbD_and, BitVec.getLsbD_append]
  interval_cases i <;> simp

theorem r_word (n len off o : Byte) : (n ++ len ++ off ++ o : Word) &&& 0x000000FF#32 = 0#24 ++ o := by
  apply BitVec.eq_of_getLsbD_eq
  intro i hi
  simp only [BitVec.getLsbD_and, BitVec.getLsbD_append]
  interval_cases i <;> simp

theorem b_word (e : BitVec 2) (k : BitVec 3) (o : Byte) :
    (0#19 ++ e ++ k ++ o : Word) &&& 0xFFFFE0FF#32 = 0#24 ++ o := by
  apply BitVec.eq_of_getLsbD_eq
  intro i hi
  simp only [BitVec.getLsbD_and, BitVec.getLsbD_append]
  interval_cases i <;> simp

theorem k_word (k : BitVec 3) (o : Byte) : (0#21 ++ k ++ o : Word) &&& 0xFFFFF8FF#32 = 0#24 ++ o := by
  apply BitVec.eq_of_getLsbD_eq
  intro i hi
  simp only [BitVec.getLsbD_and, BitVec.getLsbD_append]
  interval_cases i <;> simp

theorem nop : Statement .nop :=
  of_row ("NOP", 0x00000000#32, 0xFFFFFFFF#32) (by decide) rfl rfl

theorem gfAdd (a b : Byte) : Statement (.gfAdd a b) :=
  of_row ("GF_ADD", 0x00000001#32, 0xFF0000FF#32) (by decide) rfl (g2_word b a 0x01#8)

theorem gfMul (a b : Byte) : Statement (.gfMul a b) :=
  of_row ("GF_MUL", 0x00000002#32, 0xFF0000FF#32) (by decide) rfl (g2_word b a 0x02#8)

theorem gfExp (a : Byte) : Statement (.gfExp a) :=
  of_row ("GF_EXP", 0x00000003#32, 0xFFFF00FF#32) (by decide) rfl (g1_word a 0x03#8)

theorem gfLog (a : Byte) : Statement (.gfLog a) :=
  of_row ("GF_LOG", 0x00000004#32, 0xFFFF00FF#32) (by decide) rfl (g1_word a 0x04#8)

theorem rsEncode (off len n : Byte) : Statement (.rsEncode off len n) :=
  of_row ("RS_ENCODE", 0x00000010#32, 0x000000FF#32) (by decide) rfl (r_word n len off 0x10#8)

theorem bchEncode (ecl : BitVec 2) (maskId : BitVec 3) : Statement (.bchEncode ecl maskId) :=
  of_row ("BCH_ENCODE", 0x00000020#32, 0xFFFFE0FF#32) (by decide) rfl (b_word ecl maskId 0x20#8)

theorem clearRef : Statement .clearRef :=
  of_row ("CLEAR_REF", 0x00000030#32, 0xFFFFFFFF#32) (by decide) rfl rfl

theorem clearData : Statement .clearData :=
  of_row ("CLEAR_DATA", 0x00000031#32, 0xFFFFFFFF#32) (by decide) rfl rfl

theorem interleave : Statement .interleave :=
  of_row ("INTERLEAVE", 0x00000040#32, 0xFFFFFFFF#32) (by decide) rfl rfl

theorem place : Statement .place :=
  of_row ("PLACE", 0x00000050#32, 0xFFFFFFFF#32) (by decide) rfl rfl

theorem mask (k : BitVec 3) : Statement (.mask k) :=
  of_row ("MASK", 0x00000060#32, 0xFFFFF8FF#32) (by decide) rfl (k_word k 0x60#8)

end Sys2Proof.Laws.Spelling
end

