-- ==== Sys2Proof/Tests/Slice0.lean ====
section
/-! SUPPORT. Tests: the checks of WellFormed, the decoding of each command from a word written out from the
spec, at most two one-step tests per command with the values of spec/95_test_vectors.md, the host interface,
and a state and operands that meet the hypotheses of every statement that has any. -/

namespace Sys2Proof.Tests

open Sys2Proof.Machine

/-! ### Helpers -/

/-- A state with the given control registers and memory, otherwise as after reset. -/
def given (c : Csr) (m : List Host.Cell) : State := { State.reset with csr := c, mem := m }

/-- The command of word `w` executed as the next step on `s`; what `f` sees of the next state. -/
def ran (s : State) (w : Nat) (f : State → Bool) : Bool :=
  match step (s.withFetchWord 32 w) with
  | .next t => f t
  | .fault _ | .refused _ => false

/-- What `f` sees of the next state a command gives. -/
def executed (i : Instr) (s : State) (f : State → Bool) : Bool :=
  match exec i s with
  | .next t => f t
  | .fault _ | .refused _ => false

/-- STATUS is the word `w`. -/
def statusIs (w : Word) (t : State) : Bool := t.status.word == w

/-- RESULT is `v`, after a success. -/
def resultIs (v : BitVec 16) (t : State) : Bool := t.csr.result == v && statusIs 0x2#32 t

/-- A buffer's entries from 0 on are `bs`. -/
def entriesAre (b : BufferId) (bs : List Byte) (t : State) : Bool := (t.buffer b).take bs.length == bs

/-! ### WellFormed: an ill-formed line for each check of R101 -/

theorem test_asm_gf_operand_too_big :
    (AsmLine.gfAdd 256 0).assemble = none ∧ (AsmLine.gfAdd 0 256).assemble = none ∧
      (AsmLine.gfMul 256 0).assemble = none ∧ (AsmLine.gfMul 0 256).assemble = none := by decide

theorem test_asm_exp_log_operand_too_big :
    (AsmLine.gfExp 256).assemble = none ∧ (AsmLine.gfLog 256).assemble = none := by decide

theorem test_asm_rs_operand_too_big :
    (AsmLine.rsEncode 256 0 7).assemble = none ∧ (AsmLine.rsEncode 0 256 7).assemble = none ∧
      (AsmLine.rsEncode 0 0 256).assemble = none := by decide

theorem test_asm_bch_operand_too_big :
    (AsmLine.bchEncode 4 0).assemble = none ∧ (AsmLine.bchEncode 0 8).assemble = none := by decide

theorem test_asm_mask_operand_too_big : (AsmLine.mask 8).assemble = none := by decide

theorem test_asm_largest_operands :
    (AsmLine.gfMul 255 255).assemble = some (.gfMul 0xFF#8 0xFF#8) ∧
      (AsmLine.bchEncode 3 7).assemble = some (.bchEncode 3#2 7#3) ∧
      (AsmLine.mask 7).assemble = some (.mask 7#3) := by decide

/-! ### Decoding: a word of each command, written out from R92 to R98, and one with a reserved bit set -/

-- R92, R98: OPC 0x00, all of 31..8 zero; V-DEC-1's reserved word.
theorem test_decode_nop : decode 0b00000000000000000000000000000000#32 = .ok .nop ∧
    decode 0x00000100#32 = .error .reservedField := by decide

-- R93: B = 0xCA in 23..16, A = 0x53 in 15..8, OPC 0x01 (V-GF-1).
theorem test_decode_gfAdd : decode 0b00000000110010100101001100000001#32 = .ok (.gfAdd 0x53#8 0xCA#8) ∧
    decode 0x01000001#32 = .error .reservedField := by decide

theorem test_decode_gfMul : decode 0b00000000110010100101001100000010#32 = .ok (.gfMul 0x53#8 0xCA#8) ∧
    decode 0x80000002#32 = .error .reservedField := by decide

-- R94: A in 15..8, 31..16 reserved.
theorem test_decode_gfExp : decode 0b00000000000000001111111100000011#32 = .ok (.gfExp 255#8) ∧
    decode 0x00010003#32 = .error .reservedField := by decide

theorem test_decode_gfLog : decode 0b00000000000000001000111100000100#32 = .ok (.gfLog 0x8F#8) ∧
    decode 0x80000004#32 = .error .reservedField := by decide

-- R95: N = 10 in 31..24, LEN = 16 in 23..16, OFF = 0 in 15..8 (P2).
theorem test_decode_rsEncode : decode 0b00001010000100000000000000010000#32 = .ok (.rsEncode 0#8 16#8 10#8) ∧
    decode 0xFFFFFF10#32 = .ok (.rsEncode 255#8 255#8 255#8) := by decide

-- R96: ECL = 01 in 12..11, MASKID = 111 in 10..8 (V-BCH-2).
theorem test_decode_bchEncode : decode 0b00000000000000000000111100100000#32 = .ok (.bchEncode 1#2 7#3) ∧
    decode 0x00002020#32 = .error .reservedField := by decide

theorem test_decode_clearRef : decode 0b00000000000000000000000000110000#32 = .ok .clearRef ∧
    decode 0x00000130#32 = .error .reservedField := by decide

theorem test_decode_clearData : decode 0b00000000000000000000000000110001#32 = .ok .clearData ∧
    decode 0x80000031#32 = .error .reservedField := by decide

theorem test_decode_interleave : decode 0b00000000000000000000000001000000#32 = .ok .interleave ∧
    decode 0x00000140#32 = .error .reservedField := by decide

theorem test_decode_place : decode 0b00000000000000000000000001010000#32 = .ok .place ∧
    decode 0x00010050#32 = .error .reservedField := by decide

-- R97: K = 101 in 10..8; bit 11 reserved (V-MK-2).
theorem test_decode_mask : decode 0b00000000000000000000010101100000#32 = .ok (.mask 5#3) ∧
    decode 0x00000860#32 = .error .reservedField := by decide

-- V-DEC-1: an illegal opcode is reported before any field check.
theorem test_decode_illegal : decode 0x00000005#32 = .error .illegalOpcode ∧
    decode 0x000000FF#32 = .error .illegalOpcode ∧ decode 0x12345611#32 = .error .illegalOpcode := by decide

-- The bytes of a word lie least significant first (R65).
theorem test_decode_bytes : decodeBytes [0x02#8, 0x53#8, 0xCA#8, 0x00#8, 0x60#8]
    = some (.ok (.gfMul 0x53#8 0xCA#8), [0x60#8]) ∧ decodeBytes [0x02#8, 0x53#8, 0xCA#8] = none := by decide

theorem test_decodeTableWord : decodeTableWord 32 0x0A100010 = some (.rsEncode 0#8 16#8 10#8) ∧
    decodeTableWord 8 0x60 = some (.mask 0#3) ∧ decodeTableWord 32 0x05 = none := by decide

-- Per field at its largest value, the encoder puts it where R93 to R97 say.
theorem test_encode_words : encode (.gfAdd 0x53#8 0xCA#8) = 0x00CA5301#32 ∧
    encode (.rsEncode 200#8 57#8 10#8) = 0x0A39C810#32 ∧ encode (.bchEncode 3#2 7#3) = 0x00001F20#32 ∧
    encode (.mask 7#3) = 0x00000760#32 := by decide

/-! ### One step of each command (V-GF-1 to V-MK-2) -/

theorem test_nop : ran (given { Csr.reset with result := 0x55#16 } []) 0x00000000 (resultIs 0x55#16) = true := by
  decide

theorem test_gfAdd : ran State.reset 0x00CA5301 (resultIs 0x99#16) = true := by decide

theorem test_gfAdd_self : ran State.reset 0x00535301 (resultIs 0#16) = true := by decide

theorem test_gfMul : ran State.reset 0x00CA5302 (resultIs 0x8F#16) = true := by decide

theorem test_gfMul_zero :
    ran (given { Csr.reset with result := 1#16 } []) 0x00530002 (resultIs 0#16) = true := by decide

theorem test_gfExp_255 : ran State.reset 0x0000FF03 (resultIs 1#16) = true := by decide

theorem test_gfExp : ran State.reset 0x0000C803 (resultIs 0x1C#16) = true := by decide

theorem test_gfLog : ran State.reset 0x0000CA04 (resultIs 73#16) = true := by decide

theorem test_gfLog_zero : ran (given { Csr.reset with result := 0x7#16 } []) 0x00000004
    (fun t => statusIs 0x00004106#32 t && t.csr.result == 0x7#16) = true := by decide

/-- The ISO 1-M message of V-RS-1. -/
def isoMessage : List Byte :=
  [0x10#8, 0x20#8, 0x0C#8, 0x56#8, 0x61#8, 0x80#8, 0xEC#8, 0x11#8] ++
  [0xEC#8, 0x11#8, 0xEC#8, 0x11#8, 0xEC#8, 0x11#8, 0xEC#8, 0x11#8]

-- V-RS-1, first row.
theorem test_rsEncode_iso : ran (given Csr.reset (cellsFrom 0x1000 isoMessage)) 0x0A100010
    (fun t => statusIs 0x2#32 t && entriesAre .ecOut
      [0xA5#8, 0x24#8, 0xD4#8, 0xC1#8, 0xED#8, 0x36#8, 0xC7#8, 0x87#8, 0x2C#8, 0x55#8] t) = true := by
  decide

-- V-RS-2: both errors, CFG_EC_KEY first; the range error alone; the last entry of DATA_IN.
theorem test_rsEncode_corners : ran State.reset 0x0B39C810 (statusIs 0x00002206#32) = true ∧
    ran State.reset 0x0A39C810 (statusIs 0x00003106#32) = true ∧
    ran (given Csr.reset [(0x1000 + 4 * 255, 0x01#8)]) 0x0701FF10
      (entriesAre .ecOut [0x7F#8, 0x7A#8, 0x9A#8, 0xA4#8, 0x0B#8, 0x44#8, 0x75#8]) = true := by
  decide +kernel

-- E4 and V-BCH-2 (the remainder of 9 bits is left-padded).
theorem test_bchEncode : ran State.reset 0x00000920 (resultIs 0x72F3#16) = true ∧
    ran State.reset 0x00000F20 (resultIs 0x6976#16) = true := by decide

theorem test_bchEncode_largest : ran State.reset 0x00001F20 (resultIs 0x2BED#16) = true := by decide

-- V-GRID-1: all 41 × 41 cells, VERSION = 0; the other grid is kept.
theorem test_clearRef : ran (given Csr.reset [(cellAddr .ref 40 40, 0b11#8), (cellAddr .data 0 0, 0b10#8)])
    0x00000030 (fun t => statusIs 0x2#32 t && t.cell .ref 40 40 == .unset && t.cell .ref 0 0 == .unset
      && t.cell .data 0 0 == .light) = true := by decide +kernel

theorem test_clearData : ran (given Csr.reset [(cellAddr .ref 40 40, 0b11#8), (cellAddr .data 40 40, 0b10#8)])
    0x00000031 (fun t => statusIs 0x2#32 t && t.cell .data 40 40 == .unset && t.cell .data 17 3 == .unset
      && t.cell .ref 40 40 == .dark) = true := by decide +kernel

/-- The registers of a layout. -/
def layoutCsr (len total : BitVec 9) (n : BitVec 3) (l0 l1 : BitVec 16) : Csr :=
  { Csr.reset with dataLen := len, ecTotal := total, layoutN := n, layout0 := l0, layout1 := l1 }

/-- The state of V-IL-1. -/
def unequalBlocks : State :=
  given (layoutCsr 3#9 14#9 2#3 0x0101#16 0x0102#16) (cellsFrom 0x1000 [0x01#8, 0x02#8, 0x03#8])

-- V-IL-1.
theorem test_interleave_unequal : ran unequalBlocks 0x00000040 (fun t => statusIs 0x2#32 t &&
    entriesAre .seq ([0x01#8, 0x02#8, 0x03#8, 0x7F#8, 0x8A#8, 0x7A#8, 0x79#8, 0x9A#8, 0x1D#8] ++
      [0xA4#8, 0x6C#8, 0x0B#8, 0x29#8, 0x44#8, 0x88#8, 0x75#8, 0x22#8]) t &&
    t.csr.seqNbits == 136#12 && t.csr.ecStart == 24#12 && t.csr.blocks == 2#10 && t.csr.ecPerBlock == 7#8)
      = true := by decide

-- V-IL-3: the six checks, in order.
theorem test_interleave_errors :
    ran (given (layoutCsr 4#9 14#9 5#3 0x0202#16 0#16) []) 0x40 (statusIs 0x2406#32) = true ∧
    ran (given (layoutCsr 0#9 7#9 1#3 0x0001#16 0#16) []) 0x40 (statusIs 0x2406#32) = true ∧
    ran (given (layoutCsr 5#9 15#9 1#3 0x0202#16 0#16) []) 0x40 (statusIs 0x2406#32) = true ∧
    ran (given (layoutCsr 4#9 15#9 1#3 0x0202#16 0#16) []) 0x40 (statusIs 0x2306#32) = true ∧
    ran (given (layoutCsr 4#9 0#9 1#3 0x0202#16 0#16) []) 0x40 (statusIs 0x2206#32) = true ∧
    ran (given (layoutCsr 250#9 10#9 1#3 0x01FA#16 0#16) []) 0x40 (statusIs 0x3106#32) = true := by
  decide

/-- REF set to StdRef(v) by Light modules and DATA cleared, in the L × L square; VERSION = v and `n` bits. -/
def standard (v : Nat) (n : BitVec 12) : State :=
  ((given { Csr.reset with version := BitVec.ofNat 3 v, seqNbits := n } []).writeCells
    (gridCells .ref (sideOf v) (sideOf v) (fun r c =>
      (some (if stdRef v r c then QrModule.light else QrModule.unset)).map QrModule.code))).writeCells
    (gridCells .data (sideOf v) (sideOf v) (fun _ _ => (some QrModule.unset).map QrModule.code))

-- V-PL-2: sixteen ones go to (20,20) .. (13,19), the rest of the vacant cells are filled Dark.
theorem test_place_sixteen :
    ran ((standard 1 16#12).writeCells (cellsFrom 0x1800 [0x7F#8, 0xFE#8])) 0x00000050
      (fun t => statusIs 0x2#32 t && t.csr.fillCount == 192#11 && t.cell .data 20 20 == .light
        && t.cell .data 20 19 == .dark && t.cell .data 13 19 == .light && t.cell .data 12 20 == .dark
        && t.cell .data 0 0 == .unset) = true := by decide +kernel

/-- REF of V-PL-7: column 19, and column 20 but for its last cell, reserved; `n` bits. -/
def climbing (n : BitVec 12) : State :=
  (given { Csr.reset with version := 1#3, seqNbits := n } []).writeCells
    (gridCells .ref 21 21 (fun r c =>
      (some (if c = 19 ∨ (c = 20 ∧ r < 20) then QrModule.light else QrModule.unset)).map QrModule.code))

-- V-PL-4, V-PL-5, V-PL-8, V-PL-10 and V-PL-11: each error of PLACE.
theorem test_place_errors :
    ran (climbing 2#12) 0x50 (statusIs 0x4306#32) = true ∧
    ran (given { Csr.reset with version := 1#3, seqNbits := 1#12 } [(cellAddr .ref 20 20, 0b10#8)]) 0x50
      (statusIs 0x4206#32) = true ∧
    ran (given { Csr.reset with version := 7#3, seqNbits := 4095#12 } []) 0x50 (statusIs 0x2106#32) = true ∧
    ran (given { Csr.reset with version := 1#3, seqNbits := 2049#12 } []) 0x50 (statusIs 0x3106#32) = true := by
  decide

-- V-MK-2: an Unset cell stays, a cell outside the square stays, a Dark cell where M_1 holds turns Light;
-- VERSION = 0 is refused.
theorem test_mask : executed (.mask 1#3) ((standard 1 0#12).writeCells [(cellAddr .data 0 1, 0b11#8),
        (cellAddr .data 1 1, 0b11#8), (cellAddr .data 21 0, 0b11#8)])
      (fun t => t.cell .data 0 0 == .unset && t.cell .data 0 1 == .light && t.cell .data 1 1 == .dark
        && t.cell .data 21 0 == .dark) = true ∧
    ran State.reset 0x00000060 (statusIs 0x2106#32) = true := by decide +kernel

-- V-MK-1: the counts of cells of the 21 × 21 square where M_K holds.
theorem test_mask_counts :
    (List.range 8).map (fun k => (square 21).countP (fun p => maskPredicate k p.1 p.2))
      = [221, 231, 147, 147, 222, 194, 293, 219] := by decide +kernel

-- V-DEC-1: the Engine's completion of a word that spells no command.
theorem test_decode_error_step : ran State.reset 0x00000100 (statusIs 0x1206#32) = true ∧
    ran State.reset 0x12345611 (statusIs 0x1106#32) = true := by decide

/-! ### The host interface (V-HOST-1), resets and the Host's side -/

theorem test_host_id : (busRead .word 0x00000#17 State.reset).1 = 0x51524331#32 := by decide

theorem test_host_narrow_read : (busRead .half 0x00004#17 State.reset).1 = 0#32 ∧
    (busRead .half 0x00004#17 State.reset).2.status.herr = true := by decide

theorem test_host_misaligned_write :
    busWrite .word 0x01002#17 0x55#32 State.reset = State.reset.afterHostError := by decide

theorem test_host_buffer_write :
    (busRead .word 0x0100C#17 (busWrite .word 0x0100C#17 0x123456AB#32 State.reset)).1 = 0xAB#32 := by decide

theorem test_host_grid_write :
    (busRead .word 0x14514#17 (busWrite .word 0x14514#17 0xFFFFFFFF#32 State.reset)).1 = 3#32 ∧
    busWrite .word 0x10000#17 1#32 State.reset = State.reset.afterHostError ∧
    busWrite .word 0x12900#17 3#32 State.reset = State.reset := by decide

theorem test_host_version_width :
    (busRead .word 0x00014#17 (busWrite .word 0x00014#17 0xFF#32 State.reset)).1 = 7#32 := by decide

/-- A state that executes the command of word `w`. -/
def busyWith (w : Word) (ts : List Turn) : State := { issue w State.reset with turns := ts }

theorem test_host_busy_write :
    busWrite .word 0x01000#17 5#32 (busyWith 0#32 []) = (busyWith 0#32 []).afterHostError ∧
    busWrite .word 0x00008#17 2#32 (busyWith 0#32 []) = (busyWith 0#32 []).afterHostError := by decide

-- Rows 5, 6 and 8 of 93 while BUSY = 1: a reserved register offset, a reserved range, a slot without storage.
theorem test_host_busy_reserved : [0x00048#17, 0x01C00#17, 0x1FFFC#17, 0x12900#17].all (fun a =>
    busRead .word a (busyWith 0#32 []) == (0#32, busyWith 0#32 []) &&
      busWrite .word a 5#32 (busyWith 0#32 []) == busyWith 0#32 []) = true := by decide

theorem test_soft_reset_keeps_memory :
    busWrite .word 0x00008#17 3#32 (given { Csr.reset with ie := true, version := 2#3 } [(0x1000, 0x7#8)])
      = given Csr.reset [(0x1000, 0x7#8)] := by decide

-- The interrupt output rises with a completion when IE = 1 (R39).
theorem test_irq : executed .nop (given { Csr.reset with ie := true } []) State.irq = true := by decide

-- P1's acknowledgement: W1C of DONE and ERR clears ERR_CODE.
theorem test_acknowledge :
    (acknowledge 0x6#32 (State.reset.afterError 0x41#8)).status = Status.reset := by decide

-- E5, the five rows.
theorem test_merge_overwrite :
    mergeGrid false [[.dark, .unset], [.unset, .unset]] [[.light, .unset], [.unset, .unset]]
      = .error .collision ∧
    mergeGrid false [[.unset, .dark], [.light, .unset]] [[.light, .unset], [.unset, .unset]]
      = .error .bothNull ∧
    mergeGrid true [[.unset, .dark], [.light, .unset]] [[.light, .unset], [.unset, .unset]]
      = .ok [[.light, .dark], [.light, .unset]] ∧
    mergeGrid false [[.unset, .dark], [.light, .unset]] [[.light, .unset], [.unset, .dark]]
      = .ok [[.light, .dark], [.light, .dark]] ∧
    overwriteGrid [[.dark, .dark], [.light, .unset]] [[.light, .unset], [.unset, .dark]]
      = [[.light, .dark], [.light, .dark]] := by decide

-- R11, R159: a tile at row −1, column 0 of a 2 × 2 grid covers its last row.
theorem test_place_tile : placeTile [[.dark, .dark]] [[.unset, .light], [.unset, .unset]] (-1) 0
    = [[.unset, .light], [.dark, .dark]] := by decide

-- The checks of V-E2E-1 on the format copies and the dark module of Pat(2, 0x6976).
theorem test_pattern : (List.range 6).map (patternAt 2 0x6976 8)
      = [.dark, .dark, .light, .dark, .light, .light] ∧ patternAt 2 0x6976 17 8 = .dark := by decide

-- P1's first line: the Host's write of CMD issues the command (R25).
theorem test_host_issue : (match step { State.reset with prog := cmd (.gfMul 0x53#8 0xCA#8) } with
    | .next t => t.status.busy && t.csr.cmd == 0x00CA5302#32 && t.prog == [.wait]
    | .fault _ | .refused _ => false) = true := by decide

-- R73, R258: `waitIrq` goes on with IE = 1 and DONE = 1, stays where either is 0, and makes no access.
theorem test_host_wait_irq :
    hostTurn { (given { Csr.reset with ie := true } []).afterSuccess with prog := [.waitIrq, .wait] }
      = { (given { Csr.reset with ie := true } []).afterSuccess with prog := [.wait] } ∧
    hostTurn { State.reset.afterSuccess with prog := [.waitIrq] } = { State.reset.afterSuccess with prog := [.waitIrq] } ∧
    hostTurn { given { Csr.reset with ie := true } [] with prog := [.waitIrq] }
      = { given { Csr.reset with ie := true } [] with prog := [.waitIrq] } := by decide

/-! ### States and operands that meet the hypotheses of the statements

Each theorem names its statement and shows values, at the edges of their ranges, that meet the hypotheses of
every clause together. -/

-- The opcode hypotheses of the command statements: a word of each opcode, with and without reserved bits set.
theorem witness_command_words :
    ([(0x00000000#32, 0x00#8), (0xFFFFFF00#32, 0x00#8), (0x00CA5301#32, 0x01#8), (0xFF000001#32, 0x01#8),
      (0x00CA5302#32, 0x02#8), (0x01000002#32, 0x02#8), (0x0000FF03#32, 0x03#8), (0x00010003#32, 0x03#8)] ++
     [(0x0000FF04#32, 0x04#8), (0x80000004#32, 0x04#8), (0xFFFFFF10#32, 0x10#8), (0x00001F20#32, 0x20#8),
      (0x00002020#32, 0x20#8), (0x00000030#32, 0x30#8), (0x00000130#32, 0x30#8), (0x00000031#32, 0x31#8)] ++
     [(0x80000031#32, 0x31#8), (0x00000040#32, 0x40#8), (0x00000140#32, 0x40#8), (0x00000050#32, 0x50#8),
      (0x00010050#32, 0x50#8), (0x00000760#32, 0x60#8), (0x00000860#32, 0x60#8)]).all
      (fun p => field p.1 0 8 == p.2) = true := by decide

theorem witness_GfLogCommand : (0x01#8 : Byte) ≠ 0#8 ∧ (0xFF#8 : Byte) ≠ 0#8 := by decide

-- N no key; N a key and the range one past the end, or exactly to it, or empty.
theorem witness_RsEncodeCommand :
    (15#8).toNat ∉ keyList ∧ (0#8).toNat ∉ keyList ∧
    ((28#8).toNat ∈ keyList ∧ 256 < (2#8).toNat + (255#8).toNat) ∧
    ((28#8).toNat ∈ keyList ∧ (1#8).toNat + (255#8).toNat ≤ 256) ∧
    ((7#8).toNat ∈ keyList ∧ (255#8).toNat + (0#8).toNat ≤ 256) ∧
    executed (.rsEncode 255#8 0#8 7#8) State.reset (statusIs 0x2#32) = true := by decide

/-- The hypotheses of the last clause of InterleaveCommand, as a check. -/
def interleaves (s : State) : Bool :=
  decide (1 ≤ s.csr.layoutN.toNat) && decide (s.csr.layoutN.toNat ≤ 4) && blockCount s.layout != 0 &&
    layoutTotal s.layout == s.csr.dataLen.toNat && s.csr.ecTotal.toNat % blockCount s.layout == 0 &&
    keyList.contains (s.csr.ecTotal.toNat / blockCount s.layout) &&
    decide (s.csr.dataLen.toNat + s.csr.ecTotal.toNat ≤ 256)

-- LAYOUT_N at 0, 5 and 7; no block; a wrong total; a remainder; no key; 257 codewords; and 256 of them, one
-- block, four entries, no data.
theorem witness_InterleaveCommand :
    (layoutCsr 0#9 0#9 0#3 0#16 0#16).layoutN.toNat = 0 ∧ 4 < (layoutCsr 0#9 0#9 5#3 0#16 0#16).layoutN.toNat ∧
    blockCount (given (layoutCsr 0#9 7#9 4#3 0x0001#16 0x00FF#16) []).layout = 0 ∧
    layoutTotal (given (layoutCsr 5#9 14#9 1#3 0x0202#16 0#16) []).layout ≠ 5 ∧
    (layoutTotal (given (layoutCsr 4#9 15#9 1#3 0x0202#16 0#16) []).layout = 4 ∧ 15 % 2 ≠ 0) ∧
    (14 / 1 ∉ keyList ∧ layoutTotal (given (layoutCsr 4#9 14#9 1#3 0x0104#16 0#16) []).layout = 4) ∧
    (10 ∈ keyList ∧ 256 < 247 + 10 ∧
      layoutTotal (given (layoutCsr 247#9 10#9 1#3 0x01F7#16 0#16) []).layout = 247) ∧
    interleaves (given (layoutCsr 246#9 10#9 1#3 0x01F6#16 0#16) []) = true ∧
    interleaves (given (layoutCsr 0#9 14#9 1#3 0x0200#16 0#16) []) = true ∧
    interleaves (given { layoutCsr 4#9 28#9 4#3 0x0101#16 0x0101#16 with layout2 := 0x0101#16, layout3 := 0x0101#16 } [])
      = true := by decide

-- A successful INTERLEAVE from a state with ERR = 0, with two blocks and with one.
theorem witness_InterleavePermutesCodewords : unequalBlocks.status.err = false ∧
    executed .interleave unequalBlocks (fun t => !t.status.err) = true := by decide

theorem witness_InterleaveEcColumnPositions :
    executed .interleave (given (layoutCsr 246#9 10#9 1#3 0x01F6#16 0#16) []) (fun t => !t.status.err) = true ∧
    blockCount (given (layoutCsr 246#9 10#9 1#3 0x01F6#16 0#16) []).layout = 1 ∧
    blockCount unequalBlocks.layout = 2 ∧ 1 < blockCount unequalBlocks.layout ∧
    (blocksFrom 0 unequalBlocks.layout).map Prod.snd = List.replicate 1 1 ++ List.replicate 1 (1 + 1) ∧
    (blocksFrom 0 unequalBlocks.layout)[1]? = some (1, 2) ∧ 1 ≤ 1 ∧
    executed .interleave (given (layoutCsr 4#9 14#9 1#3 0x0202#16 0#16) []) (fun t => !t.status.err) = true ∧
    (blocksFrom 0 (given (layoutCsr 4#9 14#9 1#3 0x0202#16 0#16) []).layout).map Prod.snd = List.replicate 2 2 ∧
    (blocksFrom 0 (given (layoutCsr 4#9 14#9 1#3 0x0202#16 0#16) []).layout)[1]? = some (2, 2) ∧
    6 < unequalBlocks.csr.ecTotal.toNat / blockCount unequalBlocks.layout := by decide

theorem witness_BlockPartition : (blocksFrom 0 [(15, 2), (16, 2)])[3]? = some (46, 16) := by decide

-- VERSION 0 and 7; 2049 bits in versions 1 and 6; the three traversal errors; and traversals that complete.
theorem witness_PlaceCommand :
    (∀ v : BitVec 3, v = 0#3 ∨ v = 7#3 → v.toNat = 0 ∨ v.toNat = 7) ∧
    2048 < (2049#12).toNat ∧
    zigzag ((given Csr.reset [(cellAddr .ref 20 20, 0b11#8)]).vacant 21) 21 2048 (startTrav 21)
      = .error .invPlaceReserved ∧
    zigzag ((climbing 2#12).vacant 21) 21 2 (startTrav 21) = .error .invPlaceOob ∧
    zigzag ((climbing 1#12).vacant 21) 21 1 (startTrav 21) = .ok [(20, 20)] ∧
    zigzag ((standard 6 0#12).vacant 41) 41 0 (startTrav 41) = .ok [] := by decide +kernel

theorem witness_MaskCommand :
    (given { Csr.reset with version := 0#3 } []).csr.version.toNat = 0 ∧
    (given { Csr.reset with version := 7#3 } []).csr.version.toNat = 7 ∧
    1 ≤ (standard 1 0#12).csr.version.toNat ∧ (standard 6 0#12).csr.version.toNat ≤ 6 ∧
    executed (.mask 7#3) (standard 1 0#12) (statusIs 0x2#32) = true := by decide

theorem witness_MaskTwiceRestores : ∃ t, 1 ≤ (standard 6 0#12).csr.version.toNat ∧
    (standard 6 0#12).csr.version.toNat ≤ 6 ∧ exec (.mask 7#3) (standard 6 0#12) = .next t :=
  ⟨_, by decide, by decide, rfl⟩

theorem witness_field_laws : (0x01#8 : Byte) ≠ 0#8 ∧ (0xFF#8 : Byte) ≠ 0#8 ∧ 254 < 255 ∧
    expAt 254 = 0x8E#8 ∧ gfMul 0xFF#8 0xFF#8 = 0xE2#8 := by decide

-- GenRowsAreProducts, RsRemainderLength, RsRemainderLinear and RsCodewordHasGeneratorRoots: a key's row.
theorem witness_generator_rows : genRow 7 = some [0, 87, 229, 146, 149, 238, 102, 21] ∧
    (genRow 28).isSome = true ∧ 27 < 28 ∧ [0x01#8].length = [0xFF#8].length := by decide

theorem witness_PlacerNeverRevisits :
    zigzag (fun r c => decide (r < 4) && decide (c < 4)) 4 16 (startTrav 4)
      = .ok [(3, 3), (3, 2), (2, 3), (2, 2), (1, 3), (1, 2), (0, 3), (0, 2),
             (0, 1), (0, 0), (1, 1), (1, 0), (2, 1), (2, 0), (3, 1), (3, 0)] := by decide

-- StandardTraversalIsComplete: each move of R183 to R185 from a corner or an edge, and each error.
theorem witness_StandardTraversalIsComplete :
    advance (fun _ _ => true) 4 ⟨3, 3, .up, .right⟩ = .ok ⟨3, 2, .up, .left⟩ ∧
    (vacantLeftOf (fun _ _ => true) 3 3 ∧ ¬ vacantLeftOf (fun _ _ => true) 3 0) ∧
    (Dir.ahead .up 4 3 0 ∧ Dir.ahead .down 4 0 3 ∧ ¬ Dir.ahead .up 4 0 0 ∧ ¬ Dir.ahead .down 4 3 4) ∧
    advance (fun r c => r == 0 && c == 3) 4 ⟨3, 3, .up, .right⟩ = .ok ⟨0, 3, .up, .right⟩ ∧
    advance (fun r c => r == 0 && c == 2) 4 ⟨3, 3, .up, .right⟩ = .ok ⟨0, 2, .up, .left⟩ ∧
    advance (fun _ _ => false) 4 ⟨0, 0, .up, .right⟩ = .error .invPlaceOob ∧
    advance (fun _ _ => true) 4 ⟨3, 2, .up, .left⟩ = .ok ⟨2, 3, .up, .right⟩ ∧
    advance (fun _ c => c == 2) 4 ⟨2, 2, .down, .left⟩ = .ok ⟨3, 2, .down, .left⟩ ∧
    advance (fun r c => r == 0 && c == 0) 4 ⟨3, 2, .down, .left⟩ = .ok ⟨0, 0, .up, .right⟩ ∧
    advance (fun r _ => r == 3) 4 ⟨2, 2, .up, .left⟩ = .error .invPlaceExhausted ∧
    zigzag (fun r c => r == 3 && c == 3) 4 2 (startTrav 4) = .error .invPlaceOob := by
  simp only [vacantLeftOf, Dir.ahead]
  decide

theorem witness_versions : 1 ≤ 1 ∧ 6 ≤ 6 ∧ stdVacantCount 1 = 208 := by decide +kernel

/-- The cells of the standard state. -/
theorem standard_cell (v : Nat) (hv : v ≤ 6) (n : BitVec 12) {r c : Nat} (hr : r < sideOf v) (hc : c < sideOf v) :
    (standard v n).cell .ref r c = (if stdRef v r c then .light else .unset) ∧
      (standard v n).cell .data r c = .unset := by
  have hs : sideOf v ≤ 64 := by simp only [sideOf]; omega
  constructor
  · have hnone : Memory.find (gridCells .data (sideOf v) (sideOf v)
        (fun _ _ => (some QrModule.unset).map QrModule.code)) (cellAddr .ref r c) = none := by
      refine find_gridCells_none .data hs fun r' _ c' _ _ => ?_
      simp only [cellAddr, GridId.base, gridStride]
      omega
    rw [standard, State.cell, State.readByte_writeCells, hnone, State.readByte_writeCells,
      find_gridCells .ref hs hr hc]
    exact QrModule.ofCode_code _
  · rw [standard, State.cell, State.readByte_writeCells, find_gridCells .data hs hr hc]
    exact QrModule.ofCode_code .unset

theorem standard_vacant (v : Nat) (hv : v ≤ 6) (n : BitVec 12) :
    (standard v n).vacant (sideOf v) = stdVacant v := by
  funext r c
  rw [State.vacant, stdVacant]
  by_cases hr : r < sideOf v
  · by_cases hc : c < sideOf v
    · rw [(standard_cell v hv n hr hc).1]
      cases stdRef v r c <;> simp [QrModule.isUnset]
    · simp [hc]
  · simp [hr]

-- V-PL-4: one bit more than the vacant cells of version 1.
theorem witness_PlaceCommand_exhausted :
    zigzag ((standard 1 209#12).vacant 21) 21 209 (startTrav 21) = .error .invPlaceExhausted := by
  rw [show (21 : Nat) = sideOf 1 from rfl, standard_vacant 1 (by decide)]
  decide +kernel

-- PlaceOnStandardGrid for every version and every bit count; PlaceFillsExactlyTheVacantCells from it.
theorem witness_PlaceOnStandardGrid (v : Nat) (h1 : 1 ≤ v) (h6 : v ≤ 6) (n : BitVec 12) :
    (standard v n).csr.version.toNat = v ∧ (standard v n).refIsStandard v ∧
      (standard v n).dataCleared (sideOf v) ∧ (standard v n).csr.seqNbits = n := by
  refine ⟨?_, fun r hr c hc => ?_, fun r hr c hc => (standard_cell v h6 n hr hc).2, rfl⟩
  · interval_cases v <;> rfl
  · rw [(standard_cell v h6 n hr hc).1]
    cases stdRef v r c <;> simp [QrModule.isUnset]

-- The bit counts where its two clauses meet, in versions 1 and 6.
theorem witness_PlaceOnStandardGrid_counts : (208#12).toNat ≤ 208 ∧ 208 < (209#12).toNat ∧
    (1383#12).toNat ≤ 1383 ∧ 1383 < (1384#12).toNat ∧ (2048#12).toNat ≤ 2048 := by decide

theorem witness_PlaceFillsExactlyTheVacantCells : ∃ t, (standard 2 0#12).status.err = false ∧
    exec .place (standard 2 0#12) = .next t ∧ t.status.err = false :=
  ⟨_, rfl, rfl, rfl⟩

/-- A state with REF[0][0] set to `m`, of version 1 and no bits. -/
def corner (m : QrModule) : State :=
  (given { Csr.reset with version := 1#3 } []).writeByte (cellAddr .ref 0 0) m.code

theorem witness_PlaceReadsOnlyTheReservedSet : ∃ t t' : State,
    (corner .dark).csr = (corner .light).csr ∧ (corner .dark).status = (corner .light).status ∧
    (∀ i < 256, (corner .dark).entry .seq i = (corner .light).entry .seq i) ∧
    (∀ r < 41, ∀ c < 41, (corner .dark).cell .data r c = (corner .light).cell .data r c) ∧
    (∀ r < 41, ∀ c < 41, ((corner .dark).cell .ref r c).isUnset = ((corner .light).cell .ref r c).isUnset) ∧
    exec .place (corner .light) = .next t ∧ exec .place (corner .dark) = .next t' ∧
    t.status.err = false := by
  refine ⟨_, _, rfl, rfl, fun i hi => ?_, fun r hr c hc => ?_, fun r hr c hc => ?_, rfl, rfl, rfl⟩
  · have h : ¬ cellAddr .ref 0 0 = entryAddr .seq i := by
      simp only [cellAddr, entryAddr, GridId.base, BufferId.base]; omega
    rw [State.entry, State.entry, corner, corner, State.readByte_writeByte, State.readByte_writeByte,
      if_neg h, if_neg h]
  · have h : ¬ cellAddr .ref 0 0 = cellAddr .data r c := by
      simp only [cellAddr, GridId.base, gridStride]; omega
    rw [State.cell, State.cell, corner, corner, State.readByte_writeByte, State.readByte_writeByte,
      if_neg h, if_neg h]
  · rw [State.cell, State.cell, corner, corner, State.readByte_writeByte, State.readByte_writeByte]
    split <;> rfl

theorem witness_EncodeDecodeRoundTrip : decode 0x00001F20#32 = .ok (.bchEncode 3#2 7#3) ∧
    ("BCH_ENCODE", 0x00000020#32, 0xFFFFE0FF#32) ∈ opcodeMap := by decide

-- A word whose opcode is MASK's and which no row spells.
theorem witness_DecodeMatchesOpcodeMap : field 0x00000860#32 0 8 = field 0x00000060#32 0 8 ∧
    opcodeMap.all (fun row => !spells 0x00000860#32 row) = true := by decide

-- DecodeErrorOrder: an opcode outside the twelve, and one inside them with a reserved bit set.
theorem witness_DecodeErrorOrder : field 0x12345611#32 0 8 = 0x11#8 ∧ field 0x00000860#32 0 8 = 0x60#8 := by decide

theorem witness_AssemblerEncodings :
    (AsmLine.rsEncode 255 255 255).assemble.map encode = some 0xFFFFFF10#32 ∧
    (AsmLine.gfAdd 255 0).assemble.map encode = some 0x0000FF01#32 ∧ (255 < 256 ∧ 3 < 4 ∧ 7 < 8) ∧
    (256 ≤ 256 ∧ 4 ≤ 4 ∧ 8 ≤ 8) := by decide

-- A busy machine whose word decodes, with no turn set and with the Engine's turn next.
theorem witness_StepRunsDecodedCommand :
    (busyWith 0x0000FF03#32 [.engine, .host]).status.busy = true ∧
    decode (busyWith 0x0000FF03#32 []).csr.cmd = .ok (.gfExp 255#8) ∧ (busyWith 0#32 []).turns = [] := by decide

theorem witness_StepReportsDecodeErrors : (busyWith 0xFF#32 []).status.busy = true ∧
    (busyWith 0xFF#32 []).turns = [] ∧ decode (busyWith 0xFF#32 []).csr.cmd = .error .illegalOpcode ∧
    decode (busyWith 0x100#32 []).csr.cmd = .error .reservedField ∧
    (busyWith 0xFF#32 [.engine, .host]).turns = .engine :: [.host] ∧
    decode (busyWith 0x100#32 [.engine]).csr.cmd = .error .reservedField := by decide

theorem witness_CommandsWriteOnlyTheirOutputs :
    ∃ t, exec (.gfExp 1#8) State.reset = .next t ∧ t.csr.result ≠ State.reset.csr.result :=
  ⟨_, rfl, by decide⟩

-- The invariant holds in a busy state and a step is taken from it: the Engine's, the Host's and the reset.
theorem witness_EveryStepKeepsInvariant : ∃ t u v, (busyWith 0x0000FF03#32 []).inv = true ∧
    step (busyWith 0x0000FF03#32 []) = .next t ∧
    (busyWith 0#32 [.host]).inv = true ∧ step (busyWith 0#32 [.host]) = .next u ∧
    (busyWith 0#32 [.hardReset]).inv = true ∧ step (busyWith 0#32 [.hardReset]) = .next v :=
  ⟨_, _, _, by decide, rfl, by decide, rfl, by decide, rfl⟩

theorem witness_busy : (busyWith 0#32 []).status.busy = true ∧
    Turn.hardReset ∉ (busyWith 0#32 [.host, .host, .engine]).turns := by decide

theorem witness_WaitWithoutIssueNeverEnds : ({ State.reset with prog := [.wait] } : State).prog = [.wait] ∧
    ({ State.reset with prog := [.waitIrq, .wait], turns := [.hardReset, .host] } : State).prog
      = .waitIrq :: [.wait] ∧
    State.reset.status.busy = false ∧ State.reset.status.done = false := by decide

-- A read, a write, both waits and an empty program; the Host's turn set with BUSY = 1, and none set; an idle
-- turn of the Engine; a bus address at each edge of the window, inside and outside, whatever BASE is.
theorem witness_HostMovesInProgramOrder :
    ({ State.reset with prog := [rd 0x1FFFF] } : State).prog = [.read .word (.offset 0x1FFFF#17)] ∧
    ({ State.reset with prog := [wr 4 2#32] } : State).prog = [.write .word (.offset 0x00004#17) 2#32] ∧
    ({ busyWith 0#32 [.host, .engine] with prog := [.waitIrq, .wait] } : State).prog = .waitIrq :: [.wait] ∧
    (busyWith 0#32 [.host, .engine]).turns = .host :: [.engine] ∧
    (State.reset.turns = [] ∧ State.reset.status.busy = false ∧ State.reset.prog = []) ∧
    ({ State.reset with turns := [.engine] } : State).turns = .engine :: [] := by decide

theorem witness_HostMovesInProgramOrder_bus : (Config.base ≤ Config.base ∧ Config.base < Config.base + 0x20000 ∧
      (0x00000#17).toNat = Config.base - Config.base) ∧
    (Config.base ≤ Config.base + 0x1FFFF ∧ Config.base + 0x1FFFF < Config.base + 0x20000 ∧
      (0x1FFFF#17).toNat = Config.base + 0x1FFFF - Config.base) ∧
    Config.base + 0x20000 ≤ Config.base + 0x20000 := by
  refine ⟨⟨by omega, by omega, ?_⟩, ⟨by omega, by omega, ?_⟩, by omega⟩ <;> simp

theorem witness_HardResetClearsRegisters : (busyWith 0#32 [.hardReset, .host]).turns = .hardReset :: [.host] ∧
    Reg.fillCount ≠ .id ∧ 255 < 256 ∧ 40 < 41 := by decide

theorem witness_SoftResetKeepsMemories : (2#32).getLsbD 1 = true ∧ State.reset.status.busy = false ∧
    (busyWith 0#32 []).status.busy = true := by decide

theorem witness_IllegalAccessRefused : (0x00002#17).toNat % 4 ≠ 0 ∧ (0x1FFFF#17).toNat % 4 ≠ 0 ∧
    Width.byte ≠ .word ∧ Width.half ≠ .word ∧ (0x00049#17).toNat % 4 ≠ 0 ∧ slotAt 0x00048 = .reserved ∧
    (0x12901#17).toNat % 4 ≠ 0 ∧ slotAt 0x12900 = .noStorage := by decide

-- An idle state, a word with SRST = 0, and the first and last offset of each reserved range.
theorem witness_RegisterWindow : State.reset.status.busy = false ∧ (0xFFFFFFFD#32).getLsbD 1 = false := by decide

-- The first and last offset of what is no element: reserved offsets and grid slots without storage.
theorem witness_BusyAccesses_no_element :
    [0x00048, 0x00FFC, 0x01C00, 0x0FFFC, 0x100A4, 0x17FFC, 0x18000, 0x1FFFC].all (fun a : Nat => a % 4 == 0 &&
      decide (a < 0x20000) && !(decide (a < 0x048) || decide (0x1000 ≤ a ∧ a < 0x1C00) ||
        decide (0x10000 ≤ a ∧ a < 0x18000 ∧ (a - 0x10000) / 4 % 4096 / 64 < 41 ∧ a / 4 % 64 < 41)))
      = true := by decide

theorem witness_BufferWindow : State.reset.status.busy = false ∧ 255 < 256 ∧
    (BitVec.ofNat 17 (0x01800 + 4 * 255)).toNat = 0x01BFC := by decide

-- Storage at (40, 40), none at (41, 0), (0, 41) and (63, 63); the four cell codes.
theorem witness_GridWindow : (40 < 41 ∧ 63 < 64) ∧ (41 ≤ 63 ∨ 41 ≤ 0) ∧
    (5#32).extractLsb' 0 2 = 1#2 ∧ (4#32).extractLsb' 0 2 ≠ 1#2 ∧ (7#32).extractLsb' 0 2 ≠ 1#2 := by decide

-- The first and last register, entry and cell, and the two writable registers.
theorem witness_BusyAccesses : (busyWith 0#32 []).status.busy = true ∧
    (0x00044#17).toNat < 0x048 ∧ 0x10 ≤ (0x00010#17).toNat ∧
    (0x1000 ≤ (0x01BFC#17).toNat ∧ (0x01BFC#17).toNat < 0x1C00) ∧
    (0x10000 ≤ (0x168A0#17).toNat ∧ (0x168A0#17).toNat < 0x18000 ∧
      ((0x168A0#17).toNat - 0x10000) / 4 % 4096 / 64 < 41 ∧ (0x168A0#17).toNat / 4 % 64 < 41) ∧
    (2#32).getLsbD 1 = true ∧ (1#32).getLsbD 1 = false ∧ (0x0000C#17).toNat < 0x10 ∧
    ([0x00048#17, 0x00FFC#17, 0x01C00#17, 0x0FFFC#17, 0x100A4#17, 0x17FFC#17, 0x18000#17, 0x1FFFC#17] :
      List (BitVec 17)).all (fun a => a.toNat % 4 == 0 &&
        decide (¬ (a.toNat < 0x048 ∨ 0x1000 ≤ a.toNat ∧ a.toNat < 0x1C00 ∨
          0x10000 ≤ a.toNat ∧ a.toNat < 0x18000 ∧ (a.toNat - 0x10000) / 4 % 4096 / 64 < 41 ∧
            a.toNat / 4 % 64 < 41))) = true := by decide

theorem witness_IdRegisterConstant : State.reset.status.busy = false ∧
    (busyWith 0#32 []).status.busy = true := by decide

-- An issue; an acknowledgement of DONE that drops `irq`, and ERR with IE = 1 and DONE = 0, which does not raise it.
theorem witness_IssueAcknowledgeAndIrq : ∃ t, State.reset.status.busy = false ∧
    exec .nop State.reset = .next t ∧ (2#32).getLsbD 1 = true ∧
    (given { Csr.reset with ie := true } []).afterSuccess.irq = true ∧
    (acknowledge 2#32 ((given { Csr.reset with ie := true } []).afterError 0x41#8)).irq = false ∧
    (acknowledge 2#32 ((given { Csr.reset with ie := true } []).afterError 0x41#8)).status.err = true :=
  ⟨_, rfl, rfl, rfl, rfl, rfl, rfl⟩

end Sys2Proof.Tests
end

section
/-! PROOFS. The registers through the window: one law for a read and one for a write at a register's offset,
and the statements about ID, the other registers, and the issue and acknowledgement of a command. -/

namespace Sys2Proof.Machine

/-! ### A legal access, by what its offset names -/

/-- While BUSY = 0 an aligned word reads as its slot does (R62, R63, R69). -/
theorem busRead_idle {s : State} {a : BitVec 17} (ha : a.toNat % 4 = 0) (hb : s.status.busy = false) :
    busRead .word a s = (readSlot s (slotAt a.toNat), s) := by
  simp [busRead, legalAccess, ha, hb]

/-- An aligned write, by BUSY (R66). -/
theorem busWrite_word {a : BitVec 17} (ha : a.toNat % 4 = 0) (w : Word) (s : State) :
    busWrite .word a w s =
      if s.status.busy then writeSlotBusy w s (slotAt a.toNat) else writeSlot w s (slotAt a.toNat) := by
  simp [busWrite, legalAccess, ha]

/-- The window's map at the offset of a register (R61). -/
theorem slotAt_offset (r : Reg) : slotAt r.offset = .reg r := by cases r <;> decide

theorem Reg.offset_aligned (r : Reg) : r.offset % 4 = 0 := by simp [Reg.offset]

theorem busRead_reg {s : State} (hb : s.status.busy = false) (r : Reg) {a : BitVec 17}
    (ha : a.toNat = r.offset) : busRead .word a s = (readReg s r, s) := by
  rw [busRead_idle (ha ▸ r.offset_aligned) hb, ha, slotAt_offset, readSlot]

theorem busWrite_reg {s : State} (hb : s.status.busy = false) (w : Word) (r : Reg) {a : BitVec 17}
    (ha : a.toNat = r.offset) : busWrite .word a w s = writeReg w s r := by
  rw [busWrite_word (ha ▸ r.offset_aligned), hb, ha, slotAt_offset]
  rfl

theorem busWrite_reg_busy {s : State} (hb : s.status.busy = true) (w : Word) (r : Reg) {a : BitVec 17}
    (ha : a.toNat = r.offset) : busWrite .word a w s = writeSlotBusy w s (.reg r) := by
  rw [busWrite_word (ha ▸ r.offset_aligned), hb, ha, slotAt_offset]
  rfl

/-- A write to STATUS is an acknowledgement, busy or not (R23, R66). -/
theorem busWrite_status (w : Word) (s : State) : busWrite .word 0x00004#17 w s = acknowledge w s := by
  cases hb : s.status.busy
  · exact busWrite_reg hb w .status (by decide)
  · exact busWrite_reg_busy hb w .status (by decide)

/-- The reserved offsets name nothing (R37, R69). -/
theorem slotAt_reserved {a : BitVec 17} (h4 : a.toNat % 4 = 0)
    (h : 0x048 ≤ a.toNat ∧ a.toNat < 0x1000 ∨ 0x1C00 ≤ a.toNat ∧ a.toNat < 0x10000 ∨ 0x18000 ≤ a.toNat) :
    slotAt a.toNat = .reserved := by
  rcases slotAt_cases h4 a.isLt with ⟨n, -, hn, ha, -⟩ | ⟨b, i, hi, ha, -⟩ | ⟨g, r, c, hr, hc, ha, -⟩ | ⟨-, hs⟩
  · omega
  · cases b <;> simp only [entryAddr, BufferId.base] at ha <;> omega
  · cases g <;> simp only [cellAddr, GridId.base, gridStride] at ha <;> omega
  · exact hs

/-! ### The forms of register values -/

/-- The low `n` bits of a word with zeros above (R38). -/
theorem setWidth_setWidth_eq_and (n : Nat) (w : Word) :
    (w.setWidth n).setWidth 32 = w &&& BitVec.ofNat 32 (2 ^ n - 1) := by
  refine BitVec.eq_of_getLsbD_eq fun i hi => ?_
  simp only [BitVec.getLsbD_setWidth, BitVec.getLsbD_and, BitVec.getLsbD_ofNat, Nat.testBit_two_pow_sub_one, hi,
    decide_true, Bool.true_and, Bool.and_comm]

/-- An RW register of `n` bits reads back the low `n` bits written (R38). -/
theorem readBack_reg {s : State} (hb : s.status.busy = false) (w : Word) (r : Reg) (n : Nat) {a : BitVec 17}
    (ha : a.toNat = r.offset) (hidle : (writeReg w s r).status.busy = false)
    (hr : readReg (writeReg w s r) r = (w.setWidth n).setWidth 32) :
    (busRead .word a (busWrite .word a w s)).1 = w &&& BitVec.ofNat 32 (2 ^ n - 1) := by
  rw [busWrite_reg hb w r ha, busRead_reg hidle r ha, ← setWidth_setWidth_eq_and]
  exact hr

theorem toNat_append_eq_add {m n : Nat} (x : BitVec m) (y : BitVec n) :
    (x ++ y).toNat = x.toNat * 2 ^ n + y.toNat := by
  rw [BitVec.toNat_append, ← Nat.shiftLeft_add_eq_or_of_lt y.isLt, Nat.shiftLeft_eq]

/-- The places of STATUS's fields (R23). -/
theorem Status.word_eq (t : Status) : t.word = 0#16 ++ t.errCode ++ 0#4 ++ BitVec.ofBool t.herr ++
    BitVec.ofBool t.err ++ BitVec.ofBool t.done ++ BitVec.ofBool t.busy := by
  apply BitVec.eq_of_toNat_eq
  have hcode := t.errCode.isLt
  have hbusy := t.busy.toNat_le
  have hdone := t.done.toNat_le
  have herr := t.err.toNat_le
  have hherr := t.herr.toNat_le
  simp only [Status.word, BitVec.toNat_ofNat, toNat_append_eq_add, BitVec.toNat_ofBool]
  omega

/-! ### The statements -/

/-- Settles O53: the read is the constant of R22, and a write to an RO register is ignored or, while BUSY = 1,
dropped. -/
theorem idRegisterConstant : Obligations.IdRegisterConstant := by
  refine ⟨fun s => ?_, fun s w hb => ?_, fun s w hb => ?_⟩
  · have hid : slotAt 0 = .reg .id := slotAt_offset .id
    simp [busRead, legalAccess, hid, readableBusy, readSlot, readReg, idValue]
  · exact busWrite_reg hb w .id (by decide)
  · exact busWrite_reg_busy hb w .id (by decide)

/-- Settles O55, register by register. -/
theorem registerWindow : Obligations.RegisterWindow := by
  intro s w hb
  refine ⟨⟨busWrite_reg hb w .version (by decide), busWrite_reg hb w .dataLen (by decide),
    busWrite_reg hb w .ecTotal (by decide), busWrite_reg hb w .layoutN (by decide),
    busWrite_reg hb w .layout0 (by decide), busWrite_reg hb w .layout1 (by decide),
    busWrite_reg hb w .layout2 (by decide), busWrite_reg hb w .layout3 (by decide),
    busWrite_reg hb w .seqNbits (by decide)⟩, ?srst, ?readBack, ?readOnly, ?status, ?reads, ?reserved⟩
  case srst =>
    intro h
    rw [busWrite_reg hb w .ctrl (by decide), writeReg, writeCtrl, h]
    rfl
  case readBack =>
    simp only [List.forall_mem_cons, List.not_mem_nil, false_implies, implies_true, and_true]
    exact ⟨readBack_reg hb w .version 3 (by decide) hb rfl,
      readBack_reg hb w .dataLen 9 (by decide) hb rfl,
      readBack_reg hb w .ecTotal 9 (by decide) hb rfl,
      readBack_reg hb w .layoutN 3 (by decide) hb rfl,
      readBack_reg hb w .layout0 16 (by decide) hb rfl,
      readBack_reg hb w .layout1 16 (by decide) hb rfl,
      readBack_reg hb w .layout2 16 (by decide) hb rfl,
      readBack_reg hb w .layout3 16 (by decide) hb rfl,
      readBack_reg hb w .seqNbits 12 (by decide) hb rfl⟩
  case readOnly =>
    simp only [List.forall_mem_cons, List.not_mem_nil, false_implies, implies_true, and_true]
    exact ⟨busWrite_reg hb w .id (by decide), busWrite_reg hb w .result (by decide),
      busWrite_reg hb w .ecStart (by decide), busWrite_reg hb w .blocks (by decide),
      busWrite_reg hb w .ecPerBlock (by decide), busWrite_reg hb w .fillCount (by decide)⟩
  case status =>
    rw [busRead_reg hb .status (by decide), readReg, Status.word_eq]
  case reads =>
    have hie : (BitVec.ofBool s.csr.ie).setWidth 32 = readReg s .ctrl := by
      rw [readReg]
      cases s.csr.ie <;> rfl
    simp only [List.forall_mem_append, List.forall_mem_cons, List.not_mem_nil, false_implies, implies_true,
      and_true, hie]
    exact ⟨⟨busRead_reg hb .id (by decide), busRead_reg hb .ctrl (by decide),
        busRead_reg hb .cmd (by decide), busRead_reg hb .result (by decide),
        busRead_reg hb .version (by decide), busRead_reg hb .dataLen (by decide),
        busRead_reg hb .ecTotal (by decide), busRead_reg hb .layoutN (by decide)⟩,
      busRead_reg hb .layout0 (by decide), busRead_reg hb .layout1 (by decide),
      busRead_reg hb .layout2 (by decide), busRead_reg hb .layout3 (by decide),
      busRead_reg hb .seqNbits (by decide), busRead_reg hb .ecStart (by decide),
      busRead_reg hb .blocks (by decide), busRead_reg hb .ecPerBlock (by decide),
      busRead_reg hb .fillCount (by decide)⟩
  case reserved =>
    exact fun a h4 h => bus_empty h4 (.inl (slotAt_reserved h4 h)) w

end Sys2Proof.Machine
end

section
/-! PROOFS. What a command's commit is, said once: every command is a checked computation that `conclude`
completes; its commit is one list of legal cells, confined to the command's own buffers and grids, and one of
four updates of the control registers. The statements over all commands follow from that. -/

namespace Sys2Proof.Machine

/-! ### Lengths: what the computed codewords and the fill count measure -/

theorem addRow_length (lg : Nat) (g : List Nat) (rem : List Byte) : (addRow lg g rem).length = rem.length := by
  induction g generalizing rem with
  | nil => rfl
  | cons g gs ih =>
    cases rem with
    | nil => rfl
    | cons r rs => simp [addRow, ih]

theorem divideStep_length (g : List Nat) (rem : List Byte) : (divideStep g rem).length = rem.length - 1 := by
  cases rem with
  | nil => rfl
  | cons lead rest =>
    rw [divideStep]
    split_ifs <;> simp [addRow_length]

theorem divideSteps_length (g : List Nat) (k : Nat) (rem : List Byte) :
    (divideSteps g k rem).length = rem.length - k := by
  induction k generalizing rem with
  | zero => rfl
  | succ k ih =>
    rw [divideSteps, ih, divideStep_length]
    omega

/-- The remainder has as many codewords as the division was asked for (R131). -/
@[simp] theorem rsRem_length (g : List Nat) (n : Nat) (msg : List Byte) : (rsRem g n msg).length = n := by
  simp [rsRem, divideSteps_length]

theorem State.message_length_le (s : State) (off len : Nat) : (s.message off len).length ≤ len := by
  simp [State.message]

theorem blocksFrom_length (pos : Nat) (layout : List (Nat × Nat)) :
    (blocksFrom pos layout).length = blockCount layout := by
  induction layout generalizing pos with
  | nil => rfl
  | cons e es ih => simp [blocksFrom, ih, blockCount]

theorem sum_blocksFrom_lengths (pos : Nat) (layout : List (Nat × Nat)) :
    ((blocksFrom pos layout).map Prod.snd).sum = layoutTotal layout := by
  induction layout generalizing pos with
  | nil => rfl
  | cons e es ih => simp [blocksFrom, ih, layoutTotal, Function.comp_def, Nat.mul_comm]

/-- One column takes a codeword of every block that reaches it (R171). -/
theorem length_column_add (h : Nat) (blocks : List (List Byte)) :
    (blocks.map (fun b => min h b.length)).sum + (blocks.filterMap (fun b => b[h]?)).length
      = (blocks.map (fun b => min (h + 1) b.length)).sum := by
  induction blocks with
  | nil => rfl
  | cons b bs ih =>
    simp only [List.map_cons, List.sum_cons, ← ih, List.filterMap_cons]
    by_cases hb : h < b.length
    · simp only [List.getElem?_eq_getElem hb, List.length_cons]
      omega
    · simp only [List.getElem?_eq_none (Nat.le_of_not_lt hb)]
      omega

/-- The columns up to `h` take the first `h` codewords of every block. -/
theorem columns_length (h : Nat) (blocks : List (List Byte)) :
    (columns h blocks).length = (blocks.map (fun b => min h b.length)).sum := by
  induction h with
  | zero => simp [columns]
  | succ h ih =>
    rw [← length_column_add, ← ih]
    simp [columns, List.range_succ]

theorem columns_length_le (h : Nat) (blocks : List (List Byte)) :
    (columns h blocks).length ≤ (blocks.map List.length).sum := by
  rw [columns_length]
  exact List.sum_le_sum fun b _ => min_le_right h b.length

theorem slackCount_le (side : Nat) (ref data : List QrModule) (row : List (Nat × Bool)) :
    slackCount side ref data row ≤ side := by
  simpa [slackCount] using List.countP_le_length (p := slackIn ref data row) (l := List.range side)

/-! ### The cells of a commit: canonical, and confined to some buffers and grids -/

/-- Every cell of `us` is an entry of one of the buffers `bs` or a stored cell of one of the grids `gs`. -/
def Confined (bs : List BufferId) (gs : List GridId) (us : List Host.Cell) : Prop :=
  ∀ e ∈ us, (∃ b ∈ bs, ∃ i < bufEntries, e.1 = entryAddr b i) ∨
    (∃ g ∈ gs, ∃ r < maxSide, ∃ c < maxSide, e.1 = cellAddr g r c)

theorem mem_cellsFrom_base {b : BufferId} {bytes : List Byte} {e : Host.Cell}
    (h : e ∈ cellsFrom b.base bytes) : ∃ i < bytes.length, e.1 = entryAddr b i := by
  have ha := List.mem_map_of_mem (f := Prod.fst) h
  rw [cellsFrom_addresses, slotsFrom, List.mem_map] at ha
  obtain ⟨i, hi, he⟩ := ha
  exact ⟨i, List.mem_range.1 hi, he.symm⟩

theorem confined_cellsFrom {bs : List BufferId} {b : BufferId} (hb : b ∈ bs) (gs : List GridId)
    {bytes : List Byte} (h : bytes.length ≤ bufEntries) : Confined bs gs (cellsFrom b.base bytes) := by
  intro e he
  obtain ⟨i, hi, ha⟩ := mem_cellsFrom_base he
  exact .inl ⟨b, hb, i, by omega, ha⟩

theorem confined_gridCells (bs : List BufferId) (g : GridId) {rows side : Nat} (hr : rows ≤ maxSide)
    (hs : side ≤ maxSide) (f : Nat → Nat → Option Byte) : Confined bs [g] (gridCells g rows side f) := by
  intro e he
  obtain ⟨r, hr', c, hc', ha, -⟩ := mem_gridCells.1 he
  exact .inr ⟨g, by simp, r, by omega, c, by omega, ha⟩

theorem Confined.append {bs : List BufferId} {gs : List GridId} {us vs : List Host.Cell}
    (hu : Confined bs gs us) (hv : Confined bs gs vs) : Confined bs gs (us ++ vs) :=
  fun e he => (List.mem_append.1 he).elim (hu e) (hv e)

theorem wf_cellsFrom (b : BufferId) {bytes : List Byte} (h : bytes.length ≤ bufEntries) :
    Memory.wf (cellsFrom b.base bytes) = true := by
  rw [Memory.wf_iff, cellsFrom_addresses]
  refine ⟨slotsFrom_rising _ _, fun e he => ?_⟩
  obtain ⟨i, hi, ha⟩ := mem_cellsFrom_base he
  rw [show e = (entryAddr b i, e.2) from Prod.ext ha rfl]
  exact legal_entry b (by omega) e.2

theorem Memory.wf_append {us vs : List Host.Cell} (hu : Memory.wf us = true) (hv : Memory.wf vs = true)
    (h : ∀ u ∈ us, ∀ v ∈ vs, u.1 < v.1) : Memory.wf (us ++ vs) = true := by
  rw [Memory.wf_iff] at *
  obtain ⟨hup, hul⟩ := hu
  obtain ⟨hvp, hvl⟩ := hv
  refine ⟨?_, fun e he => (List.mem_append.1 he).elim (hul e) (hvl e)⟩
  rw [List.map_append, List.pairwise_append]
  exact ⟨hup, hvp, by simpa [List.forall_mem_map] using h⟩

/-- INTERLEAVE's cells: EC_OUT's run lies below SEQ's (R62, R171). -/
theorem wf_ecOut_append_seq {ec sq : List Byte} (hec : ec.length ≤ bufEntries) (hsq : sq.length ≤ bufEntries) :
    Memory.wf (cellsFrom (BufferId.base .ecOut) ec ++ cellsFrom (BufferId.base .seq) sq) = true := by
  refine Memory.wf_append (wf_cellsFrom _ hec) (wf_cellsFrom _ hsq) fun u hu v hv => ?_
  obtain ⟨i, hi, hui⟩ := mem_cellsFrom_base hu
  obtain ⟨j, -, hvj⟩ := mem_cellsFrom_base hv
  simp only [hui, hvj, entryAddr, BufferId.base, bufEntries] at *
  omega

/-- A byte that a commit lists nowhere is as it was. -/
theorem readByte_writeCells_of_not_mem {us : List Host.Cell} (hus : Memory.wf us = true) (s : State) {a : Nat}
    (h : ∀ e ∈ us, e.1 ≠ a) : (s.writeCells us).readByte a = s.readByte a := by
  rw [State.readByte_writeCells,
    (Memory.find_eq_none_iff ((Memory.wf_iff us).1 hus).1 a).2 fun b hb => h (a, b) hb rfl, Option.getD_none]

theorem entryAddr_ne_entryAddr {b b' : BufferId} (h : b ≠ b') {i j : Nat} (hi : i < bufEntries)
    (hj : j < bufEntries) : entryAddr b i ≠ entryAddr b' j := by
  simp only [bufEntries] at hi hj
  cases b <;> cases b' <;> simp only [entryAddr, BufferId.base, ne_eq, not_true_eq_false] at * <;> omega

theorem cellAddr_ne_cellAddr {g g' : GridId} (h : g ≠ g') {r c r' c' : Nat} (hr : r < maxSide) (hc : c < maxSide)
    (hr' : r' < maxSide) (hc' : c' < maxSide) : cellAddr g r c ≠ cellAddr g' r' c' := by
  simp only [maxSide] at hr hc hr' hc'
  cases g <;> cases g' <;> simp only [cellAddr, GridId.base, gridStride, ne_eq, not_true_eq_false] at * <;> omega

theorem entryAddr_ne_cellAddr (b : BufferId) (g : GridId) {i : Nat} (hi : i < bufEntries) (r c : Nat) :
    entryAddr b i ≠ cellAddr g r c := by
  simp only [bufEntries] at hi
  cases b <;> cases g <;> simp only [entryAddr, cellAddr, BufferId.base, GridId.base] <;> omega

theorem Confined.entry_ne {bs : List BufferId} {gs : List GridId} {us : List Host.Cell} (h : Confined bs gs us)
    {b : BufferId} (hb : b ∉ bs) {k : Nat} (hk : k < bufEntries) : ∀ e ∈ us, e.1 ≠ entryAddr b k := by
  intro e he
  rcases h e he with ⟨b', hb', i, hi, ha⟩ | ⟨g, -, r, -, c, -, ha⟩
  · exact ha ▸ entryAddr_ne_entryAddr (ne_of_mem_of_not_mem hb' hb) hi hk
  · exact ha ▸ (entryAddr_ne_cellAddr b g hk r c).symm

theorem Confined.cell_ne {bs : List BufferId} {gs : List GridId} {us : List Host.Cell} (h : Confined bs gs us)
    {g : GridId} (hg : g ∉ gs) {r c : Nat} (hr : r < maxSide) (hc : c < maxSide) :
    ∀ e ∈ us, e.1 ≠ cellAddr g r c := by
  intro e he
  rcases h e he with ⟨b, -, i, hi, ha⟩ | ⟨g', hg', r', hr', c', hc', ha⟩
  · exact ha ▸ entryAddr_ne_cellAddr b g hi r c
  · exact ha ▸ cellAddr_ne_cellAddr (ne_of_mem_of_not_mem hg' hg) hr' hc' hr hc

/-! ### A command as a checked computation -/

/-- What a command computes: the state it commits, or its first error (R223, R224). -/
def commandResult (i : Instr) (s : State) : Except CmdError State :=
  match i with
  | .nop => .ok s
  | .gfAdd a b => .ok (s.setResult ((gfAdd a b).setWidth 16))
  | .gfMul a b => .ok (s.setResult ((gfMul a b).setWidth 16))
  | .gfExp a => .ok (s.setResult ((gfExp a.toNat).setWidth 16))
  | .gfLog a => if a = 0#8 then .error .invLogZero else .ok (s.setResult (BitVec.ofNat 16 (logAt a)))
  | .rsEncode off len n => rsEncodeResult off len n s
  | .bchEncode ecl maskId =>
    .ok (s.setResult (BitVec.ofNat 16 (formatWord (8 * ecl.toNat + maskId.toNat))))
  | .clearRef => .ok (s.clearGrid .ref)
  | .clearData => .ok (s.clearGrid .data)
  | .interleave => interleaveResult s
  | .place => placeResult s
  | .mask k => maskResult k.toNat s

theorem exec_eq_conclude (i : Instr) (s : State) : exec i s = conclude s (commandResult i s) := by
  cases i <;> rfl

/-- The buffers a command writes (R40). -/
def outBuffers : Instr → List BufferId
  | .rsEncode _ _ _ => [.ecOut]
  | .interleave => [.ecOut, .seq]
  | .nop | .gfAdd _ _ | .gfMul _ _ | .gfExp _ | .gfLog _ | .bchEncode _ _ => []
  | .clearRef | .clearData | .place | .mask _ => []

/-- The grids a command writes (R41). -/
def outGrids : Instr → List GridId
  | .clearRef => [.ref]
  | .clearData | .place | .mask _ => [.data]
  | .nop | .gfAdd _ _ | .gfMul _ _ | .gfExp _ | .gfLog _ | .bchEncode _ _ => []
  | .rsEncode _ _ _ | .interleave => []

/-- The mnemonics of the commands whose output is RESULT (R26). -/
def scalarMnemonics : List String := ["GF_ADD", "GF_MUL", "GF_EXP", "GF_LOG", "BCH_ENCODE"]

/-- What a command's commit does to the control registers: nothing, a 15-bit RESULT (R26), INTERLEAVE's four
registers for a sequence that fits SEQ (R32 to R35), or FILL_COUNT (R36). -/
inductive CsrCommit (c : Csr) : Instr → Csr → Prop
  | keep {i : Instr} : CsrCommit c i c
  | result {i : Instr} {v : BitVec 16} (hi : mnemonic i ∈ scalarMnemonics) (hv : v.getLsbD 15 = false) :
      CsrCommit c i { c with result := v }
  | interleave {len count e : Nat} (n : BitVec 12) (he : e ∈ keys) (hfit : len + count * e ≤ bufEntries) :
      CsrCommit c .interleave { c with
        seqNbits := n
        ecStart := BitVec.ofNat 12 (8 * len)
        blocks := BitVec.ofNat 10 count
        ecPerBlock := BitVec.ofNat 8 e }
  | fill {n : Nat} (hn : n ≤ maxSide * maxSide) : CsrCommit c .place { c with fillCount := BitVec.ofNat 11 n }

/-- The state `u` is `s` with the outputs of command `i` committed. -/
def Commits (i : Instr) (s u : State) : Prop :=
  ∃ us c, u = { s.writeCells us with csr := c } ∧ Memory.wf us = true ∧
    Confined (outBuffers i) (outGrids i) us ∧ CsrCommit s.csr i c

theorem commits_self (i : Instr) (s : State) : Commits i s s :=
  ⟨[], s.csr, rfl, rfl, by simp [Confined], .keep⟩

theorem commits_writeCells {i : Instr} (s : State) {us : List Host.Cell} (hwf : Memory.wf us = true)
    (hus : Confined (outBuffers i) (outGrids i) us) : Commits i s (s.writeCells us) :=
  ⟨us, s.csr, rfl, hwf, hus, .keep⟩

theorem commits_setResult {i : Instr} (hi : mnemonic i ∈ scalarMnemonics) (s : State) {v : BitVec 16}
    (hv : v.getLsbD 15 = false) : Commits i s (s.setResult v) :=
  ⟨[], _, rfl, rfl, by simp [Confined], .result hi hv⟩

theorem commits_gridCells {i : Instr} {g : GridId} (hi : outGrids i = [g]) (s : State) {side : Nat}
    (h : side ≤ maxSide) (f : Nat → Nat → Option QrModule) :
    Commits i s (s.writeCells (gridCells g side side (fun r c => (f r c).map QrModule.code))) :=
  commits_writeCells s (gridCells_wf g h h f) (hi ▸ confined_gridCells _ g h h _)

theorem byte_getLsbD_15 (b : Byte) : (b.setWidth 16).getLsbD 15 = false := by
  simp

theorem logAt_lt (a : Byte) : logAt a < 256 := by
  have h : ∀ x ∈ logTable, x < 256 := by
    simp only [logTable, List.forall_mem_append]
    decide
  rw [logAt, List.getD_eq_getElem?_getD]
  cases hx : logTable[a.toNat]? with
  | none => decide
  | some x => exact h x (List.mem_of_getElem? hx)

theorem formatWord_lt {m : Nat} (h : m < 32) : formatWord m < 2 ^ 15 := by
  have all : ∀ m < 32, formatWord m < 2 ^ 15 := by decide
  exact all m h

theorem ofNat_getLsbD_15 {n : Nat} (h : n < 2 ^ 15) : (BitVec.ofNat 16 n).getLsbD 15 = false := by
  simp only [BitVec.getLsbD_ofNat, Nat.testBit_lt_two_pow h, Bool.and_false]

theorem sideOf_le {v : Nat} (h : v ≤ 6) : sideOf v ≤ maxSide := by
  simp only [sideOf, maxSide]
  omega

theorem mem_keys_of_genRow {n : Nat} {g : List Nat} (h : genRow n = some g) : n ∈ keys :=
  List.mem_map_of_mem (f := Prod.fst) (genRow_mem h)

/-- The largest key is 28 (R6, R130). -/
theorem keys_lt : ∀ n ∈ keys, n < 32 := by decide

theorem commits_rsEncode {off len n : Byte} {s u : State} (h : rsEncodeResult off len n s = .ok u) :
    Commits (.rsEncode off len n) s u := by
  obtain ⟨g, hg, -, rfl⟩ := rsEncodeResult_ok h
  have hn := keys_lt _ (mem_keys_of_genRow hg)
  have hlen : (rsRem g n.toNat (s.message off.toNat len.toNat)).length ≤ bufEntries := by
    rw [rsRem_length, bufEntries]
    omega
  exact commits_writeCells s (wf_cellsFrom .ecOut hlen)
    (confined_cellsFrom (b := .ecOut) (List.mem_singleton_self _) _ hlen)

theorem commits_interleave {s u : State} (h : interleaveResult s = .ok u) : Commits .interleave s u := by
  obtain ⟨g, hg, -, -, -, htotal, hdiv, hfit, rfl⟩ := interleaveResult_ok h
  generalize hcount : blockCount s.layout = count at *
  generalize he : s.csr.ecTotal.toNat / count = e at *
  generalize hdata : (blocksFrom 0 s.layout).map (fun b => s.message b.1 b.2) = data
  have hecTotal : count * e = s.csr.ecTotal.toNat := he ▸ Nat.mul_div_cancel' (Nat.dvd_of_mod_eq_zero hdiv)
  have hdataLength : (data.map List.length).sum ≤ s.csr.dataLen.toNat := by
    rw [← hdata, ← htotal, ← sum_blocksFrom_lengths 0, List.map_map]
    exact List.sum_le_sum fun b _ => State.message_length_le s b.1 b.2
  have hecLength : ((data.map (rsRem g e)).map List.length).sum = count * e := by
    simp [← hdata, Function.comp_def, blocksFrom_length, hcount]
  have hec : (data.map (rsRem g e)).flatten.length ≤ bufEntries := by
    rw [List.length_flatten, hecLength]
    omega
  have hseq : (columns (tallest data) data ++ columns e (data.map (rsRem g e))).length ≤ bufEntries := by
    have h1 := columns_length_le (tallest data) data
    have h2 := columns_length_le e (data.map (rsRem g e))
    rw [List.length_append]
    omega
  exact ⟨_, _, rfl, wf_ecOut_append_seq hec hseq,
    (confined_cellsFrom (b := .ecOut) (by decide) _ hec).append
      (confined_cellsFrom (b := .seq) (by decide) _ hseq),
    .interleave _ (mem_keys_of_genRow hg) (hecTotal ▸ hfit)⟩

theorem commits_place {s u : State} (h : placeResult s = .ok u) : Commits .place s u := by
  obtain ⟨cells, -, hv, -, -, rfl⟩ := placeResult_ok h
  have hside := sideOf_le hv
  rw [placeCommit, placeCells_eq s _ hside]
  refine ⟨_, _, rfl, gridCells_wf .data hside hside _, confined_gridCells _ .data hside hside _, .fill ?_⟩
  refine le_trans (List.sum_le_card_nsmul _ (sideOf s.csr.version.toNat) ?_) ?_
  · simpa using fun r _ => slackCount_le _ _ _ _
  · simpa using Nat.mul_le_mul hside hside

theorem commits_mask {k : BitVec 3} {s u : State} (h : maskResult k.toNat s = .ok u) :
    Commits (.mask k) s u := by
  obtain ⟨-, hv, rfl⟩ := maskResult_ok h
  rw [maskCells_eq s k.toNat (sideOf_le hv)]
  exact commits_gridCells rfl s (sideOf_le hv) _

theorem commits_clearGrid {i : Instr} {g : GridId} (hi : outGrids i = [g]) (s : State) :
    Commits i s (s.clearGrid g) := by
  rw [clearGrid_eq]
  exact commits_gridCells hi s le_rfl _

/-- THE law of commands: what any command computes without an error is a commit of its own outputs. -/
theorem commits_of_commandResult {i : Instr} {s u : State} (h : commandResult i s = .ok u) : Commits i s u := by
  cases i with
  | nop => exact Except.ok.inj h ▸ commits_self _ s
  | gfAdd a b =>
    exact Except.ok.inj h ▸ commits_setResult (by simp [scalarMnemonics, mnemonic]) s (byte_getLsbD_15 _)
  | gfMul a b =>
    exact Except.ok.inj h ▸ commits_setResult (by simp [scalarMnemonics, mnemonic]) s (byte_getLsbD_15 _)
  | gfExp a =>
    exact Except.ok.inj h ▸ commits_setResult (by simp [scalarMnemonics, mnemonic]) s (byte_getLsbD_15 _)
  | gfLog a =>
    rw [commandResult] at h
    split at h
    · cases h
    · have hlt := logAt_lt a
      exact Except.ok.inj h ▸ commits_setResult (by simp [scalarMnemonics, mnemonic]) s
        (ofNat_getLsbD_15 (by omega))
  | rsEncode off len n => exact commits_rsEncode h
  | bchEncode ecl maskId =>
    exact Except.ok.inj h ▸ commits_setResult (by simp [scalarMnemonics, mnemonic]) s
      (ofNat_getLsbD_15 (formatWord_lt (by omega)))
  | clearRef => exact Except.ok.inj h ▸ commits_clearGrid rfl s
  | clearData => exact Except.ok.inj h ▸ commits_clearGrid rfl s
  | interleave => exact commits_interleave h
  | place => exact commits_place h
  | mask k => exact commits_mask h

/-- What a command can do: commit its outputs and succeed, or fail and leave all but STATUS (R224). -/
theorem exec_cases {i : Instr} {s t : State} (h : exec i s = .next t) :
    (∃ u, Commits i s u ∧ t = u.afterSuccess) ∨ ∃ e : CmdError, t = s.afterError e.code := by
  rw [exec_eq_conclude] at h
  rcases conclude_cases h with ⟨u, hu, ht⟩ | ⟨e, -, ht⟩
  · exact .inl ⟨u, commits_of_commandResult hu, ht⟩
  · exact .inr ⟨e, ht⟩

/-! ### What a commit leaves -/

theorem Commits.entry_eq {i : Instr} {s u : State} (h : Commits i s u) {b : BufferId} (hb : b ∉ outBuffers i)
    {k : Nat} (hk : k < bufEntries) : u.entry b k = s.entry b k := by
  obtain ⟨us, c, rfl, hwf, hus, -⟩ := h
  exact readByte_writeCells_of_not_mem hwf s (hus.entry_ne hb hk)

theorem Commits.cell_eq {i : Instr} {s u : State} (h : Commits i s u) {g : GridId} (hg : g ∉ outGrids i)
    {r c : Nat} (hr : r < maxSide) (hc : c < maxSide) : u.cell g r c = s.cell g r c := by
  obtain ⟨us, csr, rfl, hwf, hus, -⟩ := h
  exact congrArg QrModule.ofCode (readByte_writeCells_of_not_mem hwf s (hus.cell_ne hg hr hc))

/-- A command that changed an entry is one that writes the buffer. -/
theorem Commits.mem_outBuffers {i : Instr} {s u : State} (h : Commits i s u) {b : BufferId} {k : Nat}
    (hk : k < bufEntries) (hne : u.entry b k ≠ s.entry b k) : b ∈ outBuffers i :=
  not_not.1 fun hb => hne (h.entry_eq hb hk)

/-- A command that changed a cell is one that writes the grid. -/
theorem Commits.mem_outGrids {i : Instr} {s u : State} (h : Commits i s u) {g : GridId} {r c : Nat}
    (hr : r < maxSide) (hc : c < maxSide) (hne : u.cell g r c ≠ s.cell g r c) : g ∈ outGrids i :=
  not_not.1 fun hg => hne (h.cell_eq hg hr hc)

theorem dataIn_not_mem_outBuffers (i : Instr) : .dataIn ∉ outBuffers i := by
  cases i <;> simp [outBuffers]

theorem mnemonic_of_ecOut_mem {i : Instr} (h : .ecOut ∈ outBuffers i) :
    mnemonic i ∈ ["RS_ENCODE", "INTERLEAVE"] := by
  cases i <;> simp [outBuffers, mnemonic] at h ⊢

theorem eq_interleave_of_seq_mem {i : Instr} (h : .seq ∈ outBuffers i) : i = .interleave := by
  cases i <;> simp [outBuffers] at h ⊢

theorem eq_clearRef_of_ref_mem {i : Instr} (h : .ref ∈ outGrids i) : i = .clearRef := by
  cases i <;> simp [outGrids] at h ⊢

theorem mnemonic_of_data_mem {i : Instr} (h : .data ∈ outGrids i) :
    mnemonic i ∈ ["PLACE", "MASK", "CLEAR_DATA"] := by
  cases i <;> simp [outGrids, mnemonic] at h ⊢

/-- Which registers each of the four updates leaves (R24 to R36). -/
theorem CsrCommit.registers {i : Instr} {c d : Csr} (h : CsrCommit c i d) :
    { d with
      result := c.result
      seqNbits := c.seqNbits
      ecStart := c.ecStart
      blocks := c.blocks
      ecPerBlock := c.ecPerBlock
      fillCount := c.fillCount } = c ∧
    (d.result ≠ c.result → mnemonic i ∈ scalarMnemonics) ∧
    (d.seqNbits ≠ c.seqNbits ∨ d.ecStart ≠ c.ecStart ∨ d.blocks ≠ c.blocks ∨ d.ecPerBlock ≠ c.ecPerBlock →
      i = .interleave) ∧
    (d.fillCount ≠ c.fillCount → i = .place) := by
  cases h with
  | keep => simp
  | result hi hv => simp [hi]
  | interleave n he hfit => simp
  | fill hn => simp

theorem CsrCommit.ie_eq {i : Instr} {c d : Csr} (h : CsrCommit c i d) : d.ie = c.ie := by
  cases h <;> rfl

/-- A completed command raises `irq` exactly when IE = 1 (R39). -/
theorem irq_of_exec {i : Instr} {s t : State} (h : exec i s = .next t) : t.irq = s.csr.ie := by
  rcases exec_cases h with ⟨u, ⟨us, c, rfl, -, -, hc⟩, rfl⟩ | ⟨e, rfl⟩
  · simp [State.irq, hc.ie_eq]
  · simp [State.irq]

/-- A flag that a 1 clears (R23). -/
theorem and_not_eq_ite (flag one : Bool) : (flag && !one) = if one then false else flag := by
  cases one <;> simp

/-! ### The statements -/

/-- Settles O43: a commit is confined to the command's own buffers, grids and registers, and an error leaves
all but STATUS. -/
theorem commandsWriteOnlyTheirOutputs : Obligations.CommandsWriteOnlyTheirOutputs := by
  intro i s t h
  rcases exec_cases h with ⟨u, hu, rfl⟩ | ⟨e, rfl⟩
  · have hmem := hu
    obtain ⟨us, c, rfl, -, -, hc⟩ := hu
    obtain ⟨hconfig, hresult, hsequence, hfill⟩ := hc.registers
    exact ⟨rfl, rfl, rfl, rfl, rfl, rfl, hconfig, hresult, hsequence, hfill,
      fun k hk => hmem.entry_eq (dataIn_not_mem_outBuffers i) hk,
      fun k hk hne => mnemonic_of_ecOut_mem (hmem.mem_outBuffers hk hne),
      fun k hk hne => eq_interleave_of_seq_mem (hmem.mem_outBuffers hk hne),
      fun r hr c hc hne => eq_clearRef_of_ref_mem (hmem.mem_outGrids hr hc hne),
      fun r hr c hc hne => mnemonic_of_data_mem (hmem.mem_outGrids hr hc hne)⟩
  · have hentry (b : BufferId) (k : Nat) : (s.afterError e.code).entry b k = s.entry b k := rfl
    have hcell (g : GridId) (r c : Nat) : (s.afterError e.code).cell g r c = s.cell g r c := rfl
    simp [hentry, hcell]

/-- Settles O59: the issue and the acknowledgement by the register's write, a completion by what a command can
do. -/
theorem issueAcknowledgeAndIrq : Obligations.IssueAcknowledgeAndIrq := by
  refine ⟨fun s => rfl, fun s w hb => ?issue, fun s w => ?acknowledge, fun i s t h => irq_of_exec h⟩
  case issue =>
    have hw : busWrite .word 0x0000C#17 w s = issue w s := busWrite_reg hb w .cmd (by decide)
    rw [hw]
    exact ⟨rfl, by simp [State.irq]⟩
  case acknowledge =>
    rw [busWrite_status]
    refine ⟨?_, fun h => by simp [State.irq, h]⟩
    simp only [acknowledge, Status.writeOneToClear, and_not_eq_ite]

end Sys2Proof.Machine
end

section
/-! PROOFS. The invariant of the machine, update by update: every write to STATUS keeps its form, every commit
keeps the result registers' bounds and the memory's canonical form, and so does every move of an agent. -/

namespace Sys2Proof.Machine

/-! ### STATUS -/

theorem Status.inv_iff (t : Status) : t.inv = true ↔
    (t.busy = true → t.done = false ∧ t.err = false) ∧ (t.err = true ↔ t.errCode ≠ 0x00#8) ∧
      t.errCode ∈ legalErrCodes := by
  obtain ⟨busy, done, err, herr, errCode⟩ := t
  cases busy <;> cases done <;> cases err <;> simp [Status.inv]

theorem Status.inv_reset : Status.reset.inv = true := by decide

theorem Status.inv_issued (t : Status) : t.issued.inv = true := rfl

theorem Status.inv_succeeded {t : Status} (h : t.inv = true) : t.succeeded.inv = true := by
  obtain ⟨-, hcode, hlegal⟩ := t.inv_iff.1 h
  exact (Status.inv_iff _).2 ⟨by simp, hcode, hlegal⟩

theorem Status.inv_failed (t : Status) (e : CmdError) : (t.failed e).inv = true := by
  cases e <;> rfl

theorem Status.inv_writeOneToClear {t : Status} (h : t.inv = true) (w : Word) :
    (t.writeOneToClear w).inv = true := by
  obtain ⟨hbusy, hcode, hlegal⟩ := t.inv_iff.1 h
  rw [Status.inv_iff]
  refine ⟨fun hb => ?_, ?_⟩
  · obtain ⟨hdone, herr⟩ := hbusy hb
    simp [hdone, herr]
  · cases hw : w.getLsbD 2
    · simpa [-BitVec.getLsbD_eq_getElem, hw] using ⟨hcode, hlegal⟩
    · simp [-BitVec.getLsbD_eq_getElem, hw, legalErrCodes]

/-! ### The result registers -/

theorem Csr.inv_iff (c : Csr) : c.inv = true ↔
    c.result.getLsbD 15 = false ∧ c.fillCount.toNat ≤ maxSide * maxSide ∧ c.ecStart.toNat % 8 = 0 ∧
      c.ecStart.toNat + 8 * (c.blocks.toNat * c.ecPerBlock.toNat) ≤ maxBits ∧
      (c.ecPerBlock.toNat = 0 ∨ c.ecPerBlock.toNat ∈ keys) := by
  simp only [Csr.inv, Bool.and_eq_true, Bool.or_eq_true, Bool.not_eq_true', List.contains_iff_mem, beq_iff_eq,
    decide_eq_true_eq, and_assoc]

theorem Csr.inv_reset : Csr.reset.inv = true := by decide

theorem CsrCommit.inv {i : Instr} {c d : Csr} (h : CsrCommit c i d) (hc : c.inv = true) : d.inv = true := by
  obtain ⟨hresult, hfill, hstart, hfits, hkey⟩ := c.inv_iff.1 hc
  rw [Csr.inv_iff]
  cases h with
  | keep => exact ⟨hresult, hfill, hstart, hfits, hkey⟩
  | result _ hv => exact ⟨hv, hfill, hstart, hfits, hkey⟩
  | @interleave len count e _ he hfit =>
    have hlt := keys_lt e he
    have hpos : 0 < e := Nat.pos_of_ne_zero fun h0 => absurd (h0 ▸ he) (by decide)
    have hcount := Nat.le_mul_of_pos_right count hpos
    rw [bufEntries] at hfit
    have hlen' : (BitVec.ofNat 12 (8 * len)).toNat = 8 * len := Nat.mod_eq_of_lt (by omega)
    have hcount' : (BitVec.ofNat 10 count).toNat = count := Nat.mod_eq_of_lt (by omega)
    have he' : (BitVec.ofNat 8 e).toNat = e := Nat.mod_eq_of_lt (by omega)
    simp only [hlen', hcount', he', maxBits]
    exact ⟨hresult, hfill, by omega, by omega, .inr he⟩
  | @fill n hn => exact ⟨hresult, (Nat.mod_le n _).trans hn, hstart, hfits, hkey⟩

/-! ### The machine -/

theorem State.inv_iff (s : State) :
    s.inv = true ↔ s.status.inv = true ∧ s.csr.inv = true ∧ Memory.wf s.mem = true := by
  simp only [State.inv, Bool.and_eq_true, and_assoc]

theorem inv_acknowledge {s : State} (h : s.inv = true) (w : Word) : (acknowledge w s).inv = true := by
  obtain ⟨hstatus, hcsr, hmem⟩ := s.inv_iff.1 h
  exact (State.inv_iff _).2 ⟨Status.inv_writeOneToClear hstatus w, hcsr, hmem⟩

/-- The invariant reads neither HERR, nor the configuration registers, nor the Host's side: a move that changes
only those keeps it as it stands. -/
theorem inv_hostError {s : State} (h : s.inv = true) : (hostError s).inv = true := h

theorem inv_issue {s : State} (h : s.inv = true) (w : Word) : (issue w s).inv = true := by
  obtain ⟨-, hcsr, hmem⟩ := s.inv_iff.1 h
  exact (State.inv_iff _).2 ⟨Status.inv_issued _, hcsr, hmem⟩

theorem inv_softReset {s : State} (h : s.inv = true) : (softReset s).inv = true := by
  obtain ⟨-, -, hmem⟩ := s.inv_iff.1 h
  exact (State.inv_iff _).2 ⟨Status.inv_reset, Csr.inv_reset, hmem⟩

theorem inv_hardReset (s : State) : (hardReset s).inv = true :=
  (State.inv_iff _).2 ⟨Status.inv_reset, Csr.inv_reset, rfl⟩

theorem inv_writeByte {s : State} (h : s.inv = true) {a : Nat} {b : Byte} (hl : Memory.legal (a, b) = true) :
    (s.writeByte a b).inv = true := by
  obtain ⟨hstatus, hcsr, hmem⟩ := s.inv_iff.1 h
  have hcell : Memory.wf [(a, b)] = true := by simp [Memory.wf_iff, hl]
  exact (State.inv_iff _).2 ⟨hstatus, hcsr, State.wf_writeCells hcell hmem⟩

theorem inv_failed {s : State} (h : s.inv = true) (e : CmdError) : (s.afterError e.code).inv = true := by
  obtain ⟨-, hcsr, hmem⟩ := s.inv_iff.1 h
  exact (State.inv_iff _).2 ⟨Status.inv_failed s.status e, hcsr, hmem⟩

/-! ### The Engine -/

theorem inv_exec {i : Instr} {s t : State} (h : s.inv = true) (ht : exec i s = .next t) : t.inv = true := by
  rcases exec_cases ht with ⟨u, ⟨us, c, rfl, hwf, -, hc⟩, rfl⟩ | ⟨e, rfl⟩
  · obtain ⟨hstatus, hcsr, hmem⟩ := s.inv_iff.1 h
    exact (State.inv_iff _).2 ⟨Status.inv_succeeded hstatus, hc.inv hcsr, State.wf_writeCells hwf hmem⟩
  · exact inv_failed h e

theorem inv_engineTurn {s t : State} (h : s.inv = true) (ht : engineTurn s = .next t) : t.inv = true := by
  rw [engineTurn] at ht
  split at ht
  · rw [engineStep] at ht
    split at ht
    · exact inv_exec h ht
    · exact Host.Outcome.next.inj ht ▸ inv_failed h _
  · exact Host.Outcome.next.inj ht ▸ h

/-! ### The Host -/

theorem inv_writeCtrl {s : State} (h : s.inv = true) (w : Word) : (writeCtrl w s).inv = true := by
  rw [writeCtrl]
  split
  · exact inv_softReset h
  · exact h

theorem inv_writeReg {s : State} (h : s.inv = true) (w : Word) (r : Reg) : (writeReg w s r).inv = true := by
  cases r
  case status => exact inv_acknowledge h w
  case ctrl => exact inv_writeCtrl h w
  case cmd => exact inv_issue h w
  all_goals exact h

/-- A written cell code is a module's (R63). -/
theorem codeOfWord_eq_code {w : Word} {code : Byte} (h : codeOfWord w = some code) :
    ∃ m : QrModule, code = m.code := by
  rw [codeOfWord] at h
  split at h
  · exact ⟨.unset, (Option.some.inj h).symm⟩
  · exact ⟨.light, (Option.some.inj h).symm⟩
  · exact ⟨.dark, (Option.some.inj h).symm⟩
  · cases h

theorem inv_writeSlot_cell {s : State} (h : s.inv = true) (w : Word) (g : GridId) {r c : Nat} (hr : r < maxSide)
    (hc : c < maxSide) : (writeSlot w s (.cell g r c)).inv = true := by
  rw [writeSlot]
  split
  next code hcode =>
    obtain ⟨m, rfl⟩ := codeOfWord_eq_code hcode
    exact inv_writeByte h (legal_cell g hr hc m)
  next => exact inv_hostError h

/-- A write while BUSY = 0, by what its offset names. -/
theorem inv_writeSlot {s : State} (h : s.inv = true) (w : Word) {a : BitVec 17} (ha : a.toNat % 4 = 0) :
    (writeSlot w s (slotAt a.toNat)).inv = true := by
  rcases slotAt_cases ha a.isLt with ⟨-, r, -, -, -, hs⟩ | ⟨b, i, hi, -, hs⟩ | ⟨g, r, c, -, -, -, hs⟩ | ⟨-, hs⟩ <;>
    rw [hs]
  · exact inv_writeReg h w r
  · exact inv_writeByte h (legal_entry b hi _)
  · split_ifs with hrc
    · exact inv_writeSlot_cell h w g hrc.1 hrc.2
    · exact h
  · exact h

theorem inv_writeSlotBusy {s : State} (h : s.inv = true) (w : Word) (slot : Slot) :
    (writeSlotBusy w s slot).inv = true := by
  unfold writeSlotBusy
  split
  · exact inv_acknowledge h w
  · split_ifs <;> exact h
  all_goals exact h

theorem aligned_of_legalAccess {size : Width} {a : BitVec 17} (h : legalAccess size a = true) :
    a.toNat % 4 = 0 := by
  simp only [legalAccess, Bool.and_eq_true, beq_iff_eq] at h
  exact h.2

theorem inv_busWrite {s : State} (h : s.inv = true) (size : Width) (a : BitVec 17) (w : Word) :
    (busWrite size a w s).inv = true := by
  rw [busWrite]
  split
  next => exact inv_hostError h
  next hlegal =>
    split
    · exact inv_writeSlotBusy h w _
    · exact inv_writeSlot h w (aligned_of_legalAccess (by simpa using hlegal))

theorem inv_busRead {s : State} (h : s.inv = true) (size : Width) (a : BitVec 17) :
    (busRead size a s).2.inv = true := by
  rw [busRead]
  split_ifs <;> exact h

theorem inv_hostTurn {s : State} (h : s.inv = true) : (hostTurn s).inv = true := by
  have hprog (rest : List HostOp) : ({ s with prog := rest } : State).inv = true := h
  rw [hostTurn]
  split
  next => exact h
  next size target rest _ =>
    rw [accessRead]
    split
    · exact inv_busRead (hprog rest) size _
    · exact h
  next size target w rest _ =>
    rw [accessWrite]
    split
    · exact inv_busWrite (hprog rest) size _ w
    · exact h
  next => exact inv_busRead (hprog _) _ _
  next => exact h

/-- Settles O45, agent by agent: the Engine's turn by what a command can do, the Host's by what its offset
names, and the hard reset from any state. -/
theorem everyStepKeepsInvariant : Obligations.EveryStepKeepsInvariant := by
  intro s t h ht
  have hturns (ts : List Turn) : ({ s with turns := ts } : State).inv = true := h
  rw [step] at ht
  split at ht
  next ts _ => exact Host.Outcome.next.inj ht ▸ inv_hostTurn (hturns ts)
  next ts _ => exact inv_engineTurn (hturns ts) ht
  next ts _ => exact Host.Outcome.next.inj ht ▸ inv_hardReset _
  next =>
    split at ht
    · exact inv_engineTurn h ht
    · exact Host.Outcome.next.inj ht ▸ inv_hostTurn h

end Sys2Proof.Machine
end

section
/-! PROOFS. The window's memory and the moves of the agents: the laws of an access to a buffer entry and to a
grid cell, of an access while BUSY = 1, and of one move of the Host, and the statements that follow. -/

namespace Sys2Proof.Machine

/-! ### A refused access -/

/-- A narrow or misaligned access is not the legal one (R64). -/
theorem legalAccess_eq_false {size : Width} {a : BitVec 17} (h : size ≠ .word ∨ a.toNat % 4 ≠ 0) :
    legalAccess size a = false := by
  simpa only [legalAccess, Bool.and_eq_false_iff, beq_eq_false_iff_ne] using h

/-! ### An access while BUSY = 0 to a slot of memory -/

theorem entryAddr_lt (b : BufferId) {i : Nat} (hi : i < 256) : entryAddr b i < 2 ^ 17 := by
  cases b <;> simp only [entryAddr, BufferId.base] <;> omega

theorem entryAddr_aligned (b : BufferId) (i : Nat) : entryAddr b i % 4 = 0 := by
  cases b <;> simp only [entryAddr, BufferId.base] <;> omega

theorem busRead_entry {s : State} (hb : s.status.busy = false) (b : BufferId) {i : Nat} (hi : i < 256)
    {a : BitVec 17} (ha : a.toNat = entryAddr b i) : busRead .word a s = ((s.entry b i).setWidth 32, s) := by
  rw [busRead_idle (ha ▸ entryAddr_aligned b i) hb, ha, slotAt_entry b hi, readSlot]

theorem busWrite_entry {s : State} (hb : s.status.busy = false) (w : Word) (b : BufferId) {i : Nat}
    (hi : i < 256) {a : BitVec 17} (ha : a.toNat = entryAddr b i) :
    busWrite .word a w s = s.writeByte (entryAddr b i) (w.setWidth 8) := by
  rw [busWrite_word (ha ▸ entryAddr_aligned b i), hb, ha, slotAt_entry b hi]
  rfl

theorem cellAddr_lt (g : GridId) {r c : Nat} (hr : r < 64) (hc : c < 64) : cellAddr g r c < 2 ^ 17 := by
  cases g <;> simp only [cellAddr, GridId.base, gridStride] <;> omega

theorem cellAddr_aligned (g : GridId) (r c : Nat) : cellAddr g r c % 4 = 0 := by
  cases g <;> simp only [cellAddr, GridId.base] <;> omega

theorem slotAt_cell_storage (g : GridId) {r c : Nat} (hr : r < 41) (hc : c < 41) :
    slotAt (cellAddr g r c) = .cell g r c := by
  rw [slotAt_cell g (by omega) (by omega), if_pos ⟨hr, hc⟩]

theorem busRead_cell {s : State} (hb : s.status.busy = false) (g : GridId) {r c : Nat} (hr : r < 41) (hc : c < 41)
    {a : BitVec 17} (ha : a.toNat = cellAddr g r c) :
    busRead .word a s = ((s.cell g r c).code.setWidth 32, s) := by
  rw [busRead_idle (ha ▸ cellAddr_aligned g r c) hb, ha, slotAt_cell_storage g hr hc, readSlot]

theorem busWrite_cell {s : State} (hb : s.status.busy = false) (w : Word) (g : GridId) {r c : Nat} (hr : r < 41)
    (hc : c < 41) {a : BitVec 17} (ha : a.toNat = cellAddr g r c) :
    busWrite .word a w s = writeSlot w s (.cell g r c) := by
  rw [busWrite_word (ha ▸ cellAddr_aligned g r c), hb, ha, slotAt_cell_storage g hr hc]
  rfl

/-- The module that bits [1:0] of a written word encode, where they are not the illegal code 0b01 (R63). -/
def moduleOfBits (code : BitVec 2) : QrModule :=
  if code = 0#2 then .unset else if code = 2#2 then .light else .dark

theorem codeOfWord_illegal {w : Word} (h : w.extractLsb' 0 2 = 1#2) : codeOfWord w = none := by
  rw [codeOfWord, h]
  rfl

theorem codeOfWord_legal {w : Word} (h : w.extractLsb' 0 2 ≠ 1#2) :
    codeOfWord w = some (moduleOfBits (w.extractLsb' 0 2)).code := by
  rw [codeOfWord]
  generalize w.extractLsb' 0 2 = code at h
  revert code
  decide

/-- Bit 1 of a cell's word says that it is set, bit 0 that it is Dark (R63). -/
theorem QrModule.code_setWidth (m : QrModule) :
    m.code.setWidth 32 = match m with | .unset => 0#32 | .light => 2#32 | .dark => 3#32 := by
  cases m <;> rfl

theorem State.entry_writeByte (s : State) (b : BufferId) (i : Nat) (x : Byte) :
    (s.writeByte (entryAddr b i) x).entry b i = x := by
  rw [State.entry, State.readByte_writeByte, if_pos rfl]

theorem State.cell_writeByte (s : State) (g : GridId) (r c : Nat) (m : QrModule) :
    (s.writeByte (cellAddr g r c) m.code).cell g r c = m := by
  rw [State.cell, State.readByte_writeByte, if_pos rfl, QrModule.ofCode_code]

theorem State.readByte_writeByte_of_ne (s : State) {a x : Nat} (h : x ≠ a) (b : Byte) :
    (s.writeByte a b).readByte x = s.readByte x := by
  rw [State.readByte_writeByte, if_neg h.symm]

/-! ### Which offsets name a register, an entry or a cell with storage -/

/-- A slot that is a register, a buffer entry or a grid cell: what R66 speaks of. -/
def Slot.isElement : Slot → Bool
  | .reg _ | .entry _ _ | .cell _ _ _ => true
  | .noStorage | .reserved => false

theorem Slot.eq_empty_of_not_isElement {slot : Slot} (h : slot.isElement = false) :
    slot = .reserved ∨ slot = .noStorage := by
  cases slot <;> simp [Slot.isElement] at h ⊢

theorem offset_of_regList {n : Nat} {r : Reg} (h : regList[n]? = some r) : r.offset = 4 * n := by
  obtain ⟨hn, rfl⟩ := List.getElem?_eq_some_iff.1 h
  rw [Reg.offset, List.Nodup.idxOf_getElem (by decide)]

/-- The inverse of the window's map at the registers (R61). -/
theorem offset_of_slotAt_reg {a : BitVec 17} (h4 : a.toNat % 4 = 0) {r : Reg} (h : slotAt a.toNat = .reg r) :
    a.toNat = r.offset := by
  rcases slotAt_cases h4 a.isLt with ⟨n, r', -, ha, hr, hs⟩ | ⟨b, i, -, -, hs⟩ | ⟨g, r', c, -, -, -, hs⟩ | ⟨-, hs⟩
  · obtain rfl : r' = r := Slot.reg.inj (hs.symm.trans h)
    rw [ha, offset_of_regList hr]
  · cases hs.symm.trans h
  · rw [hs] at h
    split_ifs at h
  · cases hs.symm.trans h

/-- The offsets of the registers, the buffer entries and the grid cells with storage (R61 to R63). -/
theorem isElement_slotAt_iff {a : BitVec 17} (h4 : a.toNat % 4 = 0) : (slotAt a.toNat).isElement = true ↔
    (a.toNat < 0x048 ∨ 0x1000 ≤ a.toNat ∧ a.toNat < 0x1C00 ∨
      0x10000 ≤ a.toNat ∧ a.toNat < 0x18000 ∧ (a.toNat - 0x10000) / 4 % 4096 / 64 < 41 ∧
        a.toNat / 4 % 64 < 41) := by
  rcases slotAt_cases h4 a.isLt with ⟨n, r, hn, ha, -, hs⟩ | ⟨b, i, hi, ha, hs⟩ | ⟨g, r, c, hr, hc, ha, hs⟩ | ⟨ha, hs⟩
  · exact iff_of_true (hs ▸ rfl) (by omega)
  · refine iff_of_true (hs ▸ rfl) ?_
    cases b <;> simp only [entryAddr, BufferId.base] at ha <;> omega
  · have hcell : (slotAt a.toNat).isElement = true ↔ r < 41 ∧ c < 41 := by
      rw [hs]
      split_ifs with h <;> simp [Slot.isElement, h]
    rw [hcell]
    cases g <;> simp only [cellAddr, GridId.base, gridStride] at ha <;> omega
  · exact iff_of_false (by simp [hs, Slot.isElement]) (by omega)

/-! ### An access while BUSY = 1 -/

theorem readableBusy_reg_iff (r : Reg) : readableBusy (.reg r) = true ↔ r.offset < 0x10 := by
  cases r <;> decide

theorem busRead_reg_busy (s : State) {r : Reg} (hr : r.offset < 0x10) {a : BitVec 17} (ha : a.toNat = r.offset) :
    busRead .word a s = (readReg s r, s) := by
  simp [busRead, legalAccess, ha, r.offset_aligned, slotAt_offset, (readableBusy_reg_iff r).2 hr, readSlot]

/-- A read of any other element returns a free word (R66). -/
theorem busRead_busy_free {s : State} (hb : s.status.busy = true) {a : BitVec 17} (h4 : a.toNat % 4 = 0)
    (h : readableBusy (slotAt a.toNat) = false) : busRead .word a s = drawWord s := by
  simp [busRead, legalAccess, h4, hb, h]

theorem readableBusy_eq_false {slot : Slot} (h : slot.isElement = true)
    (hreg : ∀ r, slot = .reg r → 0x10 ≤ r.offset) : readableBusy slot = false := by
  cases slot with
  | reg r => exact Bool.eq_false_iff.2 (mt (readableBusy_reg_iff r).1 (Nat.not_lt.2 (hreg r rfl)))
  | entry | cell => rfl
  | noStorage | reserved => cases h

/-- CTRL takes a write only where SRST = 0 (R24, R66). -/
theorem busWrite_ctrl_busy {s : State} (hb : s.status.busy = true) (w : Word) :
    busWrite .word 0x00008#17 w s = if w.getLsbD 1 then s.afterHostError else writeIe w s :=
  busWrite_reg_busy hb w .ctrl (by decide)

/-- STATUS and CTRL apart, a write to an element is dropped and sets HERR (R66). -/
theorem writeSlotBusy_dropped (w : Word) (s : State) {slot : Slot} (h : slot.isElement = true)
    (hstatus : slot ≠ .reg .status) (hctrl : slot ≠ .reg .ctrl) : writeSlotBusy w s slot = s.afterHostError := by
  unfold writeSlotBusy
  split
  · exact absurd rfl hstatus
  · exact absurd rfl hctrl
  · rfl
  · rfl
  · rfl
  all_goals cases h

/-! ### What a move of the Host leaves while BUSY = 1 -/

/-- `t` has what the Engine's step reads of `s` (R75): BUSY, the memories, and every register but STATUS's
clearable flags and CTRL.IE. -/
structure SameInputs (s t : State) : Prop where
  busy : t.status.busy = s.status.busy
  mem : t.mem = s.mem
  epoch : t.epoch = s.epoch
  csr : { t.csr with ie := s.csr.ie } = s.csr

theorem SameInputs.refl (s : State) : SameInputs s s := ⟨rfl, rfl, rfl, rfl⟩

theorem sameInputs_hostError (s : State) : SameInputs s (hostError s) := ⟨rfl, rfl, rfl, rfl⟩

theorem sameInputs_writeSlotBusy (w : Word) (s : State) (slot : Slot) : SameInputs s (writeSlotBusy w s slot) := by
  unfold writeSlotBusy
  split
  · exact ⟨rfl, rfl, rfl, rfl⟩
  · split
    · exact sameInputs_hostError s
    · exact ⟨rfl, rfl, rfl, rfl⟩
  · exact sameInputs_hostError s
  · exact sameInputs_hostError s
  · exact sameInputs_hostError s
  all_goals exact .refl s

theorem sameInputs_busWrite {s : State} (hb : s.status.busy = true) (size : Width) (a : BitVec 17) (w : Word) :
    SameInputs s (busWrite size a w s) := by
  rw [busWrite, if_pos hb]
  split
  · exact sameInputs_hostError s
  · exact sameInputs_writeSlotBusy w s _

/-- A read can set HERR, count a free word, or change nothing (R64, R66, R67). -/
theorem busRead_snd_cases (size : Width) (a : BitVec 17) (s : State) :
    (busRead size a s).2 = hostError s ∨ (busRead size a s).2 = (drawWord s).2 ∨ (busRead size a s).2 = s := by
  rw [busRead]
  split_ifs
  · exact .inl rfl
  · exact .inr (.inl rfl)
  · exact .inr (.inr rfl)

theorem busRead_reads (size : Width) (a : BitVec 17) (s : State) : (busRead size a s).2.reads = s.reads := by
  rcases busRead_snd_cases size a s with h | h | h <;> rw [h] <;> rfl

theorem sameInputs_busRead (size : Width) (a : BitVec 17) (s : State) : SameInputs s (busRead size a s).2 := by
  rcases busRead_snd_cases size a s with h | h | h <;> rw [h] <;> exact ⟨rfl, rfl, rfl, rfl⟩

theorem sameInputs_accessRead (size : Width) (t : Target) (s : State) : SameInputs s (accessRead size t s).2 := by
  rw [accessRead]
  split
  · exact sameInputs_busRead size _ s
  · exact ⟨rfl, rfl, rfl, rfl⟩

theorem sameInputs_accessWrite {s : State} (hb : s.status.busy = true) (size : Width) (t : Target) (w : Word) :
    SameInputs s (accessWrite size t w s) := by
  rw [accessWrite]
  split
  · exact sameInputs_busWrite hb size _ w
  · exact .refl s

/-- What is left of the Host's program is no input of the Engine. -/
theorem SameInputs.of_prog {s t : State} {rest : List HostOp} (h : SameInputs { s with prog := rest } t) :
    SameInputs s t := ⟨h.busy, h.mem, h.epoch, h.csr⟩

/-- What the Host keeps of a read is no input of the Engine. -/
theorem SameInputs.keepRead {s : State} {p : Word × State} (h : SameInputs s p.2) : SameInputs s (keepRead p) :=
  ⟨h.busy, h.mem, h.epoch, h.csr⟩

theorem sameInputs_hostTurn {s : State} (hb : s.status.busy = true) : SameInputs s (hostTurn s) := by
  rw [hostTurn]
  split
  next => exact .refl s
  next size t rest _ => exact (sameInputs_accessRead size t { s with prog := rest }).of_prog.keepRead
  next size t w rest _ => exact (sameInputs_accessWrite (s := { s with prog := rest }) hb size t w).of_prog
  next rest _ => exact (sameInputs_busRead _ _ { s with prog := _ }).of_prog.keepRead
  next => exact (SameInputs.refl { s with prog := _ }).of_prog

/-! ### One move of the Host -/

theorem resolve_bus_inside {address : Nat} {a : BitVec 17} (hlo : Config.base ≤ address)
    (hhi : address < Config.base + 0x20000) (ha : a.toNat = address - Config.base) :
    (Target.bus address).resolve = some a := by
  rw [Target.resolve, if_pos ⟨hlo, hhi⟩, ← ha, BitVec.ofNat_toNat, BitVec.setWidth_eq]

theorem resolve_bus_outside {address : Nat} (h : address < Config.base ∨ Config.base + 0x20000 ≤ address) :
    (Target.bus address).resolve = none := by
  rw [Target.resolve, if_neg (by omega)]

theorem hostTurn_read {s : State} {size : Width} {t : Target} {a : BitVec 17} {rest : List HostOp}
    (h : s.prog = .read size t :: rest) (ht : t.resolve = some a) :
    hostTurn s = { (busRead size a { s with prog := rest }).2 with
      reads := (busRead size a { s with prog := rest }).1 :: s.reads } := by
  simp only [hostTurn, h, accessRead, ht, keepRead, busRead_reads]

theorem hostTurn_write {s : State} {size : Width} {t : Target} {a : BitVec 17} {w : Word} {rest : List HostOp}
    (h : s.prog = .write size t w :: rest) (ht : t.resolve = some a) :
    hostTurn s = busWrite size a w { s with prog := rest } := by
  simp only [hostTurn, h, accessWrite, ht]

/-- A read that misses the window returns a free word (R60). -/
theorem hostTurn_read_outside {s : State} {size : Width} {t : Target} {rest : List HostOp}
    (h : s.prog = .read size t :: rest) (ht : t.resolve = none) :
    hostTurn s = { s with
      prog := rest
      draws := s.draws + 1
      reads := Config.drawWord s.draws :: s.reads } := by
  simp only [hostTurn, h, accessRead, ht, keepRead, drawWord]

theorem hostTurn_write_outside {s : State} {size : Width} {t : Target} {w : Word} {rest : List HostOp}
    (h : s.prog = .write size t w :: rest) (ht : t.resolve = none) : hostTurn s = { s with prog := rest } := by
  simp only [hostTurn, h, accessWrite, ht]

theorem hostTurn_nil {s : State} (h : s.prog = []) : hostTurn s = s := by
  simp only [hostTurn, h]

/-- The Host moves when its turn is next, or when no turn is set and BUSY = 0 (R71); `u` is `s` with the turn used
up and `rest` left of the program. -/
theorem step_eq_hostTurn {s u : State} {rest : List HostOp}
    (h : s.turns = [] ∧ s.status.busy = false ∧ u = { s with prog := rest } ∨
      ∃ ts, s.turns = .host :: ts ∧ u = { s with turns := ts, prog := rest }) :
    ∃ ts, u = { s with turns := ts, prog := rest } ∧ step s = .next (hostTurn { s with turns := ts }) := by
  rcases h with ⟨hturns, hb, rfl⟩ | ⟨ts, hturns, rfl⟩
  · have hstep : step s = .next (hostTurn s) := by simp [step, hturns, hb]
    exact ⟨s.turns, rfl, hstep⟩
  · exact ⟨ts, rfl, by simp only [step, hturns]⟩

/-! ### The statements -/

/-- Settles O47, by what each operation of the Host can do. -/
theorem busyHostMovesKeepInputs : Obligations.BusyHostMovesKeepInputs := by
  intro s hb
  obtain ⟨hbusy, hmem, hepoch, hcsr⟩ := sameInputs_hostTurn hb
  exact ⟨hbusy.trans hb, hmem, hepoch, hcsr⟩

/-- Settles O56: the access is a read or a write of one byte of memory. -/
theorem bufferWindow : Obligations.BufferWindow := by
  intro s b i w hb hi base a
  have hbase : base = b.base := by cases b <;> rfl
  have haddr : base + 4 * i = entryAddr b i := by rw [hbase, entryAddr]
  have ha : a.toNat = entryAddr b i := by
    rw [BitVec.toNat_ofNat, haddr, Nat.mod_eq_of_lt (entryAddr_lt b hi)]
  rw [haddr, busWrite_entry hb w b hi ha]
  exact ⟨busRead_entry hb b hi ha, s.entry_writeByte b i _, fun x hx => s.readByte_writeByte_of_ne hx _, rfl⟩

/-- Settles O57: where the cell has storage, the access is a read or a write of its code. -/
theorem gridWindow : Obligations.GridWindow := by
  intro s g r c w hb hr hc base a
  have hbase : base = g.base := by cases g <;> rfl
  have haddr : base + 4 * (64 * r + c) = cellAddr g r c := by rw [hbase, cellAddr, gridStride]
  have ha : a.toNat = cellAddr g r c := by
    rw [BitVec.toNat_ofNat, haddr, Nat.mod_eq_of_lt (cellAddr_lt g hr hc)]
  rw [haddr]
  refine ⟨fun ⟨hr, hc⟩ => ?storage, fun h => ?noStorage⟩
  case storage =>
    rw [busWrite_cell hb w g hr hc ha, busRead_cell hb g hr hc ha, QrModule.code_setWidth, writeSlot]
    refine ⟨rfl, fun h => ?_, fun h => ?_⟩
    · rw [codeOfWord_illegal h]
      rfl
    · rw [codeOfWord_legal h]
      exact ⟨s.cell_writeByte g r c _, fun x hx => s.readByte_writeByte_of_ne hx _, rfl⟩
  case noStorage =>
    have hslot : slotAt a.toNat = .noStorage := by rw [ha, slotAt_cell g hr hc, if_neg (by omega)]
    exact bus_empty (ha ▸ cellAddr_aligned g r c) (.inr hslot) w

/-- Settles O58, by whether the offset names an element, and which register. -/
theorem busyAccesses : Obligations.BusyAccesses := by
  intro s a w hb h4 element
  have helement : (slotAt a.toNat).isElement = true ↔ element := isElement_slotAt_iff h4
  refine ⟨?status, ?ctrl, ?softReset, ?dropped, ?readable, ?free, ?empty⟩
  case status =>
    rintro rfl
    exact busWrite_status w s
  case ctrl =>
    rintro rfl hsrst
    rw [busWrite_ctrl_busy hb, hsrst]
    rfl
  case softReset =>
    rintro rfl hsrst
    rw [busWrite_ctrl_busy hb, hsrst, if_pos rfl]
  case dropped =>
    intro h hstatus hctrl
    rw [busWrite_word h4, if_pos hb]
    exact writeSlotBusy_dropped w s (helement.2 h)
      (fun hs => hstatus (BitVec.eq_of_toNat_eq (offset_of_slotAt_reg h4 hs)))
      (fun hs => hctrl (BitVec.eq_of_toNat_eq (offset_of_slotAt_reg h4 hs)))
  case readable =>
    intro h
    obtain ha | ha | ha | ha : a.toNat = 0 ∨ a.toNat = 4 ∨ a.toNat = 8 ∨ a.toNat = 12 := by omega
    · rw [busRead_reg_busy s (r := .id) (by decide) ha, ha]
      rfl
    · rw [busRead_reg_busy s (r := .status) (by decide) ha, ha]
      rfl
    · rw [busRead_reg_busy s (r := .ctrl) (by decide) ha, ha]
      rfl
    · rw [busRead_reg_busy s (r := .cmd) (by decide) ha, ha]
      rfl
  case free =>
    intro h hge
    exact busRead_busy_free hb h4
      (readableBusy_eq_false (helement.2 h) fun r hs => offset_of_slotAt_reg h4 hs ▸ hge)
  case empty =>
    intro h
    exact bus_empty h4 (Slot.eq_empty_of_not_isElement (Bool.eq_false_iff.2 (mt helement.1 h))) w

/-- Settles O40. -/
theorem stepRunsDecodedCommand : Obligations.StepRunsDecodedCommand := by
  intro s i hb hi
  refine ⟨fun hturns => ?_, fun ts hturns => ?_⟩ <;> simp [step, hturns, engineTurn, engineStep, hb, hi]

/-- Settles O50, operation by operation. -/
theorem hostMovesInProgramOrder : Obligations.HostMovesInProgramOrder := by
  refine ⟨fun s u rest h => ?_, fun s ts hturns hb => by simp [step, hturns, engineTurn, hb]⟩
  obtain ⟨ts, rfl, hstep⟩ := step_eq_hostTurn h
  simp only [hstep, Host.Outcome.next.injEq]
  refine ⟨fun size a h => ?read, fun size a w h => ?write, fun size address h => ?outside,
    fun h => hostTurn_wait h, fun h => hostTurn_waitIrq h, fun h hrest => ?nil⟩
  case read =>
    rcases h with h | ⟨address, h, hlo, hhi, ha⟩
    · exact hostTurn_read h rfl
    · exact hostTurn_read h (resolve_bus_inside hlo hhi ha)
  case write =>
    rcases h with h | ⟨address, h, hlo, hhi, ha⟩
    · exact hostTurn_write h rfl
    · exact hostTurn_write h (resolve_bus_inside hlo hhi ha)
  case outside =>
    have ht := resolve_bus_outside h
    exact ⟨fun h => hostTurn_read_outside h ht, fun w h => hostTurn_write_outside h ht⟩
  case nil =>
    rw [hrest, ← h]
    exact hostTurn_nil h

/-- Settles O54: neither access looks at its offset. -/
theorem illegalAccessRefused : Obligations.IllegalAccessRefused := by
  intro size a w s h
  rw [busRead, busWrite, legalAccess_eq_false h]
  exact ⟨rfl, rfl⟩

end Sys2Proof.Machine
end

section
/-! PROOFS. Decoding and encoding. `opcodeFormats` joins each row of the opcode map to its format: the first
reserved bit, all bits above it being reserved too (R92 to R97), and the command read from the word. `decode_cases`
says once, through that table, what the decoder can answer; the statements about decoding follow from it. -/

namespace Sys2Proof

open Sys2Proof.Machine

/-! ### A word as its fields -/

theorem field_append_field (w : Word) (lo m n : Nat) :
    field w (lo + m) n ++ field w lo m = field w lo (n + m) :=
  BitVec.extractLsb'_append_extractLsb'_eq_extractLsb' rfl

theorem field_and (w m : Word) (lo n : Nat) : field (w &&& m) lo n = field w lo n &&& field m lo n :=
  BitVec.extractLsb'_and

theorem field_append_opcode (w : Word) : field w 8 24 ++ field w 0 8 = w :=
  (field_append_field w 0 8 24).trans (extractLsb'_all w)

/-- A format N word from its opcode (R92). -/
theorem word_of_formatN {w : Word} {o : Byte} (ho : field w 0 8 = o) (hr : field w 8 24 = 0#24) :
    0#24 ++ o = w := by
  rw [← ho, ← hr, field_append_opcode]

/-- Every word is its four bytes, the shape of formats G2 and R (R93, R95). -/
theorem word_of_bytes (w : Word) : field w 24 8 ++ field w 16 8 ++ field w 8 8 ++ field w 0 8 = w := by
  rw [field_append_field w 16 8 8, field_append_field w 8 8 16]
  exact field_append_opcode w

/-- A format R word from its opcode and its operands (R95). -/
theorem word_of_formatR {w : Word} {o : Byte} (ho : field w 0 8 = o) :
    field w 24 8 ++ field w 16 8 ++ field w 8 8 ++ o = w := by
  rw [← ho, word_of_bytes]

/-- A format G2 word from its opcode and its operands (R93). -/
theorem word_of_formatG2 {w : Word} {o : Byte} (ho : field w 0 8 = o) (hr : field w 24 8 = 0#8) :
    0#8 ++ field w 16 8 ++ field w 8 8 ++ o = w := by
  rw [← ho, ← hr, word_of_bytes]

/-- A format G1 word from its opcode and its operand (R94). -/
theorem word_of_formatG1 {w : Word} {o : Byte} (ho : field w 0 8 = o) (hr : field w 16 16 = 0#16) :
    0#16 ++ field w 8 8 ++ o = w := by
  rw [← ho, ← hr, field_append_field w 8 8 16]
  exact field_append_opcode w

/-- A format B word from its opcode and its operands (R96). -/
theorem word_of_formatB {w : Word} {o : Byte} (ho : field w 0 8 = o) (hr : field w 13 19 = 0#19) :
    0#19 ++ field w 11 2 ++ field w 8 3 ++ o = w := by
  rw [← ho, ← hr, field_append_field w 11 2 19, field_append_field w 8 3 21]
  exact field_append_opcode w

/-- A format K word from its opcode and its operand (R97). -/
theorem word_of_formatK {w : Word} {o : Byte} (ho : field w 0 8 = o) (hr : field w 11 21 = 0#21) :
    0#21 ++ field w 8 3 ++ o = w := by
  rw [← ho, ← hr, field_append_field w 8 3 21]
  exact field_append_opcode w

/-! ### The opcode map joined to the formats -/

/-- Each row of R98, the first reserved bit of its format (32 where the format has none), and the command read
from `w`. -/
def opcodeFormats (w : Word) : List ((String × Word × Word) × Nat × Instr) :=
  opcodeMap.zip
    [(8, .nop),
     (24, .gfAdd (field w 8 8) (field w 16 8)),
     (24, .gfMul (field w 8 8) (field w 16 8)),
     (16, .gfExp (field w 8 8)),
     (16, .gfLog (field w 8 8)),
     (32, .rsEncode (field w 8 8) (field w 16 8) (field w 24 8)),
     (13, .bchEncode (field w 11 2) (field w 8 3)),
     (8, .clearRef),
     (8, .clearData),
     (8, .interleave),
     (8, .place),
     (11, .mask (field w 8 3))]

/-- The opcode of a row of R98. -/
def rowOpcode (row : String × Word × Word) : Byte := field row.2.1 0 8

/-- The bits of `w` from bit `lo` up are 0. -/
def ZeroFrom (w : Word) (lo : Nat) : Prop := field w lo (32 - lo) = 0#(32 - lo)

theorem map_fst_opcodeFormats (w : Word) : (opcodeFormats w).map Prod.fst = opcodeMap := rfl

theorem exists_mem_opcodeFormats {row : String × Word × Word} (h : row ∈ opcodeMap) (w : Word) :
    ∃ lo i, (row, lo, i) ∈ opcodeFormats w := by
  rw [← map_fst_opcodeFormats w, List.mem_map] at h
  obtain ⟨⟨row, lo, i⟩, he, rfl⟩ := h
  exact ⟨lo, i, he⟩

/-- A row's mask covers the opcode and its format's reserved bits, where its match is 0. -/
theorem mask_of_mem {w : Word} : ∀ e ∈ opcodeFormats w, field e.1.2.2 0 8 = BitVec.allOnes 8 ∧
    field e.1.2.2 e.2.1 (32 - e.2.1) = BitVec.allOnes (32 - e.2.1) ∧ ZeroFrom e.1.2.1 e.2.1 := by
  simp only [opcodeFormats, opcodeMap, List.cons_append, List.nil_append, List.zip_cons_cons, List.zip_nil_right,
    List.forall_mem_cons]
  unfold ZeroFrom
  decide

/-- `r` is the answer of a format whose reserved bits start at `lo`: the command `i` where they are 0, and
RESERVED_FIELD where they are not (R90). -/
def Checked (w : Word) (lo : Nat) (i : Instr) (r : Except CmdError Instr) : Prop :=
  (ZeroFrom w lo → r = .ok i) ∧ (¬ ZeroFrom w lo → r = .error .reservedField)

theorem checked_formatN (w : Word) (i : Instr) : Checked w 8 i (formatN w i) :=
  ⟨fun h => if_pos h, fun h => if_neg h⟩

theorem checked_formatG2 (w : Word) (mk : Byte → Byte → Instr) :
    Checked w 24 (mk (field w 8 8) (field w 16 8)) (formatG2 w mk) := ⟨fun h => if_pos h, fun h => if_neg h⟩

theorem checked_formatG1 (w : Word) (mk : Byte → Instr) : Checked w 16 (mk (field w 8 8)) (formatG1 w mk) :=
  ⟨fun h => if_pos h, fun h => if_neg h⟩

theorem checked_formatR (w : Word) (mk : Byte → Byte → Byte → Instr) :
    Checked w 32 (mk (field w 8 8) (field w 16 8) (field w 24 8)) (formatR w mk) :=
  ⟨fun _ => rfl, fun h => absurd (BitVec.eq_of_zero_length rfl) h⟩

theorem checked_formatB (w : Word) (mk : BitVec 2 → BitVec 3 → Instr) :
    Checked w 13 (mk (field w 11 2) (field w 8 3)) (formatB w mk) := ⟨fun h => if_pos h, fun h => if_neg h⟩

theorem checked_formatK (w : Word) (mk : BitVec 3 → Instr) : Checked w 11 (mk (field w 8 3)) (formatK w mk) :=
  ⟨fun h => if_pos h, fun h => if_neg h⟩

/-- A word with the opcode of a row is decoded by the row's format. -/
theorem checked_decode {w : Word} : ∀ e ∈ opcodeFormats w, field w 0 8 = rowOpcode e.1 →
    Checked w e.2.1 e.2.2 (decode w) := by
  simp only [opcodeFormats, opcodeMap, List.cons_append, List.nil_append, List.zip_cons_cons, List.zip_nil_right,
    List.forall_mem_cons]
  refine ⟨?nop, ?gfAdd, ?gfMul, ?gfExp, ?gfLog, ?rsEncode, ?bchEncode, ?clearRef, ?clearData, ?interleave,
    ?place, ?mask, nofun⟩ <;> intro ho <;> rw [decode, ho]
  case nop | clearRef | clearData | interleave | place => exact checked_formatN w _
  case gfAdd | gfMul => exact checked_formatG2 w _
  case gfExp | gfLog => exact checked_formatG1 w _
  case rsEncode => exact checked_formatR w _
  case bchEncode => exact checked_formatB w _
  case mask => exact checked_formatK w _

/-- The opcodes of R98. -/
theorem map_rowOpcode_opcodeMap : opcodeMap.map rowOpcode =
    [0x00#8, 0x01#8, 0x02#8, 0x03#8, 0x04#8, 0x10#8, 0x20#8, 0x30#8, 0x31#8, 0x40#8, 0x50#8, 0x60#8] := rfl

theorem decode_of_not_mem {w : Word} (h : field w 0 8 ∉ opcodeMap.map rowOpcode) :
    decode w = .error .illegalOpcode := by
  simp only [map_rowOpcode_opcodeMap, List.mem_cons, List.not_mem_nil, or_false, not_or, ← BitVec.toNat_inj,
    BitVec.reduceToNat] at h
  simp [decode, h]

/-- What decoding answers: ILLEGAL_OPCODE, or the opcode is that of a row and the row's format decides. -/
theorem decode_cases (w : Word) :
    (field w 0 8 ∉ opcodeMap.map rowOpcode ∧ decode w = .error .illegalOpcode) ∨
      ∃ row lo i, (row, lo, i) ∈ opcodeFormats w ∧ field w 0 8 = rowOpcode row ∧
        (ZeroFrom w lo ∧ decode w = .ok i ∨ ¬ ZeroFrom w lo ∧ decode w = .error .reservedField) := by
  by_cases h : field w 0 8 ∈ opcodeMap.map rowOpcode
  · obtain ⟨row, hrow, ho⟩ := List.mem_map.1 h
    obtain ⟨lo, i, he⟩ := exists_mem_opcodeFormats hrow w
    obtain ⟨hok, herr⟩ := checked_decode _ he ho.symm
    exact .inr ⟨row, lo, i, he, ho.symm, (em _).imp (fun hz => ⟨hz, hok hz⟩) (fun hz => ⟨hz, herr hz⟩)⟩
  · exact .inl ⟨h, decode_of_not_mem h⟩

/-- The command a row's format reads is encoded as the word it is read from. -/
theorem encode_of_mem {w : Word} : ∀ e ∈ opcodeFormats w, field w 0 8 = rowOpcode e.1 → ZeroFrom w e.2.1 →
    encode e.2.2 = w := by
  simp only [opcodeFormats, opcodeMap, List.cons_append, List.nil_append, List.zip_cons_cons, List.zip_nil_right,
    List.forall_mem_cons]
  refine ⟨?nop, ?gfAdd, ?gfMul, ?gfExp, ?gfLog, ?rsEncode, ?bchEncode, ?clearRef, ?clearData, ?interleave,
    ?place, ?mask, nofun⟩
  case nop | clearRef | clearData | interleave | place => exact word_of_formatN
  case gfAdd | gfMul => exact word_of_formatG2
  case gfExp | gfLog => exact word_of_formatG1
  case rsEncode => exact fun ho _ => word_of_formatR ho
  case bchEncode => exact word_of_formatB
  case mask => exact word_of_formatK

/-! ### The round trips -/

/-- Settles O34, command by command: the fields of the encoding are the operands. -/
theorem decodeEncodeRoundTrip : Obligations.DecodeEncodeRoundTrip := by
  intro i
  cases i with
  | nop | clearRef | clearData | interleave | place => rfl
  | gfAdd a b | gfMul a b => simp [encode, decode, formatG2, field_bytes]
  | gfExp a | gfLog a => simp [encode, decode, formatG1, field_g1]
  | rsEncode off len n => simp [encode, decode, formatR, field_bytes]
  | bchEncode ecl maskId => simp [encode, decode, formatB, field_b]
  | mask k => simp [encode, decode, formatK, field_k]

/-- Settles O35: a command read by a row's format is encoded as the word. -/
theorem encodeDecodeRoundTrip : Obligations.EncodeDecodeRoundTrip := by
  intro w i h
  rcases decode_cases w with ⟨-, hd⟩ | ⟨row, lo, j, he, ho, ⟨hz, hd⟩ | ⟨-, hd⟩⟩
  · cases hd.symm.trans h
  · obtain rfl : j = i := Except.ok.inj (hd.symm.trans h)
    exact encode_of_mem _ he ho hz
  · cases hd.symm.trans h

/-! ### The rows as match and mask -/

/-- Where a row's mask is all ones, a word it spells has the bits of its match (R98). -/
theorem field_of_spells {w : Word} {row : String × Word × Word} (h : spells w row = true) {lo n : Nat}
    (hm : field row.2.2 lo n = BitVec.allOnes n) : field w lo n = field row.2.1 lo n := by
  rw [← eq_of_beq h, field_and, hm, BitVec.and_allOnes]

theorem rowOpcode_of_spells {w : Word} {row : String × Word × Word} (hrow : row ∈ opcodeMap)
    (h : spells w row = true) : field w 0 8 = rowOpcode row := by
  obtain ⟨lo, i, he⟩ := exists_mem_opcodeFormats hrow w
  exact field_of_spells h (mask_of_mem _ he).1

/-- A word that a row spells decodes. -/
theorem decode_ok_of_spells {w : Word} {row : String × Word × Word} (hrow : row ∈ opcodeMap)
    (h : spells w row = true) : ∃ i, decode w = .ok i := by
  obtain ⟨lo, i, he⟩ := exists_mem_opcodeFormats hrow w
  obtain ⟨-, hmask, hmatch⟩ := mask_of_mem _ he
  have hz : ZeroFrom w lo := (field_of_spells h hmask).trans hmatch
  exact ⟨i, (checked_decode _ he (rowOpcode_of_spells hrow h)).1 hz⟩

/-- The row of a command's mnemonic spells its encoding. -/
theorem spelling (i : Instr) : Laws.Spelling.Statement i := by
  cases i with
  | nop => exact Laws.Spelling.nop
  | gfAdd a b => exact Laws.Spelling.gfAdd a b
  | gfMul a b => exact Laws.Spelling.gfMul a b
  | gfExp a => exact Laws.Spelling.gfExp a
  | gfLog a => exact Laws.Spelling.gfLog a
  | rsEncode off len n => exact Laws.Spelling.rsEncode off len n
  | bchEncode ecl maskId => exact Laws.Spelling.bchEncode ecl maskId
  | clearRef => exact Laws.Spelling.clearRef
  | clearData => exact Laws.Spelling.clearData
  | interleave => exact Laws.Spelling.interleave
  | place => exact Laws.Spelling.place
  | mask k => exact Laws.Spelling.mask k

/-- A word that decodes is spelled by the row of the command's mnemonic. -/
theorem spells_of_decode {w : Word} {i : Instr} (h : decode w = .ok i) :
    ∃ row ∈ opcodeMap, row.1 = mnemonic i ∧ spells w row = true :=
  encodeDecodeRoundTrip w i h ▸ spelling i

/-- No two rows share an opcode. -/
theorem rowOpcode_inj {row row' : String × Word × Word} (h : row ∈ opcodeMap) (h' : row' ∈ opcodeMap)
    (ho : rowOpcode row = rowOpcode row') : row = row' :=
  List.inj_on_of_nodup_map (show (opcodeMap.map rowOpcode).Nodup by decide) h h' ho

/-- No two rows share a mnemonic. -/
theorem rowMnemonic_inj {row row' : String × Word × Word} (h : row ∈ opcodeMap) (h' : row' ∈ opcodeMap)
    (hm : row.1 = row'.1) : row = row' :=
  List.inj_on_of_nodup_map (show (opcodeMap.map Prod.fst).Nodup by decide) h h' hm

theorem decode_of_mem_opcodes {w : Word} (h : field w 0 8 ∈ opcodeMap.map rowOpcode) :
    (∃ i, decode w = .ok i) ∨ decode w = .error .reservedField := by
  rcases decode_cases w with ⟨hn, -⟩ | ⟨-, -, i, -, -, ⟨-, hd⟩ | ⟨-, hd⟩⟩
  · exact absurd h hn
  · exact .inl ⟨i, hd⟩
  · exact .inr hd

/-- Settles O36: opcodes tell the rows apart, so the row that spells a word is the one of its command. -/
theorem decodeMatchesOpcodeMap : Obligations.DecodeMatchesOpcodeMap := by
  refine ⟨fun w => ⟨?spelled, ?decodes⟩, fun w i hi row hrow => ?row, fun w ⟨row, hrow, ho⟩ hno => ?reserved,
    rfl⟩
  case spelled =>
    rintro ⟨i, hi⟩
    obtain ⟨row, hrow, -, hs⟩ := spells_of_decode hi
    exact ⟨row, hrow, hs⟩
  case decodes =>
    rintro ⟨row, hrow, hs⟩
    exact decode_ok_of_spells hrow hs
  case row =>
    obtain ⟨row', hrow', hm, hs'⟩ := spells_of_decode hi
    rw [← hm]
    constructor
    · intro hs
      rw [rowOpcode_inj hrow hrow' ((rowOpcode_of_spells hrow hs).symm.trans (rowOpcode_of_spells hrow' hs'))]
    · intro h
      rwa [rowMnemonic_inj hrow hrow' h]
  case reserved =>
    rcases decode_of_mem_opcodes (List.mem_map.2 ⟨row, hrow, ho.symm⟩) with ⟨i, hi⟩ | hd
    · obtain ⟨row', hrow', -, hs⟩ := spells_of_decode hi
      cases (hno row' hrow').symm.trans hs
    · exact hd

/-- Settles O37: the opcode alone decides ILLEGAL_OPCODE. -/
theorem decodeErrorOrder : Obligations.DecodeErrorOrder := by
  intro w
  rw [← map_rowOpcode_opcodeMap]
  refine ⟨⟨decode_of_not_mem, fun hd hmem => ?_⟩, decode_of_mem_opcodes⟩
  rcases decode_of_mem_opcodes hmem with ⟨i, hi⟩ | hr
  · cases hd.symm.trans hi
  · cases hd.symm.trans hr

/-- Settles O38, by evaluating the decoder. -/
theorem decodeSpelledWords : Obligations.DecodeSpelledWords := by
  unfold Obligations.DecodeSpelledWords
  decide

/-! ### The assembler -/

/-- A field appended below a number is the number shifted past it (R101). -/
theorem ofNat_append_ofNat {m n x y : Nat} (hy : y < 2 ^ n) :
    BitVec.ofNat m x ++ BitVec.ofNat n y = BitVec.ofNat (m + n) (x <<< n ||| y) := by
  refine BitVec.eq_of_getLsbD_eq fun i hi => ?_
  simp only [BitVec.getLsbD_append, BitVec.getLsbD_ofNat, Nat.testBit_or, Nat.testBit_shiftLeft]
  by_cases h : i < n
  · simp [h, hi, Nat.not_le.2 h]
  · have hy' : y.testBit i = false :=
      Nat.testBit_lt_two_pow (hy.trans_le (Nat.pow_le_pow_right two_pos (Nat.not_lt.1 h)))
    simp [h, hi, hy', Nat.not_lt.1 h, show i - n < m by omega]

/-- The word of format R as a number (R95, R101). -/
theorem formatR_ofNat (n : Nat) {len off o : Nat} (hl : len < 256) (hf : off < 256) (ho : o < 256) :
    BitVec.ofNat 8 n ++ BitVec.ofNat 8 len ++ BitVec.ofNat 8 off ++ BitVec.ofNat 8 o =
      BitVec.ofNat 32 (n <<< 24 ||| len <<< 16 ||| off <<< 8 ||| o) := by
  rw [ofNat_append_ofNat hl, ofNat_append_ofNat hf, ofNat_append_ofNat ho]
  simp only [Nat.shiftLeft_or_distrib, ← Nat.shiftLeft_add, Nat.reduceAdd]

/-- The word of format G2 as a number (R93, R101). -/
theorem formatG2_ofNat {b a o : Nat} (hb : b < 256) (ha : a < 256) (ho : o < 256) :
    0#8 ++ BitVec.ofNat 8 b ++ BitVec.ofNat 8 a ++ BitVec.ofNat 8 o =
      BitVec.ofNat 32 (b <<< 16 ||| a <<< 8 ||| o) := by
  rw [formatR_ofNat 0 hb ha ho, Nat.zero_shiftLeft, Nat.zero_or]

/-- The word of format G1 as a number (R94, R101). -/
theorem formatG1_ofNat {a o : Nat} (ha : a < 256) (ho : o < 256) :
    0#16 ++ BitVec.ofNat 8 a ++ BitVec.ofNat 8 o = BitVec.ofNat 32 (a <<< 8 ||| o) := by
  rw [ofNat_append_ofNat ha, ofNat_append_ofNat ho, Nat.zero_shiftLeft, Nat.zero_or]

/-- The word of format B as a number (R96, R101). -/
theorem formatB_ofNat {ecl k o : Nat} (he : ecl < 4) (hk : k < 8) (ho : o < 256) :
    0#19 ++ BitVec.ofNat 2 ecl ++ BitVec.ofNat 3 k ++ BitVec.ofNat 8 o =
      BitVec.ofNat 32 (ecl <<< 11 ||| k <<< 8 ||| o) := by
  rw [ofNat_append_ofNat he, ofNat_append_ofNat hk, ofNat_append_ofNat ho, Nat.zero_shiftLeft, Nat.zero_or,
    Nat.shiftLeft_or_distrib, ← Nat.shiftLeft_add]

/-- The word of format K as a number (R97, R101). -/
theorem formatK_ofNat {k o : Nat} (hk : k < 8) (ho : o < 256) :
    0#21 ++ BitVec.ofNat 3 k ++ BitVec.ofNat 8 o = BitVec.ofNat 32 (k <<< 8 ||| o) := by
  rw [ofNat_append_ofNat hk, ofNat_append_ofNat ho, Nat.zero_shiftLeft, Nat.zero_or]

theorem assemble_eq_none {l : AsmLine} (h : l.wellFormed = false) : l.assemble = none :=
  if_neg (Bool.eq_false_iff.1 h)

theorem map_encode_assemble {l : AsmLine} {w : Word} (h : l.wellFormed = true) (hw : encode l.toInstr = w) :
    l.assemble.map encode = some w := by
  rw [AsmLine.assemble, if_pos h, Option.map_some, hw]

/-- Settles O39, format by format. -/
theorem assemblerEncodings : Obligations.AssemblerEncodings := by
  refine ⟨fun a b h => ?refusesG2, fun a h => ?refusesG1, fun off len n h => ?refusesR, fun ecl k h => ?refusesB,
    fun k h => ?refusesK, fun a b ha hb => ?formatG2, fun a ha => ?formatG1, fun off len n hf hl hn => ?formatR,
    fun ecl k he hk => ?formatB, fun k hk => ?formatK, rfl, rfl, rfl, rfl, rfl⟩
  case refusesG2 =>
    have hwf : (AsmLine.gfAdd a b).wellFormed = false := by
      simpa only [AsmLine.wellFormed, Bool.and_eq_false_iff, decide_eq_false_iff_not, not_lt] using h
    exact ⟨assemble_eq_none hwf, assemble_eq_none hwf⟩
  case refusesG1 =>
    have hwf : (AsmLine.gfExp a).wellFormed = false := decide_eq_false (Nat.not_lt.2 h)
    exact ⟨assemble_eq_none hwf, assemble_eq_none hwf⟩
  case refusesR =>
    exact assemble_eq_none (by simpa only [AsmLine.wellFormed, Bool.and_eq_false_iff, decide_eq_false_iff_not,
      not_lt, or_assoc] using h)
  case refusesB =>
    exact assemble_eq_none (by simpa only [AsmLine.wellFormed, Bool.and_eq_false_iff, decide_eq_false_iff_not,
      not_lt] using h)
  case refusesK => exact assemble_eq_none (decide_eq_false (Nat.not_lt.2 h))
  case formatG2 =>
    have hwf : (AsmLine.gfAdd a b).wellFormed = true := by simp [AsmLine.wellFormed, ha, hb]
    exact ⟨map_encode_assemble hwf (formatG2_ofNat hb ha (by decide)),
      map_encode_assemble hwf (formatG2_ofNat hb ha (by decide))⟩
  case formatG1 =>
    have hwf : (AsmLine.gfExp a).wellFormed = true := decide_eq_true ha
    exact ⟨map_encode_assemble hwf (formatG1_ofNat ha (by decide)),
      map_encode_assemble hwf (formatG1_ofNat ha (by decide))⟩
  case formatR =>
    exact map_encode_assemble (by simp [AsmLine.wellFormed, hf, hl, hn]) (formatR_ofNat n hl hf (by decide))
  case formatB =>
    exact map_encode_assemble (by simp [AsmLine.wellFormed, he, hk]) (formatB_ofNat he hk (by decide))
  case formatK => exact map_encode_assemble (decide_eq_true hk) (formatK_ofNat hk (by decide))

/-! ### The Engine's report of a decode error -/

theorem engineStep_error {s : State} {e : CmdError} (h : decode s.csr.cmd = .error e) :
    engineStep s = .next (s.afterError e.code) := by
  rw [engineStep, h]
  rfl

/-- While BUSY = 1 the Engine's move is its step, its turn used up if one is set (R70). -/
theorem step_eq_engineStep {s u : State} (hb : s.status.busy = true)
    (hu : s.turns = [] ∧ u = s ∨ ∃ ts, s.turns = .engine :: ts ∧ u = { s with turns := ts }) :
    step s = engineStep u ∧ u.csr = s.csr := by
  rcases hu with ⟨hturns, rfl⟩ | ⟨ts, hturns, rfl⟩ <;> simp [step, hturns, engineTurn, hb]

/-- Settles O41: the move is the Engine's step, and a decode error completes it. -/
theorem stepReportsDecodeErrors : Obligations.StepReportsDecodeErrors := by
  intro s u hb hu
  obtain ⟨hstep, hcsr⟩ := step_eq_engineStep hb hu
  rw [hstep, ← hcsr]
  refine ⟨engineStep_error, engineStep_error, ?_⟩
  by_cases h : field u.csr.cmd 0 8 ∈ opcodeMap.map rowOpcode
  · exact (decode_of_mem_opcodes h).imp_right .inr
  · exact .inr (.inl (decode_of_not_mem h))

end Sys2Proof
end

section
/-! PROOFS. The field GF(256), its tables and its commands. EXP is the orbit of 1 under multiplication by α
(`mulAlpha`), an additive map, and LOG inverts it. So every non-zero byte is a power of α, and the product by α^i
is `mulAlpha` taken `i` times: the laws of multiplication are those of the exponents, and distributivity is that of
`mulAlpha`. -/

namespace Sys2Proof

open Sys2Proof.Machine

/-- The word of the `k`-th row of R98 decodes to the row's command, its format's reserved bits being 0. -/
theorem decode_eq_ite_of_row {w : Word} {row : String × Word × Word} {lo : Nat} {i : Instr} (k : Nat)
    (hk : (opcodeFormats w)[k]? = some (row, lo, i)) (ho : field w 0 8 = rowOpcode row) :
    decode w = if field w lo (32 - lo) = 0#(32 - lo) then .ok i else .error .reservedField := by
  obtain ⟨hok, herr⟩ := checked_decode _ (List.mem_of_getElem? hk) ho
  split
  case isTrue hz => exact hok hz
  case isFalse hz => exact herr hz

end Sys2Proof

namespace Sys2Proof.Machine

/-! ### Multiplication by α -/

/-- The product by α = 0x02: a shift, reduced by 0x1D when bit 8 comes out (R110). -/
def mulAlpha (a : Byte) : Byte := if a.getLsbD 7 then (a <<< 1) ^^^ 0x1D#8 else a <<< 1

theorem mulAlpha_zero : mulAlpha 0#8 = 0#8 := rfl

/-- A shift is additive, and where both operands are reduced the two reductions cancel. -/
theorem mulAlpha_xor (a b : Byte) : mulAlpha (a ^^^ b) = mulAlpha a ^^^ mulAlpha b := by
  simp only [mulAlpha, BitVec.getLsbD_xor, BitVec.shiftLeft_xor_distrib]
  cases a.getLsbD 7 <;> cases b.getLsbD 7
  case false.false => rfl
  case false.true =>
    change a <<< 1 ^^^ b <<< 1 ^^^ 0x1D#8 = a <<< 1 ^^^ (b <<< 1 ^^^ 0x1D#8)
    ac_rfl
  case true.false =>
    change a <<< 1 ^^^ b <<< 1 ^^^ 0x1D#8 = a <<< 1 ^^^ 0x1D#8 ^^^ b <<< 1
    ac_rfl
  case true.true =>
    calc a <<< 1 ^^^ b <<< 1
        = a <<< 1 ^^^ b <<< 1 ^^^ (0x1D#8 ^^^ 0x1D#8) := by rw [BitVec.xor_self, BitVec.xor_zero]
      _ = a <<< 1 ^^^ 0x1D#8 ^^^ (b <<< 1 ^^^ 0x1D#8) := by ac_rfl

theorem iterate_mulAlpha_zero (n : Nat) : mulAlpha^[n] 0#8 = 0#8 := Function.iterate_fixed mulAlpha_zero n

theorem iterate_mulAlpha_xor (n : Nat) (a b : Byte) :
    mulAlpha^[n] (a ^^^ b) = mulAlpha^[n] a ^^^ mulAlpha^[n] b := by
  induction n generalizing a b with
  | zero => rfl
  | succ n ih => rw [Function.iterate_succ_apply, mulAlpha_xor, ih]; rfl

/-! ### The tables -/

/-- EXP lists the powers of α (R110). -/
theorem map_ofNat_expTable : expTable.map (BitVec.ofNat 8) = List.iterate mulAlpha 0x01#8 255 := by decide +kernel

/-- LOG numbers the powers of α (R111). -/
theorem map_logAt_iterate_mulAlpha : (List.iterate mulAlpha 0x01#8 255).map logAt = List.range 255 := by
  decide +kernel

theorem length_expTable : expTable.length = 255 := by
  rw [← List.length_map (BitVec.ofNat 8), map_ofNat_expTable, List.length_iterate]

theorem length_logTable : logTable.length = 256 := by decide +kernel

theorem logAt_zero : logAt 0#8 = 0xFF := rfl

theorem expAt_eq_iterate {i : Nat} (hi : i < 255) : expAt i = mulAlpha^[i] 0x01#8 := by
  have h := List.getElem?_iterate mulAlpha 0x01#8 255 i hi
  rw [← map_ofNat_expTable, List.getElem?_map, Option.map_eq_some_iff] at h
  obtain ⟨x, hx, hxi⟩ := h
  rw [expAt, List.getD_eq_getElem?_getD, hx]
  exact hxi

theorem expAt_succ {i : Nat} (hi : i < 254) : expAt (i + 1) = mulAlpha (expAt i) := by
  rw [expAt_eq_iterate (by omega), expAt_eq_iterate (by omega), Function.iterate_succ_apply']

theorem logAt_expAt {i : Nat} (hi : i < 255) : logAt (expAt i) = i := by
  have h : ((List.iterate mulAlpha 0x01#8 255).map logAt)[i]? = some i := by
    rw [map_logAt_iterate_mulAlpha, List.getElem?_range hi]
  rwa [List.getElem?_map, List.getElem?_iterate _ _ _ _ hi, ← expAt_eq_iterate hi, Option.map_some,
    Option.some_inj] at h

theorem expAt_ne_zero {i : Nat} (hi : i < 255) : expAt i ≠ 0#8 := by
  intro h
  have hlog := logAt_expAt hi
  rw [h, logAt_zero] at hlog
  omega

/-- The 255 powers of α are distinct and not 0, so they are all the non-zero bytes. -/
theorem exists_expAt_eq {a : Byte} (ha : a ≠ 0#8) : ∃ i < 255, expAt i = a := by
  have hinj : Set.InjOn expAt (Finset.range 255) := fun i hi j hj h => by
    rw [← logAt_expAt (Finset.mem_range.1 hi), h, logAt_expAt (Finset.mem_range.1 hj)]
  have hnonzero : (Finset.range 255).image expAt ⊆ Finset.univ.erase 0#8 := by
    simpa [Finset.subset_iff] using fun i hi => expAt_ne_zero hi
  have hcard : (Finset.univ.erase 0#8).card ≤ ((Finset.range 255).image expAt).card := by
    simp [Finset.card_image_of_injOn hinj, ← FinEnum.card_eq_fintypeCard]
  have hmem : a ∈ (Finset.range 255).image expAt := by
    rw [Finset.eq_of_subset_of_card_le hnonzero hcard]
    exact Finset.mem_erase.2 ⟨ha, Finset.mem_univ a⟩
  simpa using hmem

theorem logAt_lt_255 {a : Byte} (ha : a ≠ 0#8) : logAt a < 255 := by
  obtain ⟨i, hi, rfl⟩ := exists_expAt_eq ha
  rwa [logAt_expAt hi]

theorem expAt_logAt {a : Byte} (ha : a ≠ 0#8) : expAt (logAt a) = a := by
  obtain ⟨i, hi, rfl⟩ := exists_expAt_eq ha
  rw [logAt_expAt hi]

/-! ### The powers of α, for every exponent -/

theorem gfExp_logAt {a : Byte} (ha : a ≠ 0#8) : gfExp (logAt a) = a := by
  rw [gfExp, Nat.mod_eq_of_lt (logAt_lt_255 ha), expAt_logAt ha]

theorem gfExp_ne_zero (e : Nat) : gfExp e ≠ 0#8 := expAt_ne_zero (Nat.mod_lt e (by decide))

theorem logAt_gfExp (e : Nat) : logAt (gfExp e) = e % 255 := logAt_expAt (Nat.mod_lt e (by decide))

theorem eq_zero_or_eq_gfExp (a : Byte) : a = 0#8 ∨ ∃ e, a = gfExp e :=
  (em (a = 0#8)).imp_right fun ha => ⟨logAt a, (gfExp_logAt ha).symm⟩

/-- α has order 255 (R110). -/
theorem isPeriodicPt_mulAlpha : Function.IsPeriodicPt mulAlpha 255 0x01#8 := by
  rw [Function.IsPeriodicPt, Function.IsFixedPt, Function.iterate_succ_apply', ← expAt_eq_iterate (by decide)]
  rfl

theorem gfExp_eq_iterate (e : Nat) : gfExp e = mulAlpha^[e] 0x01#8 := by
  rw [gfExp, expAt_eq_iterate (Nat.mod_lt e (by decide)), isPeriodicPt_mulAlpha.iterate_mod_apply]

/-! ### The product -/

theorem gfMul_of_ne_zero {a b : Byte} (ha : a ≠ 0#8) (hb : b ≠ 0#8) : gfMul a b = gfExp (logAt a + logAt b) :=
  if_neg (not_or.2 ⟨ha, hb⟩)

theorem zero_gfMul (b : Byte) : gfMul 0#8 b = 0#8 := if_pos (.inl rfl)

theorem gfMul_zero (a : Byte) : gfMul a 0#8 = 0#8 := if_pos (.inr rfl)

/-- Exponents add (R112). -/
theorem gfMul_gfExp_gfExp (i j : Nat) : gfMul (gfExp i) (gfExp j) = gfExp (i + j) := by
  rw [gfMul_of_ne_zero (gfExp_ne_zero i) (gfExp_ne_zero j), logAt_gfExp, logAt_gfExp, gfExp, ← Nat.add_mod, gfExp]

/-- The product by α^i is `i` products by α. -/
theorem gfMul_gfExp (i : Nat) (b : Byte) : gfMul (gfExp i) b = mulAlpha^[i] b := by
  rcases eq_zero_or_eq_gfExp b with rfl | ⟨j, rfl⟩
  · rw [gfMul_zero, iterate_mulAlpha_zero]
  · rw [gfMul_gfExp_gfExp, gfExp_eq_iterate, gfExp_eq_iterate, Function.iterate_add_apply]

theorem gfMul_comm (a b : Byte) : gfMul a b = gfMul b a := by
  simp only [gfMul, or_comm, Nat.add_comm]

theorem gfMul_assoc (a b c : Byte) : gfMul (gfMul a b) c = gfMul a (gfMul b c) := by
  rcases eq_zero_or_eq_gfExp a with rfl | ⟨i, rfl⟩
  · simp only [zero_gfMul]
  rcases eq_zero_or_eq_gfExp b with rfl | ⟨j, rfl⟩
  · simp only [zero_gfMul, gfMul_zero]
  · rw [gfMul_gfExp_gfExp, gfMul_gfExp, gfMul_gfExp, gfMul_gfExp, Function.iterate_add_apply]

theorem one_gfMul (a : Byte) : gfMul 0x01#8 a = a := gfMul_gfExp 0 a

theorem gfMul_xor (a b c : Byte) : gfMul a (b ^^^ c) = gfMul a b ^^^ gfMul a c := by
  rcases eq_zero_or_eq_gfExp a with rfl | ⟨i, rfl⟩
  · simp only [zero_gfMul, BitVec.xor_self]
  · simp only [gfMul_gfExp, iterate_mulAlpha_xor]

theorem gfMul_inverse {a : Byte} (ha : a ≠ 0#8) : gfMul a (gfExp (255 - logAt a)) = 0x01#8 := by
  have hlog := logAt_lt_255 ha
  calc gfMul a (gfExp (255 - logAt a))
      = gfMul (gfExp (logAt a)) (gfExp (255 - logAt a)) := by rw [gfExp_logAt ha]
    _ = gfExp 255 := by rw [gfMul_gfExp_gfExp, Nat.add_sub_cancel' hlog.le]

/-! ### The statements about the field -/

/-- Settles O16, law by law. -/
theorem gfFieldLaws : Obligations.GfFieldLaws :=
  ⟨fun _ => expAt_logAt, fun _ => logAt_expAt, gfMul_comm, gfMul_assoc, one_gfMul, zero_gfMul, gfMul_xor,
    fun _ => gfMul_inverse, fun _ => BitVec.xor_self⟩

/-- Settles O13: a logarithm of a non-zero element is at most 254. -/
theorem fieldOperationsExact : Obligations.FieldOperationsExact := by
  refine ⟨fun _ _ => rfl, zero_gfMul, gfMul_zero, fun a b ha hb => ⟨gfMul_of_ne_zero ha hb, ?_⟩, fun _ => rfl⟩
  have hloga := logAt_lt_255 ha
  have hlogb := logAt_lt_255 hb
  omega

/-- Settles O14: the entries of EXP are the powers of α, and they are all the non-zero bytes. -/
theorem expTableIsPowers : Obligations.ExpTableIsPowers :=
  ⟨length_expTable, rfl, fun _ => expAt_succ, fun _ => expAt_ne_zero, fun _ => exists_expAt_eq⟩

/-- Settles O15: an exponent below 255 is the logarithm of its power. -/
theorem logTableInvertsExp : Obligations.LogTableInvertsExp :=
  ⟨length_logTable, logAt_zero, fun _ ha => ⟨logAt_lt_255 ha, expAt_logAt ha, fun _ hi h => h ▸ (logAt_expAt hi).symm⟩⟩

/-! ### The commands -/

/-- A command whose only output is RESULT (R26, R224). -/
theorem conclude_setResult (s : State) (v : BitVec 16) : conclude s (.ok (s.setResult v)) =
    .next { s.afterSuccess with csr := { s.csr with result := v } } := rfl

/-- Settles O1: the commit of NOP is the state itself. -/
theorem nopCommand : Obligations.NopCommand :=
  ⟨exec_eq_conclude .nop, fun _ => decode_eq_ite_of_row 0 rfl⟩

/-- Settles O2: RESULT is the one output, and the word is of row 1. -/
theorem gfAddCommand : Obligations.GfAddCommand :=
  ⟨fun a b s => (exec_eq_conclude (.gfAdd a b) s).trans (conclude_setResult s _),
    fun _ => decode_eq_ite_of_row 1 rfl⟩

/-- Settles O3: RESULT is the one output, and the word is of row 2. -/
theorem gfMulCommand : Obligations.GfMulCommand :=
  ⟨fun a b s => (exec_eq_conclude (.gfMul a b) s).trans (conclude_setResult s _),
    fun _ => decode_eq_ite_of_row 2 rfl⟩

/-- Settles O4: no power of α is 0, and α^255 = α^0. -/
theorem gfExpCommand : Obligations.GfExpCommand :=
  ⟨fun a s => (exec_eq_conclude (.gfExp a) s).trans (conclude_setResult s _), fun a => gfExp_ne_zero a.toNat,
    rfl, fun _ => decode_eq_ite_of_row 3 rfl⟩

theorem exec_gfLog_of_ne_zero {a : Byte} (ha : a ≠ 0#8) (s : State) : exec (.gfLog a) s =
    .next { s.afterSuccess with csr := { s.csr with result := BitVec.ofNat 16 (logAt a) } } := by
  rw [exec_eq_conclude, commandResult, if_neg ha, conclude_setResult]

/-- Settles O5: the test for 0 comes before the look-up. -/
theorem gfLogCommand : Obligations.GfLogCommand :=
  ⟨fun _ s ha => ⟨Nat.le_of_lt_succ (logAt_lt_255 ha), exec_gfLog_of_ne_zero ha s⟩,
    exec_eq_conclude (.gfLog 0#8), fun _ => decode_eq_ite_of_row 4 rfl⟩

end Sys2Proof.Machine
end

section
/-! PROOFS. The Reed-Solomon divider and RS_ENCODE. One turn of the division adds a multiple of the generator to
the working remainder (`divideStep_cons`), whether the leading codeword is 0 or not. So the division is linear, and a
turn keeps the value at every root of the generator; the generator's roots are those of its linear factors. -/

namespace Sys2Proof.Machine

/-! ### One turn of the division -/

theorem xor_gfMul (a b c : Byte) : gfMul (a ^^^ b) c = gfMul a c ^^^ gfMul b c := by
  rw [gfMul_comm, gfMul_xor, gfMul_comm c a, gfMul_comm c b]

/-- `r + c·p` (R131), coefficient by coefficient from the first, `r` going on unchanged where `p` ends. -/
def addMultiple (c : Byte) : List Byte → List Byte → List Byte
  | p :: ps, r :: rs => (r ^^^ gfMul c p) :: addMultiple c ps rs
  | [], rs => rs
  | _ :: _, [] => []

theorem zero_addMultiple (ps rs : List Byte) : addMultiple 0#8 ps rs = rs := by
  induction ps generalizing rs with
  | nil => rfl
  | cons p ps ih =>
    cases rs with
    | nil => rfl
    | cons r rs => rw [addMultiple, zero_gfMul, BitVec.xor_zero, ih]

/-- A row of the division adds the multiple by the element whose logarithm it is given. -/
theorem addRow_logAt {c : Byte} (hc : c ≠ 0#8) (g : List Nat) (rs : List Byte) :
    addRow (logAt c) g rs = addMultiple c (g.map gfExp) rs := by
  induction g generalizing rs with
  | nil => rfl
  | cons e g ih =>
    cases rs with
    | nil => rfl
    | cons r rs =>
      have hterm : expAt ((e + logAt c) % 255) = gfMul c (gfExp e) := by
        rw [gfMul_comm, ← gfExp_logAt hc, gfMul_gfExp_gfExp, logAt_gfExp, gfExp, Nat.add_mod_mod]
      rw [addRow, ih, List.map_cons, addMultiple, hterm]

/-- THE law of the division (R131): a turn drops the leading codeword and adds its multiple of the generator
below the leading term; for a leading 0 that is the zero multiple. -/
theorem divideStep_cons (g : List Nat) (lead : Byte) (rest : List Byte) :
    divideStep g (lead :: rest) = addMultiple lead (g.tail.map gfExp) rest := by
  rw [divideStep]
  split
  case isTrue hz => rw [hz, zero_addMultiple]
  case isFalse hz =>
    rw [addRow_logAt hz]
    cases g <;> rfl

/-! ### Linearity -/

theorem addMultiple_xor (c d : Byte) (ps rs ss : List Byte) :
    addMultiple (c ^^^ d) ps (List.zipWith (· ^^^ ·) rs ss)
      = List.zipWith (· ^^^ ·) (addMultiple c ps rs) (addMultiple d ps ss) := by
  induction ps generalizing rs ss with
  | nil => rfl
  | cons p ps ih =>
    cases rs with
    | nil => rfl
    | cons r rs =>
      cases ss with
      | nil => rfl
      | cons s ss =>
        simp only [List.zipWith_cons_cons, addMultiple, ih, xor_gfMul]
        ac_rfl

theorem addMultiple_gfMul (a c : Byte) (ps rs : List Byte) :
    addMultiple (gfMul a c) ps (rs.map (gfMul a)) = (addMultiple c ps rs).map (gfMul a) := by
  induction ps generalizing rs with
  | nil => rfl
  | cons p ps ih =>
    cases rs with
    | nil => rfl
    | cons r rs => simp only [List.map_cons, addMultiple, ih, gfMul_xor, gfMul_assoc]

theorem divideStep_xor (g : List Nat) (rs ss : List Byte) :
    divideStep g (List.zipWith (· ^^^ ·) rs ss)
      = List.zipWith (· ^^^ ·) (divideStep g rs) (divideStep g ss) := by
  cases rs with
  | nil => rfl
  | cons r rs =>
    cases ss with
    | nil => rw [List.zipWith_nil_right, divideStep, List.zipWith_nil_right]
    | cons s ss => simp only [List.zipWith_cons_cons, divideStep_cons, addMultiple_xor]

theorem divideStep_gfMul (g : List Nat) (a : Byte) (rs : List Byte) :
    divideStep g (rs.map (gfMul a)) = (divideStep g rs).map (gfMul a) := by
  cases rs with
  | nil => rfl
  | cons r rs => simp only [List.map_cons, divideStep_cons, addMultiple_gfMul]

theorem divideSteps_xor (g : List Nat) (k : Nat) (rs ss : List Byte) :
    divideSteps g k (List.zipWith (· ^^^ ·) rs ss)
      = List.zipWith (· ^^^ ·) (divideSteps g k rs) (divideSteps g k ss) := by
  induction k generalizing rs ss with
  | zero => rfl
  | succ k ih => simp only [divideSteps, divideStep_xor, ih]

theorem divideSteps_gfMul (g : List Nat) (k : Nat) (a : Byte) (rs : List Byte) :
    divideSteps g k (rs.map (gfMul a)) = (divideSteps g k rs).map (gfMul a) := by
  induction k generalizing rs with
  | zero => rfl
  | succ k ih => simp only [divideSteps, divideStep_gfMul, ih]

theorem rsRem_xor (g : List Nat) (n : Nat) {a b : List Byte} (h : a.length = b.length) :
    rsRem g n (List.zipWith (· ^^^ ·) a b) = List.zipWith (· ^^^ ·) (rsRem g n a) (rsRem g n b) := by
  have hpad : List.zipWith (· ^^^ ·) a b ++ List.replicate n 0#8 =
      List.zipWith (· ^^^ ·) (a ++ List.replicate n 0#8) (b ++ List.replicate n 0#8) := by
    rw [List.zipWith_append h, List.zipWith_replicate', BitVec.xor_zero]
  rw [rsRem, hpad, divideSteps_xor, List.length_zipWith, ← h, Nat.min_self, rsRem, rsRem, ← h]

theorem rsRem_gfMul (g : List Nat) (n : Nat) (a : Byte) (msg : List Byte) :
    rsRem g n (msg.map (gfMul a)) = (rsRem g n msg).map (gfMul a) := by
  have hpad : msg.map (gfMul a) ++ List.replicate n 0#8 = (msg ++ List.replicate n 0#8).map (gfMul a) := by
    rw [List.map_append, List.map_replicate, gfMul_zero]
  rw [rsRem, hpad, List.length_map, divideSteps_gfMul, rsRem]

theorem rsRem_zero_cons (g : List Nat) (n : Nat) (msg : List Byte) :
    rsRem g n (0#8 :: msg) = rsRem g n msg := rfl

theorem rsRem_replicate_zero (g : List Nat) (n k : Nat) :
    rsRem g n (List.replicate k 0#8) = List.replicate n 0#8 := by
  induction k with
  | zero => rfl
  | succ k ih => rw [List.replicate_succ, rsRem_zero_cons, ih]

/-! ### The value of a polynomial -/

/-- Horner's rule started at `a`: the value at `x` of the polynomial that `a` leads and `cs` continues. -/
def polyValueFrom (x a : Byte) (cs : List Byte) : Byte := cs.foldl (fun acc c => gfMul acc x ^^^ c) a

theorem polyValueFrom_cons (x a c : Byte) (cs : List Byte) :
    polyValueFrom x a (c :: cs) = polyValueFrom x (gfMul a x ^^^ c) cs := rfl

theorem polyValue_cons (x c : Byte) (cs : List Byte) : polyValue x (c :: cs) = polyValueFrom x c cs := by
  change polyValueFrom x (gfMul 0#8 x ^^^ c) cs = polyValueFrom x c cs
  rw [zero_gfMul, BitVec.zero_xor]

theorem polyValue_append (x : Byte) (cs ds : List Byte) :
    polyValue x (cs ++ ds) = polyValueFrom x (polyValue x cs) ds := List.foldl_append

theorem polyValueFrom_xor (x a b : Byte) {cs ds : List Byte} (h : cs.length = ds.length) :
    polyValueFrom x (a ^^^ b) (List.zipWith (· ^^^ ·) cs ds) = polyValueFrom x a cs ^^^ polyValueFrom x b ds := by
  induction cs generalizing a b ds with
  | nil =>
    cases ds with
    | nil => rfl
    | cons d ds => cases h
  | cons c cs ih =>
    cases ds with
    | nil => cases h
    | cons d ds =>
      have hstep : gfMul (a ^^^ b) x ^^^ (c ^^^ d) = (gfMul a x ^^^ c) ^^^ (gfMul b x ^^^ d) := by
        rw [xor_gfMul]
        ac_rfl
      rw [List.zipWith_cons_cons, polyValueFrom_cons, hstep, ih _ _ (Nat.succ.inj h)]
      rfl

theorem polyValueFrom_gfMul (x a b : Byte) (cs : List Byte) :
    polyValueFrom x (gfMul a b) (cs.map (gfMul a)) = gfMul a (polyValueFrom x b cs) := by
  induction cs generalizing b with
  | nil => rfl
  | cons c cs ih => rw [List.map_cons, polyValueFrom_cons, gfMul_assoc, ← gfMul_xor, ih, polyValueFrom_cons]

theorem polyValue_map_gfMul (x a : Byte) (p : List Byte) :
    polyValue x (p.map (gfMul a)) = gfMul a (polyValue x p) := by
  have h := polyValueFrom_gfMul x a 0#8 p
  rwa [gfMul_zero] at h

/-- The value of a product by a linear factor (R130). -/
theorem polyValue_timesLinear (x a : Byte) (p : List Byte) :
    polyValue x (timesLinear a p) = gfMul (polyValue x p) (x ^^^ a) := by
  have hlen : (p ++ [0#8]).length = (0#8 :: p.map (gfMul a)).length := by simp
  have hshift : polyValue x (p ++ [0#8]) = gfMul (polyValue x p) x :=
    (polyValue_append x p [0#8]).trans (BitVec.xor_zero)
  have hscale : polyValue x (0#8 :: p.map (gfMul a)) = gfMul (polyValue x p) a := by
    rw [gfMul_comm, ← polyValue_map_gfMul]
    exact polyValue_cons x 0#8 _
  calc polyValue x (timesLinear a p)
      = polyValue x (p ++ [0#8]) ^^^ polyValue x (0#8 :: p.map (gfMul a)) := polyValueFrom_xor x 0#8 0#8 hlen
    _ = gfMul (polyValue x p) (x ^^^ a) := by rw [hshift, hscale, gfMul_xor]

/-- What stands before a run of codewords adds its own value, moved up by as many places. -/
theorem polyValueFrom_eq_xor_polyValue (x a : Byte) (cs : List Byte) :
    polyValueFrom x a cs = polyValueFrom x a (List.replicate cs.length 0#8) ^^^ polyValue x cs := by
  have hzero : List.zipWith (· ^^^ ·) (List.replicate cs.length 0#8) cs = cs :=
    List.ext_getElem (by simp) (by simp)
  have h := polyValueFrom_xor x a 0#8 (cs := List.replicate cs.length 0#8) (ds := cs) List.length_replicate
  rwa [hzero, BitVec.xor_zero] at h

/-! ### The division keeps the value at a root of the generator -/

/-- At `x`, where `b` followed by `ps` has the value 0, the multiple of `ps` weighs what the multiple of `b` does
in front of it. -/
theorem polyValueFrom_addMultiple {x b : Byte} {ps rs : List Byte} (hroot : polyValueFrom x b ps = 0#8)
    (hlen : ps.length ≤ rs.length) (a c : Byte) :
    polyValueFrom x a (addMultiple c ps rs) = polyValueFrom x (a ^^^ gfMul c b) rs := by
  induction ps generalizing a b rs with
  | nil =>
    have hb : b = 0#8 := hroot
    rw [hb, gfMul_zero, BitVec.xor_zero, addMultiple]
  | cons p ps ih =>
    cases rs with
    | nil => cases hlen
    | cons r rs =>
      have hstep : gfMul a x ^^^ (r ^^^ gfMul c p) ^^^ gfMul c (gfMul b x ^^^ p) =
          gfMul (a ^^^ gfMul c b) x ^^^ r := by
        rw [gfMul_xor, ← gfMul_assoc, xor_gfMul]
        calc gfMul a x ^^^ (r ^^^ gfMul c p) ^^^ (gfMul (gfMul c b) x ^^^ gfMul c p)
            = gfMul a x ^^^ gfMul (gfMul c b) x ^^^ r ^^^ (gfMul c p ^^^ gfMul c p) := by ac_rfl
          _ = gfMul a x ^^^ gfMul (gfMul c b) x ^^^ r := by rw [BitVec.xor_self, BitVec.xor_zero]
      rw [addMultiple, polyValueFrom_cons, ih hroot (Nat.le_of_succ_le_succ hlen), hstep, polyValueFrom_cons]

/-- `x` is a root of the monic polynomial whose log-exponents below the leading one are the tail of `g` (R130). -/
def IsRoot (g : List Nat) (x : Byte) : Prop := polyValueFrom x 1#8 (g.tail.map gfExp) = 0#8

theorem polyValue_divideStep {g : List Nat} {x : Byte} (hroot : IsRoot g x) {rem : List Byte}
    (hlen : g.tail.length < rem.length) : polyValue x (divideStep g rem) = polyValue x rem := by
  cases rem with
  | nil => rfl
  | cons lead rest =>
    have hrest : (g.tail.map gfExp).length ≤ rest.length := by
      rw [List.length_map]
      exact Nat.le_of_lt_succ hlen
    calc polyValue x (divideStep g (lead :: rest))
        = polyValue x (addMultiple lead (g.tail.map gfExp) rest) := by rw [divideStep_cons]
      _ = polyValueFrom x (0#8 ^^^ gfMul lead 1#8) rest := polyValueFrom_addMultiple hroot hrest 0#8 lead
      _ = polyValue x (lead :: rest) := by rw [gfMul_comm, one_gfMul, BitVec.zero_xor, polyValue_cons]

theorem polyValue_divideSteps {g : List Nat} {x : Byte} (hroot : IsRoot g x) {k : Nat} {rem : List Byte}
    (hlen : g.tail.length + k ≤ rem.length) : polyValue x (divideSteps g k rem) = polyValue x rem := by
  induction k generalizing rem with
  | zero => rfl
  | succ k ih =>
    have hstep := divideStep_length g rem
    rw [divideSteps, ih (by omega), polyValue_divideStep hroot (by omega)]

/-- The message, moved up by `n` places, and its remainder agree at the generator's roots (R133). -/
theorem polyValue_rsRem {g : List Nat} {x : Byte} (hroot : IsRoot g x) {n : Nat} (hn : g.tail.length ≤ n)
    (msg : List Byte) : polyValue x (rsRem g n msg) = polyValue x (msg ++ List.replicate n 0#8) := by
  have hlen : g.tail.length + msg.length ≤ (msg ++ List.replicate n 0#8).length := by
    rw [List.length_append, List.length_replicate]
    omega
  exact polyValue_divideSteps hroot hlen

theorem polyValue_append_rsRem {g : List Nat} {x : Byte} (hroot : IsRoot g x) {n : Nat} (hn : g.tail.length ≤ n)
    (msg : List Byte) : polyValue x (msg ++ rsRem g n msg) = 0#8 := by
  rw [polyValue_append, polyValueFrom_eq_xor_polyValue, rsRem_length, ← polyValue_append,
    polyValue_rsRem hroot hn, BitVec.xor_self]

/-! ### The generator and its roots -/

theorem generatorProduct_succ (n : Nat) :
    generatorProduct (n + 1) = timesLinear (expAt n) (generatorProduct n) := by
  rw [generatorProduct, List.range_succ, List.foldl_append]
  rfl

/-- Each factor brings its root, and the factors after it keep it (R130). -/
theorem polyValue_generatorProduct {i n : Nat} (h : i < n) : polyValue (expAt i) (generatorProduct n) = 0#8 := by
  induction n with
  | zero => omega
  | succ n ih =>
    rw [generatorProduct_succ, polyValue_timesLinear]
    rcases Nat.lt_succ_iff_lt_or_eq.1 h with hlt | rfl
    · rw [ih hlt, zero_gfMul]
    · rw [BitVec.xor_self, gfMul_zero]

/-- The GEN ROM, row by row (R130). -/
theorem genTable_rows : ∀ e ∈ genTable, e.2.length = e.1 + 1 ∧ (∀ x ∈ e.2, x < 255) ∧ e.2.head? = some 0 ∧
    e.2.map expAt = generatorProduct e.1 := by
  decide +kernel

theorem isSome_genRow_iff (n : Nat) : (genRow n).isSome = true ↔ n ∈ keyList := by
  have hkeys : keyList = genTable.map Prod.fst := rfl
  simp [hkeys, genRow, List.lookup_isSome_iff]

/-- The roots of a row are those of the product it lists. -/
theorem isRoot_of_genRow {n : Nat} {g : List Nat} (h : genRow n = some g) {i : Nat} (hi : i < n) :
    IsRoot g (expAt i) := by
  obtain ⟨-, hlt, hhead, hproduct⟩ := genTable_rows _ (genRow_mem h)
  obtain ⟨gs, rfl⟩ := List.head?_eq_some_iff.1 hhead
  have hexp : gs.map gfExp = gs.map expAt :=
    List.map_congr_left fun e he => congrArg expAt (Nat.mod_eq_of_lt (hlt e (List.mem_cons_of_mem 0 he)))
  have hvalue := polyValue_generatorProduct hi
  rw [← hproduct, List.map_cons, polyValue_cons] at hvalue
  rw [IsRoot, List.tail_cons, hexp]
  exact hvalue

/-! ### The statements about the divider -/

/-- Settles O17: the keys are the first components of GEN, and each row is multiplied out. -/
theorem genRowsAreProducts : Obligations.GenRowsAreProducts :=
  ⟨isSome_genRow_iff, fun _ _ h => genTable_rows _ (genRow_mem h)⟩

/-- Settles O18: each of the `len(msg)` turns drops one of the `len(msg) + n` codewords. -/
theorem rsRemainderLength : Obligations.RsRemainderLength :=
  fun n g msg _ => rsRem_length g n msg

/-- Settles O19: every turn is linear, and a turn with a leading 0 only drops it. -/
theorem rsRemainderLinear : Obligations.RsRemainderLinear :=
  fun n g _ => ⟨fun _ _ h => rsRem_xor g n h, rsRem_gfMul g n, rsRem_zero_cons g n, rsRem_replicate_zero g n⟩

/-- Settles O20: every turn keeps the value at a root of the generator. -/
theorem rsCodewordHasGeneratorRoots : Obligations.RsCodewordHasGeneratorRoots := by
  intro n g msg h i hi
  obtain ⟨hlength, -⟩ := genTable_rows _ (genRow_mem h)
  refine polyValue_append_rsRem (isRoot_of_genRow h hi) ?_ msg
  rw [List.length_tail, hlength]
  exact le_rfl

/-! ### The command -/

theorem rsEncodeResult_of_genRow_none {n : Byte} (h : genRow n.toNat = none) (off len : Byte) (s : State) :
    rsEncodeResult off len n s = .error .cfgEcKey := by
  rw [rsEncodeResult, h]

theorem rsEncodeResult_of_bufEntries_lt {off len n : Byte} {g : List Nat} (h : genRow n.toNat = some g)
    (hrange : bufEntries < off.toNat + len.toNat) (s : State) :
    rsEncodeResult off len n s = .error .ovfRange := by
  rw [rsEncodeResult, h]
  exact if_pos hrange

theorem rsEncodeResult_of_le_bufEntries {off len n : Byte} {g : List Nat} (h : genRow n.toNat = some g)
    (hrange : off.toNat + len.toNat ≤ bufEntries) (s : State) :
    rsEncodeResult off len n s = .ok (s.writeCells (cellsFrom (BufferId.base .ecOut)
      (rsRem g n.toNat (s.message off.toNat len.toNat)))) := by
  rw [rsEncodeResult, h]
  exact if_neg (Nat.not_lt.2 hrange)

/-- The entries a run of codewords is written to hold it. -/
theorem entry_writeCells_cellsFrom (s : State) (b : BufferId) {bytes : List Byte} {j : Nat}
    (hj : j < bytes.length) : some ((s.writeCells (cellsFrom b.base bytes)).entry b j) = bytes[j]? := by
  rw [State.entry, State.readByte_writeCells, entryAddr, find_cellsFrom_slot, List.getElem?_eq_getElem hj,
    Option.getD_some]

/-- The bytes elsewhere are as they were. -/
theorem readByte_writeCells_cellsFrom (s : State) (b : BufferId) {bytes : List Byte}
    (hlen : bytes.length ≤ bufEntries) {a : Nat} (ha : ∀ j < bytes.length, a ≠ entryAddr b j) :
    (s.writeCells (cellsFrom b.base bytes)).readByte a = s.readByte a := by
  refine readByte_writeCells_of_not_mem (wf_cellsFrom b hlen) s fun e he hea => ?_
  obtain ⟨j, hj, hej⟩ := mem_cellsFrom_base he
  exact ha j hj (hea.symm.trans hej)

/-- Settles O6: the two checks in order, and the commit of the remainder by the laws of a run of codewords. -/
theorem rsEncodeCommand : Obligations.RsEncodeCommand := by
  refine ⟨fun off len n s => ?checks, fun w ho => ?decode⟩
  case checks =>
    simp only [← isSome_genRow_iff, exec_eq_conclude, commandResult]
    refine ⟨fun hkey => ?noKey, fun hkey hrange => ?range, fun hkey hrange => ?commit⟩
    case noKey =>
      rw [rsEncodeResult_of_genRow_none (Option.not_isSome_iff_eq_none.1 hkey)]
      rfl
    case range =>
      obtain ⟨g, hg⟩ := Option.isSome_iff_exists.1 hkey
      rw [rsEncodeResult_of_bufEntries_lt hg hrange]
      rfl
    case commit =>
      obtain ⟨g, hg⟩ := Option.isSome_iff_exists.1 hkey
      have hn := keys_lt _ (mem_keys_of_genRow hg)
      have hlen := rsRem_length g n.toNat (s.message off.toNat len.toNat)
      rw [rsEncodeResult_of_le_bufEntries hg hrange, conclude_ok, ← State.message_eq s hrange]
      refine ⟨g, _, hg, rfl, fun j hj => ?entry, fun a ha => ?frame, rfl⟩
      case entry => exact entry_writeCells_cellsFrom s .ecOut (hlen.symm ▸ hj)
      case frame =>
        refine readByte_writeCells_cellsFrom s .ecOut ?_ (hlen.symm ▸ ha)
        rw [hlen, bufEntries]
        omega
  case decode => exact (decode_eq_ite_of_row 5 rfl ho).trans (if_pos (BitVec.eq_of_zero_length rfl))

end Sys2Proof.Machine
end

section
/-! PROOFS. The BCH encoder and BCH_ENCODE. The division of R140 and the carry-less division of R144 agree on the 32
messages. A turn of the latter adds a multiple of the generator where one bit, an additive function, is set; so the
remainder is additive, and BchParity with it. -/

namespace Sys2Proof.Machine

/-! ### The carry-less division -/

/-- One turn of `carrylessRemainder`: clear bit `i` by the generator shifted to it (R144). -/
def clearBit (r i : Nat) : Nat := if r.testBit i then r ^^^ (0x537 <<< (i - 10)) else r

theorem carrylessRemainder_eq_foldl (a : Nat) : carrylessRemainder a = [14, 13, 12, 11, 10].foldl clearBit a := rfl

theorem clearBit_xor (a b i : Nat) : clearBit a i ^^^ clearBit b i = clearBit (a ^^^ b) i := by
  unfold clearBit
  rw [Nat.testBit_xor]
  generalize 0x537 <<< (i - 10) = g
  cases a.testBit i <;> cases b.testBit i
  case false.false => rfl
  case false.true => exact (Nat.xor_assoc a b g).symm
  case true.false => exact Nat.xor_right_comm a g b
  case true.true =>
    calc a ^^^ g ^^^ (b ^^^ g) = a ^^^ b ^^^ (g ^^^ g) := by ac_rfl
      _ = a ^^^ b := by rw [Nat.xor_self, Nat.xor_zero]

theorem carrylessRemainder_xor (a b : Nat) :
    carrylessRemainder (a ^^^ b) = carrylessRemainder a ^^^ carrylessRemainder b := by
  simp only [carrylessRemainder_eq_foldl]
  exact List.foldl_hom₂ _ (· ^^^ ·) clearBit clearBit clearBit a b clearBit_xor

/-! ### The parity and the format word -/

/-- The remainder of each of the 32 messages, left-padded (R140). -/
theorem bchParity_bitsOf : ∀ m < 32, (bchParity (bitsOf 5 m)).length = 10 ∧
    bitsValue (bchParity (bitsOf 5 m)) = carrylessRemainder (m <<< 10) := by
  decide

theorem bitsValue_bchParity {m : Nat} (h : m < 32) :
    bitsValue (bchParity (bitsOf 5 m)) = carrylessRemainder (m <<< 10) := (bchParity_bitsOf m h).2

/-- Settles O22: BchParity is additive because the carry-less remainder is. -/
theorem bchParityIsRemainder : Obligations.BchParityIsRemainder := by
  refine ⟨bchParity_bitsOf, fun a ha b hb => ?_⟩
  have hab : a ^^^ b < 32 := Nat.xor_lt_two_pow (n := 5) ha hb
  rw [bitsValue_bchParity hab, bitsValue_bchParity ha, bitsValue_bchParity hb, Nat.shiftLeft_xor_distrib,
    carrylessRemainder_xor]

/-- Settles O21, by evaluating the encoder on the 32 messages. -/
theorem formatWordTable : Obligations.FormatWordTable := by
  unfold Obligations.FormatWordTable
  decide

/-! ### The command -/

/-- Settles O7: RESULT is the one output, M5 has five bits, and the word is of row 6. -/
theorem bchEncodeCommand : Obligations.BchEncodeCommand :=
  ⟨fun ecl maskId s => ⟨formatWord_lt (by omega),
      (exec_eq_conclude (.bchEncode ecl maskId) s).trans (conclude_setResult s _)⟩,
    rfl, fun _ => decode_eq_ite_of_row 6 rfl⟩

end Sys2Proof.Machine
end

section
/-! PROOFS. The grid commands and the standard grid. A commit over a grid is read cell by cell: a clearing commit
holds Unset at every cell, the commit of PLACE the placed bit or the slack fill. The traversal visits vacant cells
only, and on a cleared layer the fill reaches every vacant cell it left out. The standard pattern is set tile by
tile, and the vacant cells of a version are the rest of its square. -/

namespace Sys2Proof.Machine

/-! ### CLEAR_REF and CLEAR_DATA -/

theorem cell_clearGrid (s : State) (g : GridId) {r c : Nat} (hr : r < maxSide) (hc : c < maxSide) :
    (s.clearGrid g).cell g r c = .unset := by
  rw [clearGrid_eq, State.cell, State.readByte_writeCells, find_gridCells g (by decide) hr hc]
  exact QrModule.ofCode_code .unset

/-- A byte outside the cleared grid's cells is as it was (R151, R152). -/
theorem readByte_clearGrid_of_ne (s : State) {g : GridId} {a : Nat}
    (ha : ∀ r < maxSide, ∀ c < maxSide, a ≠ cellAddr g r c) : (s.clearGrid g).readByte a = s.readByte a := by
  rw [clearGrid_eq, State.readByte_writeCells,
    find_gridCells_none g (by decide) fun r hr c hc _ => ha r hr c hc, Option.getD_none]

/-- A command that computes a cleared grid completes with it and changes nothing else (R224). -/
theorem exec_of_clearGrid {i : Instr} {s : State} {g : GridId} (h : commandResult i s = .ok (s.clearGrid g)) :
    ∃ t, exec i s = .next t ∧
      (∀ r < maxSide, ∀ c < maxSide, t.cell g r c = .unset) ∧
      (∀ a, (∀ r < maxSide, ∀ c < maxSide, a ≠ cellAddr g r c) → t.readByte a = s.readByte a) ∧
      { t with mem := s.mem } = s.afterSuccess := by
  refine ⟨(s.clearGrid g).afterSuccess, by rw [exec_eq_conclude, h, conclude_ok],
    fun r hr c hc => ?_, fun a ha => ?_, rfl⟩
  · rw [State.cell_afterSuccess, cell_clearGrid s g hr hc]
  · rw [State.readByte_afterSuccess, readByte_clearGrid_of_ne s ha]

/-- Settles O8: the command computes REF cleared, and the word is of row 7. -/
theorem clearRefCommand : Obligations.ClearRefCommand :=
  ⟨fun _ => exec_of_clearGrid rfl, fun _ => decode_eq_ite_of_row 7 rfl⟩

/-- Settles O9: the command computes DATA cleared, and the word is of row 8. -/
theorem clearDataCommand : Obligations.ClearDataCommand :=
  ⟨fun _ => exec_of_clearGrid rfl, fun _ => decode_eq_ite_of_row 8 rfl⟩

/-! ### The cells of the traversal -/

/-- The placer's vacancy test is that of the state (R180). -/
theorem vacantIn_grid (s : State) {side : Nat} (h : side ≤ maxSide) :
    vacantIn (s.grid .ref) side = s.vacant side := by
  funext r c
  rw [vacantIn, State.vacant]
  by_cases hr : r < side
  · by_cases hc : c < side
    · rw [State.moduleAt_grid s .ref (by omega) (by omega)]
    · simp [hc]
  · simp [hr]

/-- A traversal of at least one bit starts at a vacant cell and goes on from its advance (R186). -/
theorem zigzag_succ_ok {vac : Nat → Nat → Bool} {side n : Nat} {t : Trav} {cells : List (Nat × Nat)}
    (h : zigzag vac side (n + 1) t = .ok cells) :
    vac t.row t.col = true ∧ ∃ t' rest, (n ≠ 0 → advance vac side t = .ok t') ∧
      zigzag vac side n t' = .ok rest ∧ cells = (t.row, t.col) :: rest := by
  rw [zigzag] at h
  split at h
  case isFalse => cases h
  case isTrue hvac =>
    refine ⟨hvac, ?_⟩
    split at h
    case isTrue hn =>
      subst hn
      exact ⟨t, [], fun h0 => absurd rfl h0, rfl, (Except.ok.inj h).symm⟩
    case isFalse =>
      split at h
      · cases h
      · split at h
        · cases h
        · exact ⟨_, _, fun _ => by assumption, by assumption, (Except.ok.inj h).symm⟩

/-- The traversal visits vacant cells only (R188, property 2). -/
theorem vacant_of_mem_zigzag {vac : Nat → Nat → Bool} {side n : Nat} {t : Trav} {cells : List (Nat × Nat)}
    (h : zigzag vac side n t = .ok cells) : ∀ p ∈ cells, vac p.1 p.2 = true := by
  induction n generalizing t cells with
  | zero => simp [← Except.ok.inj h]
  | succ n ih =>
    obtain ⟨hvac, t', rest, -, hrest, rfl⟩ := zigzag_succ_ok h
    exact List.forall_mem_cons.2 ⟨hvac, ih hrest⟩

/-! ### PLACE on a cleared layer -/

/-- A cell of DATA after PLACE's commit: what PLACE puts there, or what stood there (R186, R187). -/
theorem cell_placeCommit (s : State) (placed : List ((Nat × Nat) × Bool)) {side r c : Nat} (h : side ≤ maxSide)
    (hr : r < side) (hc : c < side) : (placeCommit side placed s).cell .data r c =
      (placedModule s placed r c).getD (s.cell .data r c) := by
  have hwrite : (placeCommit side placed s).readByte (cellAddr .data r c) =
      ((placedModule s placed r c).map QrModule.code).getD (s.readByte (cellAddr .data r c)) := by
    rw [← find_gridCells .data (le_trans h (by decide)) hr hc
        (fun r c => (placedModule s placed r c).map QrModule.code), ← placeCells_eq s placed h,
      ← State.readByte_writeCells]
    rfl
  rw [State.cell, hwrite]
  cases placedModule s placed r c with
  | none => rfl
  | some m => exact QrModule.ofCode_code m

/-- Where the placed cells are vacant and DATA is Unset, PLACE puts a module exactly on the vacant cells: a bit,
or the slack fill. -/
theorem isUnset_placedModule {s : State} {placed : List ((Nat × Nat) × Bool)} {r c : Nat}
    (hplaced : ∀ b, ((r, c), b) ∈ placed → (s.cell .ref r c).isUnset = true)
    (hdata : s.cell .data r c = .unset) :
    ((placedModule s placed r c).getD .unset).isUnset = !(s.cell .ref r c).isUnset := by
  rw [placedModule, hdata]
  cases hl : placed.lookup (r, c) with
  | some b =>
    obtain ⟨before, after, rfl, -⟩ := List.lookup_eq_some_iff.1 hl
    rw [hplaced b (by simp)]
    exact QrModule.isUnset_ofBit b
  | none => cases (s.cell .ref r c).isUnset <;> rfl

/-- Settles O30: a placed bit's cell is vacant, every other vacant cell is slack, and REF is not written. -/
theorem placeFillsExactlyTheVacantCells : Obligations.PlaceFillsExactlyTheVacantCells := by
  intro s t _ hcleared hexec herr r hr c hc
  rw [exec_eq_conclude] at hexec
  obtain ⟨u, hu, rfl⟩ | ⟨e, -, rfl⟩ := conclude_cases hexec
  case inr => cases herr
  case inl =>
    have hcommits := commits_of_commandResult hu
    obtain ⟨cells, -, hv, -, hzigzag, rfl⟩ := placeResult_ok hu
    have hside := sideOf_le hv
    have href := hcommits.cell_eq (g := .ref) (by decide) (lt_of_lt_of_le hr hside) (lt_of_lt_of_le hc hside)
    have hplaced (b : Bool) (hb : ((r, c), b) ∈ cells.zip (s.sequence s.csr.seqNbits.toNat)) :
        (s.cell .ref r c).isUnset = true := by
      have hvac := vacant_of_mem_zigzag hzigzag (r, c) (List.of_mem_zip hb).1
      rw [vacantIn_grid s hside, State.vacant, Bool.and_eq_true] at hvac
      exact hvac.2
    have hdata := hcleared r hr c hc
    rw [State.cell_afterSuccess, State.cell_afterSuccess, href, cell_placeCommit s _ hside hr hc, hdata,
      isUnset_placedModule hplaced hdata, Bool.not_eq_false']

/-! ### The standard grid -/

/-- The number of cells of StdRef(v) (R156). -/
def stdRefCount (v : Nat) : Nat := ((square (sideOf v)).filter (fun p => stdRef v p.1 p.2)).length

theorem length_square (side : Nat) : (square side).length = side * side := by
  simp [square]

theorem stdVacant_eq_not_stdRef {v r c : Nat} (hr : r < sideOf v) (hc : c < sideOf v) :
    stdVacant v r c = !stdRef v r c := by
  simp [stdVacant, hr, hc]

/-- The vacant cells of the standard grid are the rest of its square. -/
theorem stdRefCount_add_stdVacantCount (v : Nat) : stdRefCount v + stdVacantCount v = sideOf v * sideOf v := by
  have hvacant : (square (sideOf v)).filter (fun p => stdVacant v p.1 p.2) =
      (square (sideOf v)).filter (fun p => !stdRef v p.1 p.2) :=
    List.filter_congr fun _ hp => by
      obtain ⟨hr, hc⟩ := mem_square.1 hp
      exact stdVacant_eq_not_stdRef hr hc
  rw [stdRefCount, stdVacantCount, hvacant, ← List.length_eq_length_filter_add, length_square]

/-- The sizes of the six reserved sets, by evaluation (R156). -/
theorem map_stdRefCount : [1, 2, 3, 4, 5, 6].map stdRefCount = [233, 266, 274, 282, 290, 298] := by
  decide +kernel

theorem isUnset_alignmentAt (side r c : Nat) : (alignmentAt side r c).isUnset = false := by
  rw [alignmentAt]
  split <;> rfl

theorem isUnset_markerModule (r0 c0 r c : Nat) : (markerModule r0 c0 r c).isUnset = false := by
  rw [markerModule]
  split
  · split <;> rfl
  · rfl

/-- Pat(v, F) is set exactly on StdRef(v): each layer of the pattern is set on its own cells, and the reserved set
is the union of these (R156, R158). -/
theorem isUnset_patternAt (v f r c : Nat) : (patternAt v f r c).isUnset = !stdRef v r c := by
  rw [patternAt, stdRef]
  split
  case isTrue hout => rcases hout with h | h <;> simp [Nat.not_lt.2 h, QrModule.isUnset]
  case isFalse hin =>
    obtain ⟨hr, hc⟩ := not_or.1 hin
    simp only [Nat.not_le.1 hr, Nat.not_le.1 hc, decide_true, Bool.true_and]
    cases hformat : formatBit (sideOf v) r c with
    | some k => simp [QrModule.isUnset_ofBit]
    | none =>
      dsimp only
      split_ifs with hdark halignment hmarker hrow hcolumn
      · simp [hdark, QrModule.isUnset]
      · simp [halignment, isUnset_alignmentAt]
      · simp [hmarker, markerAt, isUnset_markerModule]
      · simp [hrow, QrModule.isUnset_ofBit]
      · simp [hcolumn, QrModule.isUnset_ofBit]
      · simp [not_and_or.1 hdark, halignment, hmarker, hrow, hcolumn, QrModule.isUnset]

/-- Settles O60: the reserved sets are counted by evaluation, the vacant ones are the rest of the square. -/
theorem standardReservedSet : Obligations.StandardReservedSet := by
  refine ⟨map_stdRefCount, ?vacant, fun v f r c _ _ => ?pattern⟩
  case vacant =>
    have hvacant : stdVacantCount = fun v => sideOf v * sideOf v - stdRefCount v := funext fun v => by
      rw [← stdRefCount_add_stdVacantCount, Nat.add_sub_cancel_left]
    have hcounts := map_stdRefCount
    simp only [List.map_cons, List.map_nil, List.cons.injEq] at hcounts
    simp [hvacant, hcounts, sideOf]
  case pattern => rw [isUnset_patternAt, Bool.not_eq_false']

end Sys2Proof.Machine
end

section
/-! PROOFS. The block interleaver and INTERLEAVE. The blocks are consecutive runs whose lengths are the layout's
DCOUNTs, so their codewords together are DATA_IN's first DATA_LEN entries. The columns are a permutation of the blocks'
codewords, and where every block reaches column i, block b's codeword of it stands at i·B + b. What the commit leaves
in SEQ and EC_OUT is read off its list of cells once; the statements follow from these. -/

namespace Sys2Proof.Machine

/-! ### The block list -/

/-- Consecutive runs of the lengths `lengths`, the first from `pos` on: (start, length) of each. -/
def runsFrom (pos : Nat) : List Nat → List (Nat × Nat)
  | [] => []
  | n :: ns => (pos, n) :: runsFrom (pos + n) ns

/-- The blocks' lengths in layout order, DCOUNT once for each repeat (R170). -/
def blockLengths (layout : List (Nat × Nat)) : List Nat := layout.flatMap (fun p => List.replicate p.2 p.1)

/-- The first repeat of a layout entry, and the others after it. -/
theorem blocksFrom_cons_succ (pos d rep : Nat) (es : List (Nat × Nat)) :
    blocksFrom pos ((d, rep + 1) :: es) = (pos, d) :: blocksFrom (pos + d) ((d, rep) :: es) := by
  have hstart (t : Nat) : pos + d * (t + 1) = pos + d + d * t := by rw [Nat.mul_succ]; omega
  simp [blocksFrom, List.range_succ_eq_map, Function.comp_def, hstart]

theorem blocksFrom_eq_runsFrom (pos : Nat) (layout : List (Nat × Nat)) :
    blocksFrom pos layout = runsFrom pos (blockLengths layout) := by
  induction layout generalizing pos with
  | nil => rfl
  | cons p es ih =>
    obtain ⟨d, rep⟩ := p
    induction rep generalizing pos with
    | zero => exact ih pos
    | succ rep ihRep =>
      rw [blocksFrom_cons_succ, ihRep]
      rfl

theorem map_snd_runsFrom (pos : Nat) (ns : List Nat) : (runsFrom pos ns).map Prod.snd = ns := by
  induction ns generalizing pos with
  | nil => rfl
  | cons n ns ih => rw [runsFrom, List.map_cons, ih]

theorem map_snd_blocksFrom (pos : Nat) (layout : List (Nat × Nat)) :
    (blocksFrom pos layout).map Prod.snd = blockLengths layout := by
  rw [blocksFrom_eq_runsFrom, map_snd_runsFrom]

theorem sum_blockLengths (layout : List (Nat × Nat)) : (blockLengths layout).sum = layoutTotal layout := by
  rw [← map_snd_blocksFrom 0, sum_blocksFrom_lengths]

/-- A run starts where the runs before it end. -/
theorem start_of_getElem?_runsFrom {pos b start len : Nat} {ns : List Nat}
    (h : (runsFrom pos ns)[b]? = some (start, len)) : start = pos + (ns.take b).sum := by
  induction ns generalizing pos b with
  | nil => simp [runsFrom] at h
  | cons n ns ih =>
    cases b with
    | zero => exact (congrArg Prod.fst (Option.some.inj h)).symm
    | succ b => rw [ih h, List.take_succ_cons, List.sum_cons, Nat.add_assoc]

theorem end_le_of_mem_runsFrom {pos : Nat} {ns : List Nat} :
    ∀ r ∈ runsFrom pos ns, r.1 + r.2 ≤ pos + ns.sum := by
  induction ns generalizing pos with
  | nil => simp [runsFrom]
  | cons n ns ih =>
    rw [runsFrom, List.forall_mem_cons, List.sum_cons]
    refine ⟨by dsimp only; omega, fun r hr => ?_⟩
    have := ih r hr
    omega

/-- Reading run after run is reading from the first start to the last end. -/
theorem flatten_map_runsFrom (f : Nat → Byte) (pos : Nat) (ns : List Nat) :
    ((runsFrom pos ns).map (fun r => (List.range r.2).map (fun i => f (r.1 + i)))).flatten =
      (List.range ns.sum).map (fun i => f (pos + i)) := by
  induction ns generalizing pos with
  | nil => rfl
  | cons n ns ih =>
    rw [runsFrom, List.map_cons, List.flatten_cons, ih, List.sum_cons, List.range_add, List.map_append,
      List.map_map]
    simp [Function.comp_def, Nat.add_assoc]

/-- Settles O23: the block list is the runs of the layout's lengths. -/
theorem blockPartition : Obligations.BlockPartition := by
  refine fun layout => ⟨blocksFrom_length 0 layout, map_snd_blocksFrom 0 layout, fun b start len h => ?start,
    sum_blocksFrom_lengths 0 layout⟩
  case start =>
    rw [blocksFrom_eq_runsFrom] at h
    rw [List.map_take, map_snd_blocksFrom, start_of_getElem?_runsFrom h, Nat.zero_add]

/-! ### The columns -/

/-- Column `i` of the blocks: the codeword `i` of every block that reaches it (R171). -/
def column (i : Nat) (blocks : List (List Byte)) : List Byte := blocks.filterMap (fun b => b[i]?)

theorem columns_succ (h : Nat) (blocks : List (List Byte)) :
    columns (h + 1) blocks = columns h blocks ++ column h blocks := by
  simp [columns, column, List.range_succ]

/-- The first `h` columns hold the first `h` codewords of every block. -/
theorem columns_perm_take (h : Nat) (blocks : List (List Byte)) :
    (columns h blocks).Perm (blocks.flatMap (List.take h)) := by
  induction h with
  | zero => simp [columns]
  | succ h ih =>
    have htake : List.take (h + 1) = fun b : List Byte => b.take h ++ b[h]?.toList :=
      funext fun _ => List.take_add_one
    rw [columns_succ, column, List.filterMap_eq_flatMap_toList, htake]
    exact (ih.append_right _).trans (List.flatMap_append_perm _ _ _)

/-- Columns as high as every block hold all codewords. -/
theorem columns_perm_flatten {h : Nat} {blocks : List (List Byte)} (hh : ∀ b ∈ blocks, b.length ≤ h) :
    (columns h blocks).Perm blocks.flatten := by
  have htake : blocks.map (List.take h) = blocks.map id :=
    List.map_congr_left fun b hb => List.take_of_length_le (hh b hb)
  have hperm := columns_perm_take h blocks
  rwa [List.flatMap_def, htake, List.map_id] at hperm

theorem length_le_tallest {blocks : List (List Byte)} : ∀ b ∈ blocks, b.length ≤ tallest blocks := by
  intro b hb
  have htallest : tallest blocks = max 0 ((blocks.map List.length).max?.getD 0) := List.foldl_max
  rw [htallest]
  exact le_max_of_le_right (List.le_max?_getD_of_mem (List.mem_map_of_mem hb))

theorem length_columns_of_forall_le {h : Nat} {blocks : List (List Byte)} (hh : ∀ b ∈ blocks, h ≤ b.length) :
    (columns h blocks).length = h * blocks.length := by
  have hmin : blocks.map (fun b => min h b.length) = blocks.map (fun _ => h) :=
    List.map_congr_left fun b hb => Nat.min_eq_left (hh b hb)
  rw [columns_length, hmin, List.map_const', List.sum_replicate, smul_eq_mul, Nat.mul_comm]

/-- Column `i` stands after the `i` columns before it. -/
theorem append_column_isPrefix {i h : Nat} (hi : i < h) (blocks : List (List Byte)) :
    columns i blocks ++ column i blocks <+: columns h blocks := by
  rw [← columns_succ]
  have hrange : List.range (i + 1) <+: List.range h := by
    obtain ⟨k, rfl⟩ := Nat.exists_eq_add_of_le (Nat.succ_le_of_lt hi)
    rw [List.range_add (n := i + 1)]
    exact List.prefix_append _ _
  exact hrange.flatMap _

/-- Where every block reaches column `i`, it has one codeword of each block, in the blocks' order. -/
theorem getElem?_column_of_forall_lt {i : Nat} {blocks : List (List Byte)} (hi : ∀ b ∈ blocks, i < b.length)
    (b : Nat) : (column i blocks)[b]? = blocks[b]?.bind (fun x => x[i]?) := by
  have hcolumn : column i blocks = blocks.map (fun x => x.getD i 0#8) := by
    rw [column, ← List.filterMap_eq_map]
    exact List.filterMap_congr fun x hx => by simp [hi x hx]
  rw [hcolumn, List.getElem?_map]
  cases hb : blocks[b]? with
  | none => rfl
  | some x => simp [hi x (List.mem_of_getElem? hb)]

/-- Blocks that column `i` passes over hold no place in it (R171). -/
theorem getElem?_column_of_short {i short : Nat} {blocks : List (List Byte)}
    (hshort : ∀ b ∈ blocks.take short, b.length ≤ i) (hlong : ∀ b ∈ blocks.drop short, i < b.length) {b : Nat}
    (hb : short ≤ b) : (column i blocks)[b - short]? = blocks[b]?.bind (fun x => x[i]?) := by
  have hnone : column i (blocks.take short) = [] :=
    List.filterMap_eq_nil_iff.2 fun x hx => List.getElem?_eq_none (hshort x hx)
  have hdrop : column i blocks = column i (blocks.drop short) := by
    rw [← List.nil_append (column i (blocks.drop short)), ← hnone, column, column, column,
      ← List.filterMap_append, List.take_append_drop]
  rw [hdrop, getElem?_column_of_forall_lt hlong, List.getElem?_drop, Nat.add_sub_cancel' hb]

/-- Where every block has the codewords before column `i`, its `p`-th codeword stands at `i·B + p`. -/
theorem getElem?_columns {i h p : Nat} {blocks : List (List Byte)} {x : Byte} (hi : i < h)
    (hfull : ∀ b ∈ blocks, i ≤ b.length) (hx : (column i blocks)[p]? = some x) :
    (columns h blocks)[i * blocks.length + p]? = some x := by
  obtain ⟨rest, hrest⟩ := append_column_isPrefix hi blocks
  obtain ⟨hp, -⟩ := List.getElem?_eq_some_iff.1 hx
  rw [← hrest, List.append_assoc, ← length_columns_of_forall_le hfull,
    List.getElem?_append_right (Nat.le_add_right _ _), Nat.add_sub_cancel_left, List.getElem?_append_left hp, hx]

/-- In a concatenation of lists of one length, entry `j` of list `b` stands at `b·e + j`. -/
theorem getElem?_flatten_of_length_eq {e j : Nat} {blocks : List (List Byte)} (he : ∀ b ∈ blocks, b.length = e)
    (hj : j < e) (b : Nat) : blocks.flatten[b * e + j]? = blocks[b]?.bind (fun x => x[j]?) := by
  induction blocks generalizing b with
  | nil => simp
  | cons x xs ih =>
    obtain ⟨hx, hxs⟩ := List.forall_mem_cons.1 he
    cases b with
    | zero => simp [List.getElem?_append_left (hx.symm ▸ hj)]
    | succ b =>
      have hpos : (b + 1) * e + j = x.length + (b * e + j) := by rw [Nat.succ_mul, hx]; omega
      rw [List.flatten_cons, hpos, List.getElem?_append_right (Nat.le_add_right _ _), Nat.add_sub_cancel_left,
        ih hxs, List.getElem?_cons_succ]

/-! ### The command -/

/-- EC codewords per block, EC_TOTAL div B (R171). -/
def State.ecPerBlock (s : State) : Nat := s.csr.ecTotal.toNat / blockCount s.layout

/-- The blocks' EC codewords with the generator `g` (R171). -/
def State.ecBlocks (s : State) (g : List Nat) : List (List Byte) := s.dataBlocks.map (rsRem g s.ecPerBlock)

/-- The data columns. -/
def State.dataColumns (s : State) : List Byte := columns (tallest s.dataBlocks) s.dataBlocks

/-- The EC columns. -/
def State.ecColumns (s : State) (g : List Nat) : List Byte := columns s.ecPerBlock (s.ecBlocks g)

/-- The cells INTERLEAVE commits. -/
def State.interleaveCells (s : State) (g : List Nat) : List Host.Cell :=
  cellsFrom (BufferId.base .ecOut) (s.ecBlocks g).flatten ++
    cellsFrom (BufferId.base .seq) (s.dataColumns ++ s.ecColumns g)

/-- The state after a successful INTERLEAVE whose blocks are encoded with `g`. -/
def State.afterInterleave (s : State) (g : List Nat) : State :=
  (interleaveCommit s.dataBlocks (s.ecBlocks g) (blockCount s.layout) s.ecPerBlock s).afterSuccess

/-- The six checks of INTERLEAVE pass, and `g` is the generator they find (R171). -/
structure InterleaveChecks (s : State) (g : List Nat) : Prop where
  one_le_layoutN : 1 ≤ s.csr.layoutN.toNat
  layoutN_le : s.csr.layoutN.toNat ≤ layoutEntries
  count_ne_zero : blockCount s.layout ≠ 0
  total_eq : layoutTotal s.layout = s.csr.dataLen.toNat
  mod_eq_zero : s.csr.ecTotal.toNat % blockCount s.layout = 0
  genRow_eq : genRow s.ecPerBlock = some g
  fits : s.csr.dataLen.toNat + s.csr.ecTotal.toNat ≤ bufEntries

/-- The first check passes for a LAYOUT_N of 1 to 4 (R30, R171). -/
theorem layoutN_legal {s : State} (h1 : 1 ≤ s.csr.layoutN.toNat) (h4 : s.csr.layoutN.toNat ≤ layoutEntries) :
    ¬ (s.csr.layoutN.toNat < 1 ∨ layoutEntries < s.csr.layoutN.toNat) := by
  omega

/-! ### What the blocks measure -/

theorem State.dataBlocks_eq (s : State) : s.dataBlocks =
    (runsFrom 0 (blockLengths s.layout)).map
      (fun r => (List.range r.2).map (fun i => s.entry .dataIn (r.1 + i))) := by
  rw [State.dataBlocks, blocksFrom_eq_runsFrom]

theorem State.map_length_dataBlocks (s : State) :
    s.dataBlocks.map List.length = (blocksFrom 0 s.layout).map Prod.snd := by
  simp [State.dataBlocks]

theorem State.length_dataBlocks (s : State) : s.dataBlocks.length = blockCount s.layout := by
  rw [State.dataBlocks, List.length_map, blocksFrom_length]

theorem State.length_ecBlocks (s : State) (g : List Nat) : (s.ecBlocks g).length = blockCount s.layout := by
  rw [State.ecBlocks, List.length_map, State.length_dataBlocks]

theorem State.length_of_mem_ecBlocks {s : State} {g : List Nat} : ∀ b ∈ s.ecBlocks g, b.length = s.ecPerBlock := by
  simp [State.ecBlocks]

theorem State.dataColumns_perm (s : State) : s.dataColumns.Perm s.dataBlocks.flatten :=
  columns_perm_flatten length_le_tallest

theorem State.ecColumns_perm (s : State) (g : List Nat) : (s.ecColumns g).Perm (s.ecBlocks g).flatten :=
  columns_perm_flatten fun b hb => (State.length_of_mem_ecBlocks b hb).le

namespace InterleaveChecks

variable {s : State} {g : List Nat}

theorem count_mul_ecPerBlock (h : InterleaveChecks s g) :
    blockCount s.layout * s.ecPerBlock = s.csr.ecTotal.toNat :=
  Nat.mul_div_cancel' (Nat.dvd_of_mod_eq_zero h.mod_eq_zero)

/-- The blocks cover DATA_IN's first DATA_LEN entries, in order. -/
theorem flatten_dataBlocks (h : InterleaveChecks s g) :
    s.dataBlocks.flatten = (List.range s.csr.dataLen.toNat).map (s.entry .dataIn) := by
  rw [State.dataBlocks_eq, flatten_map_runsFrom, sum_blockLengths, h.total_eq]
  simp only [Nat.zero_add]

/-- The blocks lie in DATA_IN, so the messages the command reads are the blocks. -/
theorem map_message_eq (h : InterleaveChecks s g) :
    (blocksFrom 0 s.layout).map (fun b => s.message b.1 b.2) = s.dataBlocks := by
  refine List.map_congr_left fun b hb => State.message_eq s ?_
  rw [blocksFrom_eq_runsFrom] at hb
  have hend := end_le_of_mem_runsFrom b hb
  rw [sum_blockLengths, h.total_eq] at hend
  have := h.fits
  omega

theorem length_dataColumns (h : InterleaveChecks s g) : s.dataColumns.length = s.csr.dataLen.toNat := by
  rw [s.dataColumns_perm.length_eq, h.flatten_dataBlocks, List.length_map, List.length_range]

theorem length_flatten_ecBlocks (h : InterleaveChecks s g) :
    (s.ecBlocks g).flatten.length = s.csr.ecTotal.toNat := by
  have hlengths : (s.ecBlocks g).map List.length = List.replicate (blockCount s.layout) s.ecPerBlock :=
    List.eq_replicate_iff.2 ⟨by rw [List.length_map, s.length_ecBlocks],
      List.forall_mem_map.2 State.length_of_mem_ecBlocks⟩
  rw [List.length_flatten, hlengths, List.sum_replicate, smul_eq_mul, h.count_mul_ecPerBlock]

theorem length_ecColumns (h : InterleaveChecks s g) : (s.ecColumns g).length = s.csr.ecTotal.toNat := by
  rw [(s.ecColumns_perm g).length_eq, h.length_flatten_ecBlocks]

theorem length_sequence (h : InterleaveChecks s g) :
    (s.dataColumns ++ s.ecColumns g).length = s.csr.dataLen.toNat + s.csr.ecTotal.toNat := by
  rw [List.length_append, h.length_dataColumns, h.length_ecColumns]

/-! ### What the commit leaves in memory -/

theorem wf_interleaveCells (h : InterleaveChecks s g) : Memory.wf (s.interleaveCells g) = true := by
  have hfits := h.fits
  refine wf_ecOut_append_seq ?_ ?_
  · rw [h.length_flatten_ecBlocks]
    omega
  · rw [h.length_sequence]
    exact hfits

end InterleaveChecks

theorem readByte_afterInterleave (s : State) (g : List Nat) (a : Nat) :
    (s.afterInterleave g).readByte a = (s.writeCells (s.interleaveCells g)).readByte a := rfl

/-- A byte that a commit lists is as listed. -/
theorem readByte_writeCells_of_mem {us : List Host.Cell} (hus : Memory.wf us = true) (s : State) {a : Nat} {x : Byte}
    (h : (a, x) ∈ us) : (s.writeCells us).readByte a = x := by
  rw [State.readByte_writeCells, (Memory.find_eq_some_iff ((Memory.wf_iff us).1 hus).1 a x).2 h, Option.getD_some]

theorem mem_cellsFrom_of_getElem? (b : BufferId) {bytes : List Byte} {k : Nat} {x : Byte} (h : bytes[k]? = some x) :
    (entryAddr b k, x) ∈ cellsFrom b.base bytes := by
  refine (Memory.find_eq_some_iff ?_ _ _).1 ((find_cellsFrom_slot b.base bytes k).trans h)
  rw [cellsFrom_addresses]
  exact slotsFrom_rising _ _

namespace InterleaveChecks

variable {s : State} {g : List Nat} {k : Nat} {x : Byte}

theorem entry_seq_of_getElem? (h : InterleaveChecks s g) (hk : (s.dataColumns ++ s.ecColumns g)[k]? = some x) :
    (s.afterInterleave g).entry .seq k = x := by
  rw [State.entry, readByte_afterInterleave]
  exact readByte_writeCells_of_mem h.wf_interleaveCells s
    (List.mem_append_right _ (mem_cellsFrom_of_getElem? .seq hk))

theorem entry_ecOut_of_getElem? (h : InterleaveChecks s g) (hk : (s.ecBlocks g).flatten[k]? = some x) :
    (s.afterInterleave g).entry .ecOut k = x := by
  rw [State.entry, readByte_afterInterleave]
  exact readByte_writeCells_of_mem h.wf_interleaveCells s
    (List.mem_append_left _ (mem_cellsFrom_of_getElem? .ecOut hk))

/-- A data column's codeword stands in SEQ where it stands among the data columns. -/
theorem entry_seq_of_dataColumns (h : InterleaveChecks s g) (hk : s.dataColumns[k]? = some x) :
    (s.afterInterleave g).entry .seq k = x :=
  h.entry_seq_of_getElem? <| by
    rw [List.getElem?_append_left (List.getElem?_eq_some_iff.1 hk).1, hk]

/-- An EC column's codeword stands in SEQ DATA_LEN entries further. -/
theorem entry_seq_of_ecColumns (h : InterleaveChecks s g) (hk : (s.ecColumns g)[k]? = some x) :
    (s.afterInterleave g).entry .seq (s.csr.dataLen.toNat + k) = x := by
  refine h.entry_seq_of_getElem? ?_
  rw [List.getElem?_append_right (h.length_dataColumns ▸ Nat.le_add_right _ k), h.length_dataColumns,
    Nat.add_sub_cancel_left, hk]

/-- Every byte outside the two runs is as it was (R171). -/
theorem readByte_frame (h : InterleaveChecks s g) {a : Nat}
    (hseq : ∀ k < s.csr.dataLen.toNat + s.csr.ecTotal.toNat, a ≠ entryAddr .seq k)
    (hec : ∀ k < s.csr.ecTotal.toNat, a ≠ entryAddr .ecOut k) :
    (s.afterInterleave g).readByte a = s.readByte a := by
  rw [readByte_afterInterleave]
  refine readByte_writeCells_of_not_mem h.wf_interleaveCells s fun e he hea => ?_
  rcases List.mem_append.1 he with he | he
  · obtain ⟨k, hk, hek⟩ := mem_cellsFrom_base he
    exact hec k (h.length_flatten_ecBlocks ▸ hk) (hea.symm.trans hek)
  · obtain ⟨k, hk, hek⟩ := mem_cellsFrom_base he
    exact hseq k (h.length_sequence ▸ hk) (hea.symm.trans hek)

/-- DATA_IN is not written (R171). -/
theorem entry_dataIn (h : InterleaveChecks s g) (hk : k < bufEntries) :
    (s.afterInterleave g).entry .dataIn k = s.entry .dataIn k := by
  have hfits := h.fits
  refine h.readByte_frame (fun j hj => ?_) (fun j hj => ?_) <;>
    exact entryAddr_ne_entryAddr (by decide) hk (by omega)

/-! ### The result of the checks -/

theorem interleaveResult_eq_ok (h : InterleaveChecks s g) : interleaveResult s =
    .ok (interleaveCommit s.dataBlocks (s.ecBlocks g) (blockCount s.layout) s.ecPerBlock s) := by
  have hn := layoutN_legal h.one_le_layoutN h.layoutN_le
  have hg : genRow (s.csr.ecTotal.toNat / blockCount s.layout) = some g := h.genRow_eq
  simp only [interleaveResult, if_neg hn, if_neg h.count_ne_zero, if_neg (not_not.2 h.total_eq),
    if_neg (not_not.2 h.mod_eq_zero), hg, if_neg (Nat.not_lt.2 h.fits), h.map_message_eq]
  rfl

theorem exec_eq (h : InterleaveChecks s g) : exec .interleave s = .next (s.afterInterleave g) := by
  rw [exec_eq_conclude, commandResult, h.interleaveResult_eq_ok, conclude_ok]
  rfl

end InterleaveChecks

/-- A successful INTERLEAVE passed its checks and left the commit (R171, R224). -/
theorem interleaveChecks_of_exec {s t : State} (hexec : exec .interleave s = .next t)
    (herr : t.status.err = false) : ∃ g, InterleaveChecks s g ∧ t = s.afterInterleave g := by
  rw [exec_eq_conclude] at hexec
  obtain ⟨u, hu, rfl⟩ | ⟨e, -, rfl⟩ := conclude_cases hexec
  case inr => cases herr
  case inl =>
    obtain ⟨g, hg, hpos, hle, hcount, htotal, hmod, hfits, rfl⟩ := interleaveResult_ok hu
    have h : InterleaveChecks s g := ⟨hpos, hle, hcount, htotal, hmod, hg, hfits⟩
    exact ⟨g, h, by rw [h.map_message_eq]; rfl⟩

/-! ### The permutations -/

/-- A list read off entry by entry. -/
theorem map_range_eq_of_getElem? {f : Nat → Byte} {l : List Byte} (h : ∀ k x, l[k]? = some x → f k = x) :
    (List.range l.length).map f = l := by
  refine List.ext_getElem (by simp) fun k hk hl => ?_
  rw [List.getElem_map, List.getElem_range]
  exact h k _ (List.getElem?_eq_getElem hl)

namespace InterleaveChecks

variable {s : State} {g : List Nat}

theorem map_entry_seq_data (h : InterleaveChecks s g) :
    (List.range s.csr.dataLen.toNat).map ((s.afterInterleave g).entry .seq) = s.dataColumns :=
  h.length_dataColumns ▸ map_range_eq_of_getElem? fun _ _ => h.entry_seq_of_dataColumns

theorem map_entry_seq_ec (h : InterleaveChecks s g) :
    (List.range s.csr.ecTotal.toNat).map (fun k => (s.afterInterleave g).entry .seq (s.csr.dataLen.toNat + k)) =
      s.ecColumns g :=
  h.length_ecColumns ▸ map_range_eq_of_getElem? fun _ _ => h.entry_seq_of_ecColumns

theorem map_entry_ecOut (h : InterleaveChecks s g) :
    (List.range s.csr.ecTotal.toNat).map ((s.afterInterleave g).entry .ecOut) = (s.ecBlocks g).flatten :=
  h.length_flatten_ecBlocks ▸ map_range_eq_of_getElem? fun _ _ => h.entry_ecOut_of_getElem?

theorem map_entry_dataIn (h : InterleaveChecks s g) :
    (List.range s.csr.dataLen.toNat).map ((s.afterInterleave g).entry .dataIn) = s.dataBlocks.flatten := by
  rw [h.flatten_dataBlocks]
  have hfits := h.fits
  exact List.map_congr_left fun k hk => h.entry_dataIn (by have := List.mem_range.1 hk; omega)

end InterleaveChecks

/-- Settles O24: the columns are a permutation of the blocks' codewords, which DATA_IN and EC_OUT hold in order. -/
theorem interleavePermutesCodewords : Obligations.InterleavePermutesCodewords := by
  intro s t _ hexec herr
  obtain ⟨g, h, rfl⟩ := interleaveChecks_of_exec hexec herr
  rw [h.map_entry_seq_data, h.map_entry_seq_ec, h.map_entry_ecOut, h.map_entry_dataIn]
  exact ⟨s.dataColumns_perm, s.ecColumns_perm g⟩

/-! ### The positions -/

/-- Every block has `ecPerBlock` EC codewords (R171). -/
theorem State.exists_ecCodeword (s : State) (g : List Nat) {b j : Nat} (hb : b < blockCount s.layout)
    (hj : j < s.ecPerBlock) : ∃ x, (s.ecBlocks g)[b]?.bind (fun r => r[j]?) = some x := by
  have hb' : b < (s.ecBlocks g).length := s.length_ecBlocks g ▸ hb
  have hj' : j < ((s.ecBlocks g)[b]).length := by
    rw [State.length_of_mem_ecBlocks _ (List.getElem_mem hb')]
    exact hj
  exact ⟨_, by rw [List.getElem?_eq_getElem hb', Option.bind_some, List.getElem?_eq_getElem hj']⟩

namespace InterleaveChecks

variable {s : State} {g : List Nat}

theorem entry_ecOut {b j : Nat} {x : Byte} (h : InterleaveChecks s g) (hj : j < s.ecPerBlock)
    (hx : (s.ecBlocks g)[b]?.bind (fun r => r[j]?) = some x) :
    (s.afterInterleave g).entry .ecOut (b * s.ecPerBlock + j) = x :=
  h.entry_ecOut_of_getElem? ((getElem?_flatten_of_length_eq State.length_of_mem_ecBlocks hj b).trans hx)

theorem entry_seq_ec {b j : Nat} {x : Byte} (h : InterleaveChecks s g) (hj : j < s.ecPerBlock)
    (hx : (s.ecBlocks g)[b]?.bind (fun r => r[j]?) = some x) :
    (s.afterInterleave g).entry .seq (s.csr.dataLen.toNat + (j * blockCount s.layout + b)) = x := by
  have hlen : ∀ r ∈ s.ecBlocks g, j < r.length := fun r hr => by rwa [State.length_of_mem_ecBlocks r hr]
  refine h.entry_seq_of_ecColumns ?_
  rw [← s.length_ecBlocks g]
  exact getElem?_columns hj (fun r hr => (hlen r hr).le) ((getElem?_column_of_forall_lt hlen b).trans hx)

end InterleaveChecks

/-- Codeword `i` of the block `(start, len)`, in the blocks' list. -/
theorem State.getElem?_dataBlocks {s : State} {b start len i : Nat}
    (hb : (blocksFrom 0 s.layout)[b]? = some (start, len)) (hi : i < len) :
    s.dataBlocks[b]?.bind (fun r => r[i]?) = some (s.entry .dataIn (start + i)) := by
  rw [State.dataBlocks, List.getElem?_map, hb]
  simp [hi]

namespace InterleaveChecks

variable {s : State} {g : List Nat} {b start len i : Nat}

/-- Where no block ends before column `i` and the blocks that end there are the first `short`, codeword `i` of block
`b` stands at `i·B + (b − short)` (R172). -/
theorem entry_seq_data (h : InterleaveChecks s g) {short : Nat}
    (hfull : ∀ n ∈ (blocksFrom 0 s.layout).map Prod.snd, i ≤ n)
    (hshort : ∀ n ∈ ((blocksFrom 0 s.layout).map Prod.snd).take short, n ≤ i)
    (hlong : ∀ n ∈ ((blocksFrom 0 s.layout).map Prod.snd).drop short, i < n)
    (hb : (blocksFrom 0 s.layout)[b]? = some (start, len)) (hsb : short ≤ b) :
    (s.afterInterleave g).entry .seq (i * blockCount s.layout + (b - short)) = s.entry .dataIn (start + i) := by
  have hlen : ((blocksFrom 0 s.layout).map Prod.snd)[b]? = some len := by rw [List.getElem?_map, hb, Option.map_some]
  have hi : i < len := hlong len <| List.mem_of_getElem? (i := b - short) <| by
    rw [List.getElem?_drop, Nat.add_sub_cancel' hsb, hlen]
  rw [← s.map_length_dataBlocks] at hlen hfull hshort hlong
  rw [← List.map_take] at hshort
  rw [← List.map_drop] at hlong
  rw [List.forall_mem_map] at hfull hshort hlong
  have htallest : i < tallest s.dataBlocks := by
    obtain ⟨r, hr, rfl⟩ := List.mem_map.1 (List.mem_of_getElem? hlen)
    exact lt_of_lt_of_le hi (length_le_tallest r hr)
  refine h.entry_seq_of_dataColumns ?_
  rw [← s.length_dataBlocks]
  exact getElem?_columns htallest hfull
    ((getElem?_column_of_short hshort hlong hsb).trans (State.getElem?_dataBlocks hb hi))

/-- Where every block reaches column `i`, codeword `i` of block `b` stands at `i·B + b` (R172). -/
theorem entry_seq_data_of_forall_lt (h : InterleaveChecks s g)
    (hlen : ∀ n ∈ (blocksFrom 0 s.layout).map Prod.snd, i < n)
    (hb : (blocksFrom 0 s.layout)[b]? = some (start, len)) :
    (s.afterInterleave g).entry .seq (i * blockCount s.layout + b) = s.entry .dataIn (start + i) :=
  h.entry_seq_data (short := 0) (fun n hn => (hlen n hn).le) (by simp) (by simpa using hlen) hb (Nat.zero_le b)

/-- One block is DATA_IN's first DATA_LEN entries, and its codewords stand in SEQ unchanged (R172). -/
theorem entry_seq_of_one_block (h : InterleaveChecks s g) (hcount : blockCount s.layout = 1) {k : Nat}
    (hk : k < s.csr.dataLen.toNat) : (s.afterInterleave g).entry .seq k = s.entry .dataIn k := by
  obtain ⟨-, -, hstart, hsum⟩ := blockPartition s.layout
  obtain ⟨⟨start, len⟩, hblocks⟩ := List.length_eq_one_iff.1 ((blocksFrom_length 0 s.layout).trans hcount)
  have hb : (blocksFrom 0 s.layout)[0]? = some (start, len) := by rw [hblocks, List.getElem?_cons_zero]
  have hstart : start = 0 := hstart 0 start len hb
  have hlen : len = s.csr.dataLen.toNat := by
    rw [← h.total_eq, ← hsum, hblocks, List.map_singleton, List.sum_singleton]
  have hall : ∀ n ∈ (blocksFrom 0 s.layout).map Prod.snd, k < n := by simpa [hblocks, hlen] using hk
  have hentry := h.entry_seq_data_of_forall_lt hall hb
  rwa [hcount, Nat.mul_one, Nat.add_zero, hstart, Nat.zero_add] at hentry

end InterleaveChecks

/-- Settles O25: EC blocks have one length, so every column of them is full; of data blocks of n and n + 1 codewords
the first n columns are full, and the column after them skips the short blocks. -/
theorem interleaveEcColumnPositions : Obligations.InterleaveEcColumnPositions := by
  intro s t _ hexec herr
  obtain ⟨g, h, rfl⟩ := interleaveChecks_of_exec hexec herr
  refine ⟨fun b hb j hj => ?ec, fun hone k hk => h.entry_seq_of_one_block hone hk,
    fun n hns b start len hblock i hi => ?equal, fun n short long hns b start len hblock =>
      ⟨fun i hi => ?full, fun hsb => ?last⟩⟩
  case ec =>
    obtain ⟨x, hx⟩ := s.exists_ecCodeword g hb hj
    rw [Nat.add_assoc]
    exact (h.entry_seq_ec hj hx).trans (h.entry_ecOut hj hx).symm
  case equal =>
    refine h.entry_seq_data_of_forall_lt (fun m hm => ?_) hblock
    rw [hns] at hm
    rwa [List.eq_of_mem_replicate hm]
  case full =>
    refine h.entry_seq_data_of_forall_lt (fun m hm => ?_) hblock
    rcases List.mem_append.1 (hns ▸ hm) with hm | hm <;> rw [List.eq_of_mem_replicate hm] <;> omega
  case last =>
    have hlength : (List.replicate short n).length = short := List.length_replicate
    refine h.entry_seq_data (fun m hm => ?_) (fun m hm => ?_) (fun m hm => ?_) hblock hsb
    · rcases List.mem_append.1 (hns ▸ hm) with hm | hm
      · exact (List.eq_of_mem_replicate hm).ge
      · rw [List.eq_of_mem_replicate hm]
        exact Nat.le_succ n
    · rw [hns, List.take_left' hlength] at hm
      exact (List.eq_of_mem_replicate hm).le
    · rw [hns, List.drop_left' hlength] at hm
      rw [List.eq_of_mem_replicate hm]
      exact Nat.lt_succ_self n

/-! ### The statement about the command -/

section Checks

variable {s : State}

theorem exec_interleave_of_error {e : CmdError} (h : interleaveResult s = .error e) :
    exec .interleave s = .next (s.afterError e.code) := by
  rw [exec_eq_conclude, commandResult, h, conclude_error]

theorem interleaveResult_of_layoutN (h : s.csr.layoutN.toNat < 1 ∨ layoutEntries < s.csr.layoutN.toNat) :
    interleaveResult s = .error .cfgLayout := if_pos h

variable (hn : ¬ (s.csr.layoutN.toNat < 1 ∨ layoutEntries < s.csr.layoutN.toNat))

include hn

theorem interleaveResult_of_count (hcount : blockCount s.layout = 0) : interleaveResult s = .error .cfgLayout := by
  simp only [interleaveResult, if_neg hn, if_pos hcount]

variable (hcount : blockCount s.layout ≠ 0)

include hcount

theorem interleaveResult_of_total (htotal : layoutTotal s.layout ≠ s.csr.dataLen.toNat) :
    interleaveResult s = .error .cfgLayout := by
  simp only [interleaveResult, if_neg hn, if_neg hcount, if_pos htotal]

variable (htotal : layoutTotal s.layout = s.csr.dataLen.toNat)

include htotal

theorem interleaveResult_of_mod (hmod : s.csr.ecTotal.toNat % blockCount s.layout ≠ 0) :
    interleaveResult s = .error .cfgEcDiv := by
  simp only [interleaveResult, if_neg hn, if_neg hcount, if_neg (not_not.2 htotal), if_pos hmod]

variable (hmod : s.csr.ecTotal.toNat % blockCount s.layout = 0)

include hmod

theorem interleaveResult_of_genRow_none (hg : genRow (s.csr.ecTotal.toNat / blockCount s.layout) = none) :
    interleaveResult s = .error .cfgEcKey := by
  simp only [interleaveResult, if_neg hn, if_neg hcount, if_neg (not_not.2 htotal), if_neg (not_not.2 hmod), hg]

theorem interleaveResult_of_bufEntries_lt {g : List Nat}
    (hg : genRow (s.csr.ecTotal.toNat / blockCount s.layout) = some g)
    (hrange : bufEntries < s.csr.dataLen.toNat + s.csr.ecTotal.toNat) : interleaveResult s = .error .ovfRange := by
  simp only [interleaveResult, if_neg hn, if_neg hcount, if_neg (not_not.2 htotal), if_neg (not_not.2 hmod), hg,
    if_pos hrange]

end Checks

/-- Settles O10: the checks in order, and the commit by what it leaves in memory. -/
theorem interleaveCommand : Obligations.InterleaveCommand := by
  refine ⟨fun s => ?command, fun w => decode_eq_ite_of_row 9 rfl⟩
  refine ⟨fun hn => exec_interleave_of_error (interleaveResult_of_layoutN (by rw [layoutEntries]; omega)),
    fun h1 h4 hcount => ?count, fun h1 h4 hcount => ?layout⟩
  case count => exact exec_interleave_of_error (interleaveResult_of_count (layoutN_legal h1 h4) hcount)
  case layout =>
    have hn := layoutN_legal h1 h4
    refine ⟨fun htotal => exec_interleave_of_error (interleaveResult_of_total hn hcount htotal),
      fun htotal hmod => exec_interleave_of_error (interleaveResult_of_mod hn hcount htotal hmod),
      fun htotal hmod hkey => ?noKey, fun htotal hmod hkey hrange => ?range, fun htotal hmod hkey hfits => ?commit⟩
    case noKey =>
      rw [← isSome_genRow_iff, Option.not_isSome_iff_eq_none] at hkey
      exact exec_interleave_of_error (interleaveResult_of_genRow_none hn hcount htotal hmod hkey)
    case range =>
      obtain ⟨g, hg⟩ := Option.isSome_iff_exists.1 ((isSome_genRow_iff _).2 hkey)
      exact exec_interleave_of_error (interleaveResult_of_bufEntries_lt hn hcount htotal hmod hg hrange)
    case commit =>
      obtain ⟨g, hg⟩ := Option.isSome_iff_exists.1 ((isSome_genRow_iff _).2 hkey)
      have h : InterleaveChecks s g := ⟨h1, h4, hcount, htotal, hmod, hg, hfits⟩
      refine ⟨g, _, hg, h.exec_eq, ⟨h.length_sequence, fun k hk => ?seq, fun b hb j hj => ?ecOut⟩,
        fun a hseq hec => h.readByte_frame hseq hec, rfl, rfl⟩
      case seq =>
        have hsome := List.getElem?_eq_getElem (h.length_sequence ▸ hk)
        exact (congrArg some (h.entry_seq_of_getElem? hsome)).trans hsome.symm
      case ecOut =>
        obtain ⟨x, hx⟩ := s.exists_ecCodeword g hb hj
        exact (congrArg some (h.entry_ecOut hj hx)).trans hx.symm

end Sys2Proof.Machine
end

section
/-! PROOFS. The placer's moves. A probe walks over the rows ahead and stops at the nearest one with a vacant cell in
the column pair, so both phases probe alike: the left phase looks at the same pair and only ends differently. Every
advance leads to a vacant cell that comes later in the traversal's order: in a pair further left, or in the same pair
further in the direction of travel, the right cell of a row before its left one. -/

namespace Sys2Proof.Machine

/-! ### The rows ahead -/

/-- Row `p` comes after row `r` on the way in direction `d` (R182). -/
def Dir.Precedes : Dir → Nat → Nat → Prop
  | .up, r, p => p < r
  | .down, r, p => r < p

theorem Dir.ahead_iff {d : Dir} {side r p : Nat} : d.ahead side r p ↔ p < side ∧ d.Precedes r p := by
  cases d <;> rfl

theorem Dir.not_precedes_self (d : Dir) (r : Nat) : ¬ d.Precedes r r := by
  cases d <;> exact lt_irrefl r

theorem Dir.Precedes.trans {d : Dir} {r p q : Nat} (h : d.Precedes r p) (h' : d.Precedes p q) : d.Precedes r q := by
  cases d
  case up => exact lt_trans h' h
  case down => exact lt_trans h h'

theorem precedes_of_mem_probeRows {side r p : Nat} {d : Dir} (h : p ∈ probeRows side r d) : d.Precedes r p := by
  cases d
  case up => exact List.mem_range.1 (List.mem_reverse.1 h)
  case down => exact (List.mem_range'_1.1 h).1

theorem mem_probeRows {side r p : Nat} {d : Dir} (hr : r < side) : p ∈ probeRows side r d ↔ d.ahead side r p := by
  rw [Dir.ahead_iff]
  cases d <;> simp only [probeRows, Dir.Precedes, List.mem_reverse, List.mem_range, List.mem_range'_1] <;> omega

/-- A probe visits the rows in the direction of travel. -/
theorem pairwise_probeRows (side r : Nat) (d : Dir) : (probeRows side r d).Pairwise d.Precedes := by
  cases d
  case up => exact List.pairwise_reverse.2 List.pairwise_lt_range
  case down => exact List.pairwise_lt_range'

/-- The rows a probe visits before row `p` are those between. -/
theorem exists_probeRows_eq_append {side r p : Nat} {d : Dir} (hr : r < side) (hp : d.ahead side r p) :
    ∃ between rest, probeRows side r d = between ++ p :: rest ∧
      ∀ q ∈ between, d.ahead side r q ∧ d.ahead side q p := by
  obtain ⟨between, rest, hsplit⟩ := List.append_of_mem ((mem_probeRows hr).2 hp)
  have horder := pairwise_probeRows side r d
  rw [hsplit, List.pairwise_append] at horder
  refine ⟨between, rest, hsplit, fun q hq => ⟨(mem_probeRows hr).1 ?_, Dir.ahead_iff.2 ⟨(Dir.ahead_iff.1 hp).1, ?_⟩⟩⟩
  · exact hsplit ▸ List.mem_append_left _ hq
  · exact horder.2.2 q hq p List.mem_cons_self

/-! ### Probing a column pair -/

section Probe

variable {vac : Nat → Nat → Bool} {c : Nat} {d : Dir}

/-- Row `p` has no vacant cell in the column pair with right column `c` (R183). -/
def RowTaken (vac : Nat → Nat → Bool) (c p : Nat) : Prop := vac p c = false ∧ ¬ vacantLeftOf vac p c

theorem vacantLeft_iff (vac : Nat → Nat → Bool) (r c : Nat) : vacantLeft vac r c = true ↔ vacantLeftOf vac r c := by
  cases c <;> simp [vacantLeft, vacantLeftOf]

theorem vacantLeftOf_succ {r : Nat} : vacantLeftOf vac r (c + 1) ↔ vac r c = true := by
  simp [vacantLeftOf]

theorem rowTaken_succ {p : Nat} : RowTaken vac (c + 1) p ↔ vac p (c + 1) = false ∧ vac p c = false := by
  rw [RowTaken, vacantLeftOf_succ, Bool.not_eq_true]

theorem rightProbe_cons_right {p : Nat} (h : vac p c = true) (ps : List Nat) :
    rightProbe vac c d (p :: ps) = .ok { row := p, col := c, dir := d, phase := .right } := by
  rw [rightProbe, if_pos h]

theorem rightProbe_cons_left {p : Nat} (h : vac p c = false) (hl : vacantLeftOf vac p c) (ps : List Nat) :
    rightProbe vac c d (p :: ps) = .ok { row := p, col := c - 1, dir := d, phase := .left } := by
  rw [rightProbe, if_neg (Bool.not_eq_true _ ▸ h), if_pos ((vacantLeft_iff vac p c).2 hl)]

theorem rightProbe_cons_taken {p : Nat} (h : RowTaken vac c p) (ps : List Nat) :
    rightProbe vac c d (p :: ps) = rightProbe vac c d ps := by
  obtain ⟨hright, hleft⟩ := h
  rw [rightProbe, if_neg (Bool.not_eq_true _ ▸ hright), if_neg (mt (vacantLeft_iff vac p c).1 hleft)]

theorem rightProbe_append_taken {before : List Nat} (h : ∀ q ∈ before, RowTaken vac c q) (ps : List Nat) :
    rightProbe vac c d (before ++ ps) = rightProbe vac c d ps := by
  induction before with
  | nil => rfl
  | cons q before ih =>
    rw [List.cons_append, rightProbe_cons_taken (h q List.mem_cons_self),
      ih fun p hp => h p (List.mem_cons_of_mem _ hp)]

/-- The probe stops at the nearest row ahead with a vacant cell of the pair. -/
theorem rightProbe_of_nearest {side r p : Nat} (hr : r < side) (hp : d.ahead side r p)
    (hbetween : ∀ q, d.ahead side r q → d.ahead side q p → RowTaken vac c q) :
    ∃ rest, rightProbe vac c d (probeRows side r d) = rightProbe vac c d (p :: rest) := by
  obtain ⟨between, rest, hsplit, hq⟩ := exists_probeRows_eq_append hr hp
  exact ⟨rest, hsplit ▸ rightProbe_append_taken (fun q h => hbetween q (hq q h).1 (hq q h).2) _⟩

/-- The probe fails only by leaving the grid, with no vacant cell of the pair on its way (R183). -/
theorem rightProbe_eq_error_iff {ps : List Nat} {e : CmdError} :
    rightProbe vac c d ps = .error e ↔ e = .invPlaceOob ∧ ∀ p ∈ ps, RowTaken vac c p := by
  induction ps with
  | nil => simp [rightProbe, eq_comm]
  | cons p ps ih =>
    rw [List.forall_mem_cons]
    cases hright : vac p c with
    | true => simp [rightProbe_cons_right hright, RowTaken, hright]
    | false =>
      by_cases hleft : vacantLeftOf vac p c
      · simp [rightProbe_cons_left hright hleft, RowTaken, hleft]
      · have htaken : RowTaken vac c p := ⟨hright, hleft⟩
        simp [rightProbe_cons_taken htaken, ih, htaken]

/-- The right column of the column pair a traversal state is in (R182). -/
def Trav.pairCol (t : Trav) : Nat :=
  match t.phase with
  | .right => t.col
  | .left => t.col + 1

/-- The probe finds a vacant cell of the pair in a probed row. -/
theorem rightProbe_ok {ps : List Nat} {u : Trav} (h : rightProbe vac c d ps = .ok u) :
    u.row ∈ ps ∧ vac u.row u.col = true ∧ u.pairCol = c ∧ u.dir = d := by
  induction ps with
  | nil => cases h
  | cons p ps ih =>
    cases hright : vac p c with
    | true =>
      rw [rightProbe_cons_right hright] at h
      cases h
      exact ⟨List.mem_cons_self, hright, rfl, rfl⟩
    | false =>
      by_cases hleft : vacantLeftOf vac p c
      · rw [rightProbe_cons_left hright hleft] at h
        cases h
        exact ⟨List.mem_cons_self, hleft.2, Nat.sub_add_cancel hleft.1, rfl⟩
      · rw [rightProbe_cons_taken ⟨hright, hleft⟩] at h
        obtain ⟨hrow, hfound⟩ := ih h
        exact ⟨List.mem_cons_of_mem p hrow, hfound⟩

/-- The left phase probes the same column pair, and exhausts it where the right phase would fail (R184). -/
theorem leftProbe_eq (vac : Nat → Nat → Bool) (r c : Nat) (d : Dir) (ps : List Nat) :
    leftProbe vac r c d ps = (rightProbe vac (c + 1) d ps).tryCatch fun _ => exhausted vac r c d := by
  induction ps with
  | nil => rfl
  | cons p ps ih =>
    rw [leftProbe, rightProbe, vacantLeft, ih]
    split_ifs <;> rfl

end Probe

/-! ### Leaving a column pair -/

section Exhausted

variable {vac : Nat → Nat → Bool} {r c : Nat} {d : Dir}

/-- A search down from `n - 1` finds the largest number with a value. -/
theorem findSome?_reverse_range {α : Type} {f : Nat → Option α} {n k : Nat} {x : α} (hk : k < n) (hx : f k = some x)
    (hnone : ∀ j, k < j → j < n → f j = none) : (List.range n).reverse.findSome? f = some x := by
  obtain ⟨larger, rest, hsplit, hlarger⟩ := exists_probeRows_eq_append (side := n + 1) (d := .up) (Nat.lt_succ_self n)
    (Dir.ahead_iff.2 ⟨Nat.lt_succ_of_lt hk, hk⟩)
  refine List.findSome?_eq_some_iff.2 ⟨larger, k, rest, hsplit, hx, fun j hj => ?_⟩
  obtain ⟨⟨-, hjn⟩, -, hkj⟩ := hlarger j hj
  exact hnone j hkj hjn

/-- The search of a column: its lowest vacant cell from row `r` up (R185). -/
def columnSearch (vac : Nat → Nat → Bool) (r k : Nat) : Option (Nat × Nat) :=
  ((List.range (r + 1)).reverse.find? (fun q => vac q k)).map (fun q => (q, k))

theorem columnSearch_eq_some {q k : Nat} (hq : q ≤ r) (hvac : vac q k = true)
    (hbelow : ∀ q', q < q' → q' ≤ r → vac q' k = false) : columnSearch vac r k = some (q, k) := by
  rw [columnSearch, List.find?_eq_findSome?_guard,
    findSome?_reverse_range (k := q) (x := q) (Nat.lt_succ_of_le hq) (by simp [Option.guard, hvac])
      fun q' hq' hq'r => by simp [Option.guard, hbelow q' hq' (Nat.le_of_lt_succ hq'r)]]
  rfl

theorem columnSearch_eq_none {k : Nat} (h : ∀ q, q ≤ r → vac q k = false) : columnSearch vac r k = none := by
  rw [columnSearch, Option.map_eq_none_iff, List.find?_eq_none]
  intro q hq
  simp [h q (Nat.le_of_lt_succ (List.mem_range.1 (List.mem_reverse.1 hq)))]

theorem columnSearch_some {k : Nat} {p : Nat × Nat} (h : columnSearch vac r k = some p) :
    vac p.1 p.2 = true ∧ p.2 = k := by
  obtain ⟨q, hq, rfl⟩ := Option.map_eq_some_iff.1 h
  exact ⟨by simpa using List.find?_some hq, rfl⟩

/-- The traversal goes on in the columns further left where one has a vacant cell (R185). -/
theorem exhausted_of_some {q k : Nat} (h : (List.range c).reverse.findSome? (columnSearch vac r) = some (q, k)) :
    exhausted vac r c d = .ok { row := q, col := k, dir := d.flip, phase := .right } := by
  delta columnSearch at h
  simp only [exhausted, h]

/-- The traversal ends where no column further left has one (R185). -/
theorem exhausted_of_eq_none (h : (List.range c).reverse.findSome? (columnSearch vac r) = none) :
    exhausted vac r c d = .error .invPlaceExhausted := by
  delta columnSearch at h
  simp only [exhausted, h]

theorem exhausted_cases (vac : Nat → Nat → Bool) (r c : Nat) (d : Dir) :
    (∃ q k, k < c ∧ vac q k = true ∧
      exhausted vac r c d = .ok { row := q, col := k, dir := d.flip, phase := .right }) ∨
    exhausted vac r c d = .error .invPlaceExhausted := by
  cases hfound : (List.range c).reverse.findSome? (columnSearch vac r) with
  | none => exact .inr (exhausted_of_eq_none hfound)
  | some p =>
    obtain ⟨k, hk, hp⟩ := List.exists_of_findSome?_eq_some hfound
    obtain ⟨hvac, rfl⟩ := columnSearch_some hp
    exact .inl ⟨p.1, p.2, by simpa using hk, hvac, exhausted_of_some hfound⟩

/-- The cell it goes on at is the first vacant one of the search (R185). -/
theorem exhausted_of_first {q k : Nat} (hq : q ≤ r) (hk : k < c) (hvac : vac q k = true)
    (hcolumns : ∀ q' k', q' ≤ r → k < k' → k' < c → vac q' k' = false)
    (hrows : ∀ q', q < q' → q' ≤ r → vac q' k = false) :
    exhausted vac r c d = .ok { row := q, col := k, dir := d.flip, phase := .right } :=
  exhausted_of_some (findSome?_reverse_range hk (columnSearch_eq_some hq hvac hrows) fun k' hk' hk'c =>
    columnSearch_eq_none fun q' hq' => hcolumns q' k' hq' hk' hk'c)

theorem exhausted_of_none (h : ∀ q k, q ≤ r → k < c → vac q k = false) :
    exhausted vac r c d = .error .invPlaceExhausted :=
  exhausted_of_eq_none (List.findSome?_eq_none_iff.2 fun k hk =>
    columnSearch_eq_none fun q hq => h q k hq (by simpa using hk))

end Exhausted

/-! ### One advance -/

section Advance

variable {vac : Nat → Nat → Bool} {side r c : Nat} {d : Dir}

theorem advance_right_of_vacantLeftOf (h : vacantLeftOf vac r c) :
    advance vac side { row := r, col := c, dir := d, phase := .right } =
      .ok { row := r, col := c - 1, dir := d, phase := .left } :=
  if_pos ((vacantLeft_iff vac r c).2 h)

theorem advance_right_of_not_vacantLeftOf (h : ¬ vacantLeftOf vac r c) :
    advance vac side { row := r, col := c, dir := d, phase := .right } = rightProbe vac c d (probeRows side r d) :=
  if_neg (mt (vacantLeft_iff vac r c).1 h)

theorem advance_left : advance vac side { row := r, col := c, dir := d, phase := .left } =
    (rightProbe vac (c + 1) d (probeRows side r d)).tryCatch fun _ => exhausted vac r c d :=
  leftProbe_eq vac r c d _

/-- `u` comes after `t` in the order of the traversal: in a pair further left, or in the same pair further in the
direction of travel, or left of it in its row (R188, property 2). -/
def Trav.Before (t u : Trav) : Prop :=
  u.pairCol + 2 ≤ t.pairCol ∨
    (u.pairCol = t.pairCol ∧ u.dir = t.dir ∧
      (t.dir.Precedes t.row u.row ∨ (u.row = t.row ∧ t.phase = .right ∧ u.phase = .left)))

theorem Trav.Before.trans {t u w : Trav} (h : t.Before u) (h' : u.Before w) : t.Before w := by
  obtain h | ⟨hcol, hdir, h⟩ := h <;> obtain h' | ⟨hcol', hdir', h'⟩ := h'
  · exact .inl (by omega)
  · exact .inl (by omega)
  · exact .inl (by omega)
  · refine .inr ⟨hcol'.trans hcol, hdir'.trans hdir, ?_⟩
    rw [hdir] at h'
    obtain h | ⟨hrow, hright, hleft⟩ := h <;> obtain h' | ⟨hrow', hright', hleft'⟩ := h'
    · exact .inl (h.trans h')
    · exact .inl (hrow' ▸ h)
    · exact .inl (hrow ▸ h')
    · cases hleft.symm.trans hright'

/-- The cell of a traversal state (R182). -/
def Trav.cell (t : Trav) : Nat × Nat := (t.row, t.col)

theorem Trav.Before.cell_ne {t u : Trav} (h : t.Before u) : t.cell ≠ u.cell := by
  intro heq
  obtain ⟨hrow, hcol⟩ := Prod.mk.inj heq
  obtain ⟨tr, tc, td, tp⟩ := t
  obtain ⟨ur, uc, ud, up⟩ := u
  dsimp only at hrow hcol
  subst hrow hcol
  obtain h | ⟨hpair, -, h | ⟨-, rfl, rfl⟩⟩ := h
  · cases tp <;> cases up <;> simp only [Trav.pairCol] at h <;> omega
  · exact td.not_precedes_self tr h
  · simp only [Trav.pairCol] at hpair
    omega

/-- Every advance leads to a vacant cell that comes later in the traversal's order. -/
theorem advance_ok {t u : Trav} (h : advance vac side t = .ok u) : vac u.row u.col = true ∧ t.Before u := by
  have of_probe {c : Nat} (hc : t.pairCol = c)
      (hu : rightProbe vac c t.dir (probeRows side t.row t.dir) = .ok u) : vac u.row u.col = true ∧ t.Before u := by
    obtain ⟨hrow, hvac, hpair, hdir⟩ := rightProbe_ok hu
    exact ⟨hvac, .inr ⟨hpair.trans hc.symm, hdir, .inl (precedes_of_mem_probeRows hrow)⟩⟩
  obtain ⟨r, c, d, phase⟩ := t
  cases phase with
  | right =>
    by_cases hleft : vacantLeftOf vac r c
    · rw [advance_right_of_vacantLeftOf hleft] at h
      cases h
      exact ⟨hleft.2, .inr ⟨Nat.sub_add_cancel hleft.1, rfl, .inr ⟨rfl, rfl, rfl⟩⟩⟩
    · rw [advance_right_of_not_vacantLeftOf hleft] at h
      exact of_probe rfl h
  | left =>
    rw [advance_left] at h
    cases hprobe : rightProbe vac (c + 1) d (probeRows side r d) with
    | ok u' =>
      rw [hprobe] at h
      cases h
      exact of_probe rfl hprobe
    | error e =>
      rw [hprobe] at h
      obtain ⟨q, k, hk, hvac, hexhausted⟩ | hexhausted := exhausted_cases vac r c d
      · cases hexhausted.symm.trans h
        exact ⟨hvac, .inl (Nat.add_le_add_right hk 1)⟩
      · cases hexhausted.symm.trans h

/-- A failing advance is out of bounds in the right phase and exhausted in the left one (R183, R185). -/
theorem advance_error {t : Trav} {e : CmdError} (h : advance vac side t = .error e) :
    (t.phase = .right ∧ e = .invPlaceOob) ∨ (t.phase = .left ∧ e = .invPlaceExhausted) := by
  obtain ⟨r, c, d, phase⟩ := t
  cases phase with
  | right =>
    by_cases hleft : vacantLeftOf vac r c
    · rw [advance_right_of_vacantLeftOf hleft] at h
      cases h
    · rw [advance_right_of_not_vacantLeftOf hleft] at h
      exact .inl ⟨rfl, (rightProbe_eq_error_iff.1 h).1⟩
  | left =>
    rw [advance_left] at h
    cases hprobe : rightProbe vac (c + 1) d (probeRows side r d) with
    | ok u => rw [hprobe] at h; cases h
    | error e' =>
      rw [hprobe] at h
      obtain ⟨q, k, -, -, hexhausted⟩ | hexhausted := exhausted_cases vac r c d
      · cases hexhausted.symm.trans h
      · cases hexhausted.symm.trans h
        exact .inr ⟨rfl, rfl⟩

end Advance

end Sys2Proof.Machine
end

section
/-! PROOFS. The traversal as a walk. Its cells are those of the states that repeated advances reach, all of them
vacant, each one later in the traversal's order than the one before it. So no cell comes twice, no later cell can be
reserved, and a longer traversal ends in the error a shorter one ended in. -/

namespace Sys2Proof.Machine

variable {vac : Nat → Nat → Bool} {side : Nat}

/-- The states of `n` advances from `t`, with `t` itself first (R186). -/
def walkFrom (vac : Nat → Nat → Bool) (side : Nat) : Nat → Trav → Except CmdError (List Trav)
  | 0, t => .ok [t]
  | n + 1, t => (advance vac side t).bind fun u => (walkFrom vac side n u).map (t :: ·)

theorem walkFrom_succ_of_ok {n : Nat} {t u : Trav} (h : advance vac side t = .ok u) :
    walkFrom vac side (n + 1) t = (walkFrom vac side n u).map (t :: ·) := by
  rw [walkFrom, h]
  rfl

theorem walkFrom_succ_of_error {n : Nat} {t : Trav} {e : CmdError} (h : advance vac side t = .error e) :
    walkFrom vac side (n + 1) t = .error e := by
  rw [walkFrom, h]
  rfl

theorem walkFrom_succ_ok {n : Nat} {t : Trav} {walk : List Trav} (h : walkFrom vac side (n + 1) t = .ok walk) :
    ∃ u rest, advance vac side t = .ok u ∧ walkFrom vac side n u = .ok rest ∧ walk = t :: rest := by
  cases hu : advance vac side t with
  | error e => cases (walkFrom_succ_of_error hu).symm.trans h
  | ok u =>
    rw [walkFrom_succ_of_ok hu] at h
    cases hrest : walkFrom vac side n u with
    | error e => rw [hrest] at h; cases h
    | ok rest =>
      rw [hrest] at h
      exact ⟨u, rest, rfl, hrest, (Except.ok.inj h).symm⟩

theorem walkFrom_succ_error {n : Nat} {t : Trav} {e : CmdError} (h : walkFrom vac side (n + 1) t = .error e) :
    advance vac side t = .error e ∨ ∃ u, advance vac side t = .ok u ∧ walkFrom vac side n u = .error e := by
  cases hu : advance vac side t with
  | error e' => exact .inl (congrArg _ (Except.error.inj ((walkFrom_succ_of_error hu).symm.trans h)))
  | ok u =>
    rw [walkFrom_succ_of_ok hu] at h
    cases hrest : walkFrom vac side n u with
    | error e' =>
      rw [hrest] at h
      cases h
      exact .inr ⟨u, rfl, hrest⟩
    | ok rest => rw [hrest] at h; cases h

/-- A walk is a chain of advances. -/
theorem walkFrom_ok {n : Nat} {t : Trav} {walk : List Trav} (h : walkFrom vac side n t = .ok walk) :
    ∃ rest, walk = t :: rest ∧ rest.length = n ∧ (t :: rest).IsChain (fun u w => advance vac side u = .ok w) := by
  induction n generalizing t walk with
  | zero => exact ⟨[], (Except.ok.inj h).symm, rfl, .singleton t⟩
  | succ n ih =>
    obtain ⟨u, rest, hu, hrest, rfl⟩ := walkFrom_succ_ok h
    obtain ⟨rest, rfl, hlen, hchain⟩ := ih hrest
    exact ⟨u :: rest, rfl, congrArg (· + 1) hlen, .cons_cons hu hchain⟩

/-- The error of a walk is that of the advance from the end of a shorter one. -/
theorem walkFrom_error {n : Nat} {t : Trav} {e : CmdError} (h : walkFrom vac side n t = .error e) :
    ∃ k < n, ∃ walk u, walkFrom vac side k t = .ok walk ∧ walk[k]? = some u ∧ advance vac side u = .error e := by
  induction n generalizing t with
  | zero => cases h
  | succ n ih =>
    obtain ht | ⟨u, hu, hrest⟩ := walkFrom_succ_error h
    · exact ⟨0, Nat.succ_pos n, [t], t, rfl, rfl, ht⟩
    · obtain ⟨k, hk, walk, w, hwalk, hw, he⟩ := ih hrest
      exact ⟨k + 1, Nat.succ_lt_succ hk, t :: walk, w, by rw [walkFrom_succ_of_ok hu, hwalk]; rfl, hw, he⟩

/-- A longer walk ends in the same error. -/
theorem walkFrom_error_mono {n m : Nat} {t : Trav} {e : CmdError} (h : walkFrom vac side n t = .error e)
    (hnm : n ≤ m) : walkFrom vac side m t = .error e := by
  induction n generalizing t m with
  | zero => cases h
  | succ n ih =>
    obtain ⟨m, rfl⟩ := Nat.exists_eq_add_of_le' (le_trans (Nat.succ_pos n) hnm)
    obtain ht | ⟨u, hu, hrest⟩ := walkFrom_succ_error h
    · exact walkFrom_succ_of_error ht
    · rw [walkFrom_succ_of_ok hu, ih hrest (Nat.le_of_succ_le_succ hnm)]
      rfl

/-- A shorter walk does not fail where a longer one succeeds. -/
theorem exists_walkFrom_of_le {n m : Nat} {t : Trav} {walk : List Trav} (h : walkFrom vac side m t = .ok walk)
    (hnm : n ≤ m) : ∃ shorter, walkFrom vac side n t = .ok shorter := by
  cases hn : walkFrom vac side n t with
  | ok shorter => exact ⟨shorter, rfl⟩
  | error e => cases (walkFrom_error_mono hn hnm).symm.trans h

/-- The advance from the end of a walk fails as the walk one advance longer does. -/
theorem advance_end_of_walkFrom {n : Nat} {t : Trav} {walk : List Trav} {e : CmdError}
    (h : walkFrom vac side n t = .ok walk) (he : walkFrom vac side (n + 1) t = .error e) :
    ∃ u, walk[n]? = some u ∧ advance vac side u = .error e := by
  induction n generalizing t walk with
  | zero =>
    cases h
    obtain ht | ⟨u, -, hu⟩ := walkFrom_succ_error he
    · exact ⟨t, rfl, ht⟩
    · cases hu
  | succ n ih =>
    obtain ⟨u, rest, hu, hrest, rfl⟩ := walkFrom_succ_ok h
    obtain ht | ⟨u', hu', he'⟩ := walkFrom_succ_error he
    · cases ht.symm.trans hu
    · cases hu'.symm.trans hu
      exact ih hrest he'

/-! ### The traversal's cells -/

theorem zigzag_of_reserved {t : Trav} (h : vac t.row t.col = false) (n : Nat) :
    zigzag vac side (n + 1) t = .error .invPlaceReserved := by
  rw [zigzag, if_neg (Bool.not_eq_true _ ▸ h)]

/-- From a vacant cell on, the traversal's cells are those of the walk (R186). -/
theorem zigzag_of_vacant {t : Trav} (h : vac t.row t.col = true) (n : Nat) :
    zigzag vac side (n + 1) t = (walkFrom vac side n t).map (List.map Trav.cell) := by
  induction n generalizing t with
  | zero => rw [zigzag, if_pos h, if_pos rfl]; rfl
  | succ n ih =>
    rw [zigzag, if_pos h, if_neg (Nat.succ_ne_zero n)]
    cases hu : advance vac side t with
    | error e => rw [walkFrom_succ_of_error hu]; rfl
    | ok u =>
      dsimp only
      rw [walkFrom_succ_of_ok hu, ih (advance_ok hu).1]
      cases walkFrom vac side n u <;> rfl

/-- A traversal that completes is a walk from a vacant cell. -/
theorem zigzag_ok {n : Nat} {t : Trav} {cells : List (Nat × Nat)} (h : zigzag vac side (n + 1) t = .ok cells) :
    ∃ walk, walkFrom vac side n t = .ok walk ∧ cells = walk.map Trav.cell := by
  rw [zigzag_of_vacant (zigzag_succ_ok h).1] at h
  cases hwalk : walkFrom vac side n t with
  | error e => rw [hwalk] at h; cases h
  | ok walk =>
    rw [hwalk] at h
    exact ⟨walk, rfl, (Except.ok.inj h).symm⟩

/-- A traversal fails at its first cell, which is reserved, or as its walk does. -/
theorem zigzag_error {n : Nat} {t : Trav} {e : CmdError} (h : zigzag vac side n t = .error e) :
    (0 < n ∧ vac t.row t.col = false ∧ e = .invPlaceReserved) ∨
      ∃ m, n = m + 1 ∧ walkFrom vac side m t = .error e := by
  obtain _ | n := n
  · cases h
  cases hvac : vac t.row t.col with
  | false =>
    rw [zigzag_of_reserved hvac] at h
    exact .inl ⟨Nat.succ_pos n, rfl, (Except.error.inj h).symm⟩
  | true =>
    rw [zigzag_of_vacant hvac] at h
    cases hwalk : walkFrom vac side n t with
    | error e' =>
      rw [hwalk] at h
      exact .inr ⟨n, rfl, hwalk.trans (congrArg _ (Except.error.inj h))⟩
    | ok walk => rw [hwalk] at h; cases h

theorem walkFrom_error_cases {n : Nat} {t : Trav} {e : CmdError} (h : walkFrom vac side n t = .error e) :
    e = .invPlaceOob ∨ e = .invPlaceExhausted := by
  obtain ⟨-, -, -, u, -, -, hu⟩ := walkFrom_error h
  exact (advance_error hu).imp And.right And.right

theorem zigzag_error_cases {n : Nat} {t : Trav} {e : CmdError} (h : zigzag vac side n t = .error e) :
    e = .invPlaceReserved ∨ e = .invPlaceOob ∨ e = .invPlaceExhausted :=
  (zigzag_error h).imp (fun hfirst => hfirst.2.2) fun ⟨_, _, hwalk⟩ => walkFrom_error_cases hwalk

theorem length_zigzag {n : Nat} {t : Trav} {cells : List (Nat × Nat)} (h : zigzag vac side n t = .ok cells) :
    cells.length = n := by
  obtain _ | n := n
  · rw [← Except.ok.inj h]
    rfl
  · obtain ⟨walk, hwalk, rfl⟩ := zigzag_ok h
    obtain ⟨rest, rfl, hlen, -⟩ := walkFrom_ok hwalk
    simp [hlen]

/-- No cell is visited twice: each advance goes on in the traversal's order (R188, property 2). -/
theorem nodup_zigzag {n : Nat} {t : Trav} {cells : List (Nat × Nat)} (h : zigzag vac side n t = .ok cells) :
    cells.Nodup := by
  obtain _ | n := n
  · rw [← Except.ok.inj h]
    exact List.nodup_nil
  · obtain ⟨walk, hwalk, rfl⟩ := zigzag_ok h
    obtain ⟨rest, rfl, -, hchain⟩ := walkFrom_ok hwalk
    have : Trans Trav.Before Trav.Before Trav.Before := ⟨Trav.Before.trans⟩
    have horder : (t :: rest).Pairwise Trav.Before :=
      List.isChain_iff_pairwise.1 (hchain.imp fun _ _ hadvance => (advance_ok hadvance).2)
    exact List.pairwise_map.2 (horder.imp Trav.Before.cell_ne)

/-- Settles O26: the walk of the traversal goes on in its order, and each advance leads to a vacant cell. -/
theorem placerNeverRevisits : Obligations.PlacerNeverRevisits :=
  fun _ _ _ _ h => ⟨length_zigzag h, nodup_zigzag h, vacant_of_mem_zigzag h⟩

/-- Settles O27: no advance leads to a reserved cell or fails with this error, so only the first cell can. -/
theorem reservedErrorOnlyAtFirstBit : Obligations.ReservedErrorOnlyAtFirstBit := by
  intro vac side n
  constructor
  · intro h
    obtain ⟨hn, hvac, -⟩ | ⟨m, -, hwalk⟩ := zigzag_error h
    · exact ⟨hn, hvac⟩
    · have hcases := walkFrom_error_cases hwalk
      simp at hcases
  · rintro ⟨hn, hvac⟩
    obtain ⟨m, rfl⟩ := Nat.exists_eq_add_of_le' hn
    exact zigzag_of_reserved hvac m

/-! ### The order of the traversal -/

/-- The walk of R182 and R186, as the statement speaks of it. -/
theorem isWalk_of_walkFrom {n : Nat} {walk : List Trav} (h : walkFrom vac side n (startTrav side) = .ok walk) :
    IsWalk vac side (n + 1) walk := by
  obtain ⟨rest, rfl, hlen, hchain⟩ := walkFrom_ok h
  refine ⟨congrArg (· + 1) hlen, fun t ht => (Option.some.inj ht).symm, fun k t u ht hu => ?_⟩
  obtain ⟨hk, rfl⟩ := List.getElem?_eq_some_iff.1 ht
  obtain ⟨hk', rfl⟩ := List.getElem?_eq_some_iff.1 hu
  exact List.isChain_iff_getElem.1 hchain k hk'

theorem exists_isWalk_of_zigzag_ok {n : Nat} {cells : List (Nat × Nat)}
    (h : zigzag vac side n (startTrav side) = .ok cells) :
    ∃ walk, IsWalk vac side n walk ∧ cells = walk.map (fun t => (t.row, t.col)) := by
  obtain _ | n := n
  · exact ⟨[], ⟨rfl, by simp, by simp⟩, (Except.ok.inj h).symm⟩
  · obtain ⟨walk, hwalk, hcells⟩ := zigzag_ok h
    exact ⟨walk, isWalk_of_walkFrom hwalk, hcells⟩

theorem exists_isWalk_of_zigzag_error {n : Nat} {e : CmdError} (h : zigzag vac side n (startTrav side) = .error e)
    (he : e ≠ .invPlaceReserved) : ∃ k walk t, k + 1 < n ∧ IsWalk vac side (k + 1) walk ∧ walk[k]? = some t ∧
      advance vac side t = .error e := by
  obtain ⟨-, -, hreserved⟩ | ⟨m, rfl, hwalk⟩ := zigzag_error h
  · exact absurd hreserved he
  · obtain ⟨k, hk, walk, t, hshorter, ht, hadvance⟩ := walkFrom_error hwalk
    exact ⟨k, walk, t, Nat.succ_lt_succ hk, isWalk_of_walkFrom hshorter, ht, hadvance⟩

section Moves

variable {r c : Nat} {d : Dir} (hr : r < side)

include hr

/-- The right phase's move where the left cell is not vacant: to the nearest row ahead with a cell (R183). -/
theorem advance_right_of_nearest {p : Nat} (hleft : ¬ vacantLeftOf vac r c) (hp : d.ahead side r p)
    (hbetween : ∀ q, d.ahead side r q → d.ahead side q p → RowTaken vac c q) :
    (vac p c = true → advance vac side { row := r, col := c, dir := d, phase := .right } =
      .ok { row := p, col := c, dir := d, phase := .right }) ∧
    (vac p c = false → vacantLeftOf vac p c → advance vac side { row := r, col := c, dir := d, phase := .right } =
      .ok { row := p, col := c - 1, dir := d, phase := .left }) := by
  obtain ⟨rest, hrest⟩ := rightProbe_of_nearest hr hp hbetween
  rw [advance_right_of_not_vacantLeftOf hleft, hrest]
  exact ⟨fun h => rightProbe_cons_right h rest, fun h hl => rightProbe_cons_left h hl rest⟩

/-- The right phase fails exactly where the pair has no vacant cell ahead (R183). -/
theorem advance_right_eq_error_iff :
    advance vac side { row := r, col := c, dir := d, phase := .right } = .error .invPlaceOob ↔
      ¬ vacantLeftOf vac r c ∧ ∀ p, d.ahead side r p → RowTaken vac c p := by
  by_cases hleft : vacantLeftOf vac r c
  · simp [advance_right_of_vacantLeftOf hleft, hleft]
  · simp [advance_right_of_not_vacantLeftOf hleft, rightProbe_eq_error_iff, mem_probeRows hr, hleft]

/-- The left phase's move to the nearest row ahead with a cell of its pair (R184). -/
theorem advance_left_of_nearest {p : Nat} (hp : d.ahead side r p)
    (hbetween : ∀ q, d.ahead side r q → d.ahead side q p → RowTaken vac (c + 1) q) :
    (vac p (c + 1) = true → advance vac side { row := r, col := c, dir := d, phase := .left } =
      .ok { row := p, col := c + 1, dir := d, phase := .right }) ∧
    (vac p (c + 1) = false → vac p c = true → advance vac side { row := r, col := c, dir := d, phase := .left } =
      .ok { row := p, col := c, dir := d, phase := .left }) := by
  obtain ⟨rest, hrest⟩ := rightProbe_of_nearest hr hp hbetween
  rw [advance_left, hrest]
  refine ⟨fun h => ?_, fun h hl => ?_⟩
  · rw [rightProbe_cons_right h]
    rfl
  · rw [rightProbe_cons_left h (vacantLeftOf_succ.2 hl)]
    rfl

/-- The left phase leaves a pair that has no vacant cell ahead (R184, R185). -/
theorem advance_left_of_taken (h : ∀ p, d.ahead side r p → RowTaken vac (c + 1) p) :
    advance vac side { row := r, col := c, dir := d, phase := .left } = exhausted vac r c d := by
  rw [advance_left, rightProbe_eq_error_iff.2 ⟨rfl, fun p hp => h p ((mem_probeRows hr).1 hp)⟩]
  rfl

end Moves

theorem Dir.flip_eq (d : Dir) : d.flip = if d = .up then .down else .up := by
  cases d <;> rfl

end Sys2Proof.Machine
end

section
/-! PROOFS. The standard traversals. Each of the six walks is evaluated once, up to the last vacant cell: it gets
there, and it ends in the left phase. That it visits every vacant cell is then a matter of counting, since it visits
no cell twice; and beyond it there is no cell to go to, so its next advance fails, as the left phase does. -/

namespace Sys2Proof.Machine

/-! ### Counting the vacant cells -/

/-- The vacant cells of a grid in row-major order. -/
def vacantCells (vac : Nat → Nat → Bool) (side : Nat) : List (Nat × Nat) :=
  (square side).filter (fun p => vac p.1 p.2)

theorem nodup_vacantCells (vac : Nat → Nat → Bool) (side : Nat) : (vacantCells vac side).Nodup :=
  (List.nodup_range.product List.nodup_range).filter _

/-- Only cells of the grid are vacant (R180). -/
def InGrid (vac : Nat → Nat → Bool) (side : Nat) : Prop := ∀ r c, vac r c = true → r < side ∧ c < side

theorem InGrid.eq_false {vac : Nat → Nat → Bool} {side r c : Nat} (h : InGrid vac side)
    (hout : ¬ (r < side ∧ c < side)) : vac r c = false :=
  Bool.eq_false_iff.2 (mt (h r c) hout)

theorem inGrid_stdVacant (v : Nat) : InGrid (stdVacant v) (sideOf v) := by
  intro r c h
  simp only [stdVacant, Bool.and_eq_true, decide_eq_true_eq] at h
  exact h.1

theorem inGrid_vacant (s : State) (side : Nat) : InGrid (s.vacant side) side := by
  intro r c h
  simp only [State.vacant, Bool.and_eq_true, decide_eq_true_eq] at h
  exact h.1

section Count

variable {vac : Nat → Nat → Bool} {side n : Nat} {t : Trav} {cells : List (Nat × Nat)} (hgrid : InGrid vac side)
  (h : zigzag vac side n t = .ok cells)

include hgrid

theorem mem_vacantCells {r c : Nat} : (r, c) ∈ vacantCells vac side ↔ vac r c = true := by
  rw [vacantCells, List.mem_filter, mem_square]
  exact and_iff_right_of_imp (hgrid r c)

include h

/-- The traversal's cells are among the vacant ones, each at most once. -/
theorem subperm_vacantCells : cells.Subperm (vacantCells vac side) :=
  (nodup_zigzag h).subperm fun p hp => (mem_vacantCells hgrid).2 (vacant_of_mem_zigzag h p hp)

theorem le_length_vacantCells : n ≤ (vacantCells vac side).length :=
  length_zigzag h ▸ (subperm_vacantCells hgrid h).length_le

/-- A traversal as long as there are vacant cells visits them all. -/
theorem mem_zigzag_iff_of_le (hn : (vacantCells vac side).length ≤ n) (r c : Nat) :
    (r, c) ∈ cells ↔ vac r c = true := by
  rw [← mem_vacantCells hgrid]
  exact ((subperm_vacantCells hgrid h).perm_of_length_le (length_zigzag h ▸ hn)).mem_iff

/-- The vacant cells a traversal leaves out (R187). -/
theorem countP_not_mem_zigzag :
    (square side).countP (fun p => vac p.1 p.2 && !cells.contains p) = (vacantCells vac side).length - n := by
  have hperm : ((vacantCells vac side).filter (fun p => cells.contains p)).Perm cells :=
    (List.perm_ext_iff_of_nodup ((nodup_vacantCells vac side).filter _) (nodup_zigzag h)).2 fun p => by
      rw [List.mem_filter, List.contains_iff_mem]
      exact and_iff_right_of_imp fun hp => (subperm_vacantCells hgrid h).subset hp
  have hsplit := List.length_eq_length_filter_add (l := vacantCells vac side) (fun p => cells.contains p)
  rw [hperm.length_eq, length_zigzag h] at hsplit
  rw [hsplit, Nat.add_sub_cancel_left, vacantCells, List.filter_filter, List.countP_eq_length_filter]
  simp only [Bool.and_comm]

end Count

/-! ### The six walks -/

/-- The vacant cells of each version, counted (R156). -/
def standardCounts : List (Nat × Nat) := [(1, 208), (2, 359), (3, 567), (4, 807), (5, 1079), (6, 1383)]

theorem mem_standardCounts {v : Nat} (h1 : 1 ≤ v) (h6 : v ≤ 6) : (v, stdVacantCount v) ∈ standardCounts := by
  have hcounts := standardReservedSet.2.1
  simp only [List.map_cons, List.map_nil, List.cons.injEq] at hcounts
  interval_cases v <;> simp [standardCounts, hcounts]

theorem eq_ok_of_mem_toOption {ε α : Type} {x : Except ε α} {a : α} (h : a ∈ x.toOption) : x = .ok a := by
  cases x with
  | error e => cases h
  | ok b => exact congrArg _ (Option.some.inj h)

/-- The walk to the last vacant cell of each version, by evaluation: it starts at a vacant cell, ends in the left
phase, and has the ends of V-PL-1 and the order of R188. -/
theorem standardWalks_evaluated : ∀ p ∈ standardCounts,
    stdVacant p.1 (sideOf p.1 - 1) (sideOf p.1 - 1) = true ∧
    ∃ walk ∈ (walkFrom (stdVacant p.1) (sideOf p.1) (p.2 - 1) (startTrav (sideOf p.1))).toOption,
      (walk[p.2 - 1]?).map Trav.phase = some .left ∧
      (walk.map Trav.cell).take 3 =
        [(sideOf p.1 - 1, sideOf p.1 - 1), (sideOf p.1 - 1, sideOf p.1 - 2), (sideOf p.1 - 2, sideOf p.1 - 1)] ∧
      (walk.map Trav.cell).drop (p.2 - 3) =
        [(sideOf p.1 - 10, 0), (sideOf p.1 - 9, 1), (sideOf p.1 - 9, 0)] ∧
      (p.1 = 1 → walk.map Trav.cell = standardOrder1) := by
  decide +kernel

section Standard

variable {v : Nat} (h1 : 1 ≤ v) (h6 : v ≤ 6)

include h1 h6

/-- The walk to the last vacant cell. -/
theorem exists_standardWalk : ∃ walk,
    walkFrom (stdVacant v) (sideOf v) (stdVacantCount v - 1) (startTrav (sideOf v)) = .ok walk ∧
    (walk[stdVacantCount v - 1]?).map Trav.phase = some .left ∧
    (walk.map Trav.cell).take 3 =
      [(sideOf v - 1, sideOf v - 1), (sideOf v - 1, sideOf v - 2), (sideOf v - 2, sideOf v - 1)] ∧
    (walk.map Trav.cell).drop (stdVacantCount v - 3) =
      [(sideOf v - 10, 0), (sideOf v - 9, 1), (sideOf v - 9, 0)] ∧
    (v = 1 → walk.map Trav.cell = standardOrder1) := by
  obtain ⟨-, walk, hwalk, hfacts⟩ := standardWalks_evaluated _ (mem_standardCounts h1 h6)
  exact ⟨walk, eq_ok_of_mem_toOption hwalk, hfacts⟩

theorem stdVacant_start : stdVacant v (startTrav (sideOf v)).row (startTrav (sideOf v)).col = true :=
  (standardWalks_evaluated _ (mem_standardCounts h1 h6)).1

theorem stdVacantCount_pos : 0 < stdVacantCount v := by
  have hpos : ∀ p ∈ standardCounts, 0 < p.2 := by decide
  exact hpos _ (mem_standardCounts h1 h6)

theorem stdVacantCount_le_maxBits : stdVacantCount v ≤ maxBits := by
  have hle : ∀ p ∈ standardCounts, p.2 ≤ maxBits := by decide
  exact hle _ (mem_standardCounts h1 h6)

/-- The traversal of the first `n` bits is a walk. -/
theorem zigzag_standard_succ (n : Nat) : zigzag (stdVacant v) (sideOf v) (n + 1) (startTrav (sideOf v)) =
    (walkFrom (stdVacant v) (sideOf v) n (startTrav (sideOf v))).map (List.map Trav.cell) :=
  zigzag_of_vacant (stdVacant_start h1 h6) n

/-- The traversal completes for as many bits as there are vacant cells (R188, property 3). -/
theorem zigzag_standard_ok {n : Nat} (hn : n ≤ stdVacantCount v) :
    ∃ cells, zigzag (stdVacant v) (sideOf v) n (startTrav (sideOf v)) = .ok cells := by
  obtain _ | n := n
  · exact ⟨[], rfl⟩
  · obtain ⟨walk, hwalk, -⟩ := exists_standardWalk h1 h6
    obtain ⟨shorter, hshorter⟩ := exists_walkFrom_of_le hwalk (Nat.le_pred_of_lt hn)
    exact ⟨shorter.map Trav.cell, by rw [zigzag_standard_succ h1 h6, hshorter]; rfl⟩

/-- One advance more fails: there is no vacant cell left to go to, and the walk has ended in the left phase. -/
theorem walkFrom_standard_exhausted :
    walkFrom (stdVacant v) (sideOf v) (stdVacantCount v) (startTrav (sideOf v)) = .error .invPlaceExhausted := by
  cases hlonger : walkFrom (stdVacant v) (sideOf v) (stdVacantCount v) (startTrav (sideOf v)) with
  | ok walk =>
    have hcells : zigzag (stdVacant v) (sideOf v) (stdVacantCount v + 1) (startTrav (sideOf v)) =
        .ok (walk.map Trav.cell) := by
      rw [zigzag_standard_succ h1 h6, hlonger]
      rfl
    exact absurd (le_length_vacantCells (inGrid_stdVacant v) hcells) (Nat.not_succ_le_self _)
  | error e =>
    obtain ⟨walk, hwalk, hphase, -⟩ := exists_standardWalk h1 h6
    rw [← Nat.sub_add_cancel (stdVacantCount_pos h1 h6)] at hlonger
    obtain ⟨u, hu, hadvance⟩ := advance_end_of_walkFrom hwalk hlonger
    rw [hu] at hphase
    obtain ⟨hright, -⟩ | ⟨-, rfl⟩ := advance_error hadvance
    · cases hright.symm.trans (Option.some.inj hphase)
    · rfl

/-- A longer sequence of bits exhausts the grid (R188, property 3). -/
theorem zigzag_standard_exhausted {n : Nat} (hn : stdVacantCount v < n) :
    zigzag (stdVacant v) (sideOf v) n (startTrav (sideOf v)) = .error .invPlaceExhausted := by
  obtain ⟨n, rfl⟩ := Nat.exists_eq_add_of_le' (Nat.lt_of_le_of_lt (Nat.zero_le _) hn)
  rw [zigzag_standard_succ h1 h6,
    walkFrom_error_mono (walkFrom_standard_exhausted h1 h6) (Nat.le_of_lt_succ hn)]
  rfl

/-- The standard traversal of a version: every vacant cell once, from V-PL-1's first cells to its last (R188). -/
theorem exists_standardTraversal : ∃ cells,
    zigzag (stdVacant v) (sideOf v) (stdVacantCount v) (startTrav (sideOf v)) = .ok cells ∧
    cells.Nodup ∧ (∀ r c, (r, c) ∈ cells ↔ stdVacant v r c = true) ∧
    cells.take 3 = [(sideOf v - 1, sideOf v - 1), (sideOf v - 1, sideOf v - 2), (sideOf v - 2, sideOf v - 1)] ∧
    cells.drop (stdVacantCount v - 3) = [(sideOf v - 10, 0), (sideOf v - 9, 1), (sideOf v - 9, 0)] ∧
    (v = 1 → cells = standardOrder1) := by
  obtain ⟨walk, hwalk, -, hfacts⟩ := exists_standardWalk h1 h6
  have hcells : zigzag (stdVacant v) (sideOf v) (stdVacantCount v) (startTrav (sideOf v)) =
      .ok (walk.map Trav.cell) := by
    rw [← Nat.sub_add_cancel (stdVacantCount_pos h1 h6), zigzag_standard_succ h1 h6, hwalk]
    rfl
  exact ⟨_, hcells, nodup_zigzag hcells, mem_zigzag_iff_of_le (inGrid_stdVacant v) hcells le_rfl, hfacts⟩

end Standard

/-- Settles O28: the walk of the traversal, the moves of an advance, and the standard walks. -/
theorem standardTraversalIsComplete : Obligations.StandardTraversalIsComplete := by
  refine ⟨fun vac side n => ⟨fun _ => exists_isWalk_of_zigzag_ok, fun _ => exists_isWalk_of_zigzag_error⟩,
    fun vac side r c d hr => ?moves, fun _ => exists_standardTraversal⟩
  refine ⟨advance_right_of_vacantLeftOf, fun hleft _ => advance_right_of_nearest hr hleft,
    advance_right_eq_error_iff hr, fun p hp hbetween => ?nearest, fun htaken => ?leave⟩
  case nearest =>
    exact advance_left_of_nearest hr hp fun q hq hqp => rowTaken_succ.2 (hbetween q hq hqp)
  case leave =>
    rw [advance_left_of_taken hr fun p hp => rowTaken_succ.2 (htaken p hp), ← Dir.flip_eq]
    exact ⟨fun _ _ => exhausted_of_first, exhausted_of_none⟩

end Sys2Proof.Machine
end

section
/-! PROOFS. PLACE. After its two checks the command is the traversal followed by a commit, which holds the bit of each
visited cell, Dark in the slack cells, and nothing else. It looks at REF only through the vacancy of its cells. -/

namespace Sys2Proof.Machine

/-! ### The checks and the traversal -/

theorem exec_place_of_error {s : State} {e : CmdError} (h : placeResult s = .error e) :
    exec .place s = .next (s.afterError e.code) := by
  rw [exec_eq_conclude, commandResult, h, conclude_error]

theorem exec_place_of_ok {s u : State} (h : placeResult s = .ok u) : exec .place s = .next u.afterSuccess := by
  rw [exec_eq_conclude, commandResult, h, conclude_ok]

theorem side_of_legal {s : State} (h1 : 1 ≤ s.csr.version.toNat) (h6 : s.csr.version.toNat ≤ 6) :
    s.side = .ok (sideOf s.csr.version.toNat) :=
  if_pos ⟨h1, h6⟩

theorem side_of_illegal {s : State} (h : s.csr.version.toNat = 0 ∨ s.csr.version.toNat = 7) :
    s.side = .error .cfgVersion :=
  if_neg (by omega)

theorem placeResult_of_side_error {s : State} {e : CmdError} (h : s.side = .error e) : placeResult s = .error e := by
  rw [placeResult, h]

section Legal

variable {s : State} (h1 : 1 ≤ s.csr.version.toNat) (h6 : s.csr.version.toNat ≤ 6)

include h1 h6

theorem placeResult_of_maxBits_lt (hn : maxBits < s.csr.seqNbits.toNat) : placeResult s = .error .ovfRange := by
  rw [placeResult, side_of_legal h1 h6]
  exact if_pos hn

/-- What the traversal of a legal command visits, with the sequence, is what it commits (R186). -/
theorem placeResult_of_legal (hn : s.csr.seqNbits.toNat ≤ maxBits) : placeResult s =
    (zigzag (s.vacant (sideOf s.csr.version.toNat)) (sideOf s.csr.version.toNat) s.csr.seqNbits.toNat
      (startTrav (sideOf s.csr.version.toNat))).map fun cells =>
        placeCommit (sideOf s.csr.version.toNat) (cells.zip (s.sequence s.csr.seqNbits.toNat)) s := by
  rw [placeResult, side_of_legal h1 h6]
  dsimp only
  rw [if_neg (not_lt.2 hn), vacantIn_grid s (sideOf_le h6)]
  cases zigzag (s.vacant (sideOf s.csr.version.toNat)) (sideOf s.csr.version.toNat) s.csr.seqNbits.toNat
    (startTrav (sideOf s.csr.version.toNat)) <;> rfl

end Legal

/-! ### The placed bits -/

theorem length_sequence (s : State) (n : Nat) : (s.sequence n).length = n := by
  simp [State.sequence]

/-- Bit `k` of the sequence: codewords MSB first (R78). -/
theorem getElem?_sequence (s : State) {n k : Nat} (hk : k < n) (hn : n ≤ maxBits) :
    (s.sequence n)[k]? = some ((s.entry .seq (k / 8)).getLsbD (7 - k % 8)) := by
  have hentry : k / 8 < bufEntries := by
    simp only [maxBits, bufEntries] at hn ⊢
    omega
  simp [State.sequence, seqBit, State.buffer_eq, hk, hentry]

section Zip

variable {cells : List (Nat × Nat)} {bits : List Bool}

theorem isNone_lookup_zip (hlen : cells.length ≤ bits.length) (p : Nat × Nat) :
    ((cells.zip bits).lookup p).isNone = !cells.contains p := by
  induction cells generalizing bits with
  | nil => rfl
  | cons q cells ih =>
    obtain _ | ⟨b, bits⟩ := bits
    · cases hlen
    · rw [List.zip_cons_cons, List.lookup_cons, List.contains_cons]
      cases p == q with
      | true => rfl
      | false => exact ih (Nat.le_of_succ_le_succ hlen)

theorem lookup_zip_of_getElem? (hcells : cells.Nodup) {k : Nat} {p : Nat × Nat} {b : Bool} (hp : cells[k]? = some p)
    (hb : bits[k]? = some b) : (cells.zip bits).lookup p = some b := by
  induction cells generalizing bits k with
  | nil => cases hp
  | cons q cells ih =>
    obtain ⟨hq, hrest⟩ := List.nodup_cons.1 hcells
    obtain _ | ⟨b', bits⟩ := bits
    · cases hb
    rw [List.zip_cons_cons, List.lookup_cons]
    cases k with
    | zero =>
      cases hp
      cases hb
      rw [beq_self_eq_true]
    | succ k =>
      rw [beq_false_of_ne fun heq : p = q => hq (heq ▸ List.mem_of_getElem? hp)]
      exact ih hrest hp hb

end Zip

/-! ### The commit -/

/-- A slack cell of PLACE: vacant, Unset in DATA, and not visited (R187). -/
def State.slack (s : State) (side : Nat) (cells : List (Nat × Nat)) (r c : Nat) : Bool :=
  s.vacant side r c && (s.cell .data r c).isUnset && !cells.contains (r, c)

theorem vacant_of_lt (s : State) {side r c : Nat} (hr : r < side) (hc : c < side) :
    s.vacant side r c = (s.cell .ref r c).isUnset := by
  simp [State.vacant, hr, hc]

theorem placedModule_of_lookup {s : State} {placed : List ((Nat × Nat) × Bool)} {r c : Nat} {b : Bool}
    (h : placed.lookup (r, c) = some b) : placedModule s placed r c = some (QrModule.ofBit b) := by
  rw [placedModule, h]

theorem placedModule_of_lookup_none {s : State} {placed : List ((Nat × Nat) × Bool)} {r c : Nat}
    (h : placed.lookup (r, c) = none) : placedModule s placed r c =
      if (s.cell .ref r c).isUnset && (s.cell .data r c).isUnset then some .dark else none := by
  rw [placedModule, h]

/-- A byte that is no cell PLACE puts a module in is as it was (R186). -/
theorem readByte_placeCommit_of_ne (s : State) (placed : List ((Nat × Nat) × Bool)) {side a : Nat}
    (hside : side ≤ maxSide)
    (ha : ∀ r < side, ∀ c < side, (placedModule s placed r c).isSome = true → a ≠ cellAddr .data r c) :
    (placeCommit side placed s).readByte a = s.readByte a := by
  have hwrite := State.readByte_writeCells s
    (gridCells .data side side (fun r c => (placedModule s placed r c).map QrModule.code)) a
  rw [find_gridCells_none .data (le_trans hside (by decide)) fun r hr c hc h =>
    ha r hr c hc (Option.isSome_map ▸ h), ← placeCells_eq s placed hside] at hwrite
  exact hwrite

/-- FILL_COUNT is the number of slack cells, and no other register changes (R187). -/
theorem csr_placeCommit (s : State) (placed : List ((Nat × Nat) × Bool)) {side : Nat} (hside : side ≤ maxSide) :
    (placeCommit side placed s).csr = { s.csr with
      fillCount := BitVec.ofNat 11 ((square side).countP fun p =>
        (s.cell .ref p.1 p.2).isUnset && (s.cell .data p.1 p.2).isUnset && (placed.lookup p).isNone) } := by
  have hrow (r : Nat) (hr : r ∈ List.range side) :
      slackCount side ((s.grid .ref).getD r []) ((s.grid .data).getD r []) (rowPlacements placed r) =
        ((List.range side).map fun c => (r, c)).countP fun p =>
          (s.cell .ref p.1 p.2).isUnset && (s.cell .data p.1 p.2).isUnset && (placed.lookup p).isNone := by
    rw [slackCount, List.countP_map]
    refine List.countP_congr fun c hc => ?_
    rw [slackIn_eq s placed (lt_of_lt_of_le (List.mem_range.1 hr) hside)
      (lt_of_lt_of_le (List.mem_range.1 hc) hside)]
    rfl
  rw [square, List.countP_flatMap, Function.comp_def, ← List.map_congr_left hrow]
  rfl

section Placed

variable {s : State} {side : Nat} {cells : List (Nat × Nat)} {bits : List Bool} (hlen : cells.length ≤ bits.length)

include hlen

theorem lookup_zip_eq_none_iff {p : Nat × Nat} : (cells.zip bits).lookup p = none ↔ p ∉ cells := by
  rw [← Option.isNone_iff_eq_none, isNone_lookup_zip hlen, Bool.not_eq_true', ← List.contains_iff_mem,
    Bool.not_eq_true]

theorem placedModule_of_slack {r c : Nat} (h : s.slack side cells r c = true) :
    placedModule s (cells.zip bits) r c = some .dark := by
  simp only [State.slack, State.vacant, Bool.and_eq_true, Bool.not_eq_true'] at h
  obtain ⟨⟨⟨-, href⟩, hdata⟩, hcells⟩ := h
  rw [placedModule_of_lookup_none ((lookup_zip_eq_none_iff hlen).2 fun hmem => ?_), href, hdata]
  · rfl
  · rw [List.contains_iff_mem.2 hmem] at hcells
    cases hcells

/-- PLACE puts a module in visited cells and in slack cells only. -/
theorem mem_or_slack_of_placedModule {r c : Nat} (hr : r < side) (hc : c < side)
    (h : (placedModule s (cells.zip bits) r c).isSome = true) : (r, c) ∈ cells ∨ s.slack side cells r c = true := by
  by_cases hmem : (r, c) ∈ cells
  · exact .inl hmem
  · rw [placedModule_of_lookup_none ((lookup_zip_eq_none_iff hlen).2 hmem)] at h
    refine .inr ?_
    rw [State.slack, vacant_of_lt s hr hc, Bool.and_eq_true, Bool.not_eq_true', ← Bool.not_eq_true,
      List.contains_iff_mem]
    refine ⟨?_, hmem⟩
    by_contra hno
    rw [if_neg hno] at h
    cases h

/-- FILL_COUNT counts the slack cells (R187). -/
theorem csr_placeCommit_zip (hside : side ≤ maxSide) : (placeCommit side (cells.zip bits) s).csr = { s.csr with
    fillCount := BitVec.ofNat 11 ((square side).countP fun p => s.slack side cells p.1 p.2) } := by
  have hcount : (square side).countP (fun p => (s.cell .ref p.1 p.2).isUnset && (s.cell .data p.1 p.2).isUnset &&
      ((cells.zip bits).lookup p).isNone) = (square side).countP fun p => s.slack side cells p.1 p.2 :=
    List.countP_congr fun p hp => by
      obtain ⟨hr, hc⟩ := mem_square.1 hp
      rw [isNone_lookup_zip hlen, State.slack, vacant_of_lt s hr hc]
  rw [csr_placeCommit s _ hside, hcount]

end Placed

/-! ### The statement about the command -/

section Success

variable {s : State} {n side : Nat} {cells : List (Nat × Nat)}
  (h : zigzag (s.vacant side) side n (startTrav side) = .ok cells)

include h

theorem length_cells_le : cells.length ≤ (s.sequence n).length := by
  rw [length_zigzag h, length_sequence]

variable (hside : side ≤ maxSide)

include hside

/-- The `k`-th cell of the traversal receives bit `k` of the sequence (R181, R186). -/
theorem cell_placeCommit_visited (hn : n ≤ maxBits) {k r c : Nat} (hk : cells[k]? = some (r, c)) :
    (placeCommit side (cells.zip (s.sequence n)) s).cell .data r c =
      if (s.entry .seq (k / 8)).getLsbD (7 - k % 8) then .dark else .light := by
  obtain ⟨hr, hc⟩ := inGrid_vacant s side r c (vacant_of_mem_zigzag h _ (List.mem_of_getElem? hk))
  have hkn : k < n := length_zigzag h ▸ (List.getElem?_eq_some_iff.1 hk).1
  rw [cell_placeCommit s _ hside hr hc,
    placedModule_of_lookup (lookup_zip_of_getElem? (nodup_zigzag h) hk (getElem?_sequence s hkn hn))]
  rfl

/-- Every slack cell is filled Dark (R187). -/
theorem cell_placeCommit_slack {r c : Nat} (hr : r < side) (hc : c < side) (hslack : s.slack side cells r c = true) :
    (placeCommit side (cells.zip (s.sequence n)) s).cell .data r c = .dark := by
  rw [cell_placeCommit s _ hside hr hc, placedModule_of_slack (length_cells_le h) hslack]
  rfl

/-- Nothing but the visited and the slack cells is written (R186). -/
theorem readByte_placeCommit_frame {a : Nat} (hvisited : ∀ p ∈ cells, a ≠ cellAddr .data p.1 p.2)
    (hslack : ∀ r < side, ∀ c < side, s.slack side cells r c = true → a ≠ cellAddr .data r c) :
    (placeCommit side (cells.zip (s.sequence n)) s).readByte a = s.readByte a :=
  readByte_placeCommit_of_ne s _ hside fun r hr c hc hplaced =>
    (mem_or_slack_of_placedModule (length_cells_le h) hr hc hplaced).elim (hvisited (r, c)) (hslack r hr c hc)

end Success

/-- Settles O11: the checks in order, the traversal's error, or the commit by what it leaves in memory. -/
theorem placeCommand : Obligations.PlaceCommand := by
  refine ⟨fun s => ⟨fun hv => ?version, fun h1 h6 hn => ?range, fun h1 h6 hn => ?traversal, fun h1 h6 hn => ?commit⟩,
    fun w => decode_eq_ite_of_row 10 rfl⟩
  case version => exact exec_place_of_error (placeResult_of_side_error (side_of_illegal hv))
  case range => exact exec_place_of_error (placeResult_of_maxBits_lt h1 h6 hn)
  case traversal =>
    have hfail (e : CmdError) (h : zigzag (s.vacant (sideOf s.csr.version.toNat)) (sideOf s.csr.version.toNat)
        s.csr.seqNbits.toNat (startTrav (sideOf s.csr.version.toNat)) = .error e) :
        exec .place s = .next (s.afterError e.code) :=
      exec_place_of_error ((placeResult_of_legal h1 h6 hn).trans (congrArg _ h))
    exact ⟨hfail _, hfail _, hfail _, fun e => zigzag_error_cases⟩
  case commit =>
    intro cells h
    have hside := sideOf_le h6
    have hcommit := exec_place_of_ok ((placeResult_of_legal h1 h6 hn).trans (congrArg _ h))
    exact ⟨_, hcommit, length_zigzag h, fun k r c => cell_placeCommit_visited h hside hn,
      fun r hr c hc => cell_placeCommit_slack h hside hr hc, fun a => readByte_placeCommit_frame h hside,
      csr_placeCommit_zip (length_cells_le h) hside, rfl⟩

/-! ### PLACE on the standard grid -/

theorem State.refIsStandard.vacant_eq {s : State} {v : Nat} (h : s.refIsStandard v) :
    s.vacant (sideOf v) = stdVacant v := by
  funext r c
  by_cases hin : r < sideOf v ∧ c < sideOf v
  · obtain ⟨hr, hc⟩ := hin
    rw [vacant_of_lt s hr hc, stdVacant_eq_not_stdRef hr hc, Bool.eq_iff_iff, Bool.not_eq_true', ← Bool.not_eq_true,
      ← h r hr c hc, Bool.not_eq_false]
  · rw [(inGrid_vacant s _).eq_false hin, (inGrid_stdVacant v).eq_false hin]

/-- On a cleared layer the slack cells are the vacant ones that are not visited (R187). -/
theorem State.dataCleared.countP_slack {s : State} {side n : Nat} {cells : List (Nat × Nat)}
    (hcleared : s.dataCleared side) (h : zigzag (s.vacant side) side n (startTrav side) = .ok cells) :
    (square side).countP (fun p => s.slack side cells p.1 p.2) = (vacantCells (s.vacant side) side).length - n := by
  rw [← countP_not_mem_zigzag (inGrid_vacant s side) h]
  refine List.countP_congr fun p hp => ?_
  obtain ⟨hr, hc⟩ := mem_square.1 hp
  rw [State.slack, hcleared _ hr _ hc]
  simp [QrModule.isUnset]

/-- Settles O29: the standard traversal completes up to its last vacant cell and is exhausted beyond it. -/
theorem placeOnStandardGrid : Obligations.PlaceOnStandardGrid := by
  rintro s _ rfl h1 h6 hstandard hcleared
  have hside := sideOf_le h6
  have hvacant := hstandard.vacant_eq
  refine ⟨fun hn => ?fits, fun hlong hn => ?exhausts⟩
  case fits =>
    obtain ⟨cells, h⟩ := zigzag_standard_ok h1 h6 hn
    have hbits := le_trans hn (stdVacantCount_le_maxBits h1 h6)
    rw [← hvacant] at h
    refine ⟨_, exec_place_of_ok ((placeResult_of_legal h1 h6 hbits).trans (congrArg _ h)), rfl, ?_⟩
    have hcsr := csr_placeCommit_zip (s := s) (length_cells_le h) hside
    rw [hcleared.countP_slack h, hvacant] at hcsr
    exact congrArg Csr.fillCount hcsr
  case exhausts =>
    have h := zigzag_standard_exhausted h1 h6 hlong
    rw [← hvacant] at h
    exact exec_place_of_error ((placeResult_of_legal h1 h6 hn).trans (congrArg _ h))

/-! ### What PLACE reads -/

/-- A cell of DATA outside the square is as it was (R186). -/
theorem cell_placeCommit_outside (s : State) (placed : List ((Nat × Nat) × Bool)) {side r c : Nat}
    (hside : side ≤ maxSide) (hc : c < maxSide) (hout : ¬ (r < side ∧ c < side)) :
    (placeCommit side placed s).cell .data r c = s.cell .data r c := by
  refine congrArg QrModule.ofCode (readByte_placeCommit_of_ne s placed hside fun r' hr' c' hc' _ heq => ?_)
  simp only [maxSide] at hside hc
  obtain ⟨rfl, rfl⟩ := cellAddr_inj (by omega) (by omega) heq
  exact hout ⟨hr', hc'⟩

/-- Two states hold the same registers, sequence and data layer, and reserve the same cells. -/
structure SamePlaceInputs (s s' : State) : Prop where
  csr : s'.csr = s.csr
  status : s'.status = s.status
  seq : ∀ i < bufEntries, s'.entry .seq i = s.entry .seq i
  data : ∀ r < maxSide, ∀ c < maxSide, s'.cell .data r c = s.cell .data r c
  reserved : ∀ r < maxSide, ∀ c < maxSide, (s'.cell .ref r c).isUnset = (s.cell .ref r c).isUnset

namespace SamePlaceInputs

variable {s s' : State} {side : Nat} (h : SamePlaceInputs s s') (hside : side ≤ maxSide)

include h

theorem sequence_eq (n : Nat) : s'.sequence n = s.sequence n := by
  have hbuffer : s'.buffer .seq = s.buffer .seq := by
    rw [State.buffer_eq, State.buffer_eq]
    exact List.map_congr_left fun i hi => h.seq i (List.mem_range.1 hi)
  rw [State.sequence, State.sequence, hbuffer]

theorem placedModule_eq (placed : List ((Nat × Nat) × Bool)) {r c : Nat} (hr : r < maxSide) (hc : c < maxSide) :
    placedModule s' placed r c = placedModule s placed r c := by
  rw [placedModule, placedModule, h.reserved r hr c hc, h.data r hr c hc]

include hside

theorem vacant_eq : s'.vacant side = s.vacant side := by
  funext r c
  by_cases hin : r < side ∧ c < side
  · obtain ⟨hr, hc⟩ := hin
    rw [vacant_of_lt s' hr hc, vacant_of_lt s hr hc, h.reserved r (by omega) c (by omega)]
  · rw [(inGrid_vacant s' side).eq_false hin, (inGrid_vacant s side).eq_false hin]

theorem cell_placeCommit_eq (placed : List ((Nat × Nat) × Bool)) {r c : Nat} (hr : r < maxSide) (hc : c < maxSide) :
    (placeCommit side placed s').cell .data r c = (placeCommit side placed s).cell .data r c := by
  by_cases hin : r < side ∧ c < side
  · obtain ⟨hr', hc'⟩ := hin
    rw [cell_placeCommit s' placed hside hr' hc', cell_placeCommit s placed hside hr' hc',
      h.placedModule_eq placed hr hc, h.data r hr c hc]
  · rw [cell_placeCommit_outside s' placed hside hc hin, cell_placeCommit_outside s placed hside hc hin,
      h.data r hr c hc]

theorem csr_placeCommit_eq (placed : List ((Nat × Nat) × Bool)) :
    (placeCommit side placed s').csr = (placeCommit side placed s).csr := by
  have hcount : (square side).countP (fun p => (s'.cell .ref p.1 p.2).isUnset && (s'.cell .data p.1 p.2).isUnset &&
      (placed.lookup p).isNone) = (square side).countP fun p => (s.cell .ref p.1 p.2).isUnset &&
        (s.cell .data p.1 p.2).isUnset && (placed.lookup p).isNone :=
    List.countP_congr fun p hp => by
      obtain ⟨hr, hc⟩ := mem_square.1 hp
      rw [h.reserved _ (by omega) _ (by omega), h.data _ (by omega) _ (by omega)]
  rw [csr_placeCommit s' placed hside, csr_placeCommit s placed hside, hcount, h.csr]

omit hside in
/-- PLACE fails in both states with one error, or commits the same placements in both. -/
theorem placeResult_cases : (∃ e, placeResult s = .error e ∧ placeResult s' = .error e) ∨
    ∃ side placed, side ≤ maxSide ∧ placeResult s = .ok (placeCommit side placed s) ∧
      placeResult s' = .ok (placeCommit side placed s') := by
  obtain ⟨h1, h6, -⟩ | ⟨-, hversion⟩ := side_cases s
  · have hside := sideOf_le h6
    by_cases hn : s.csr.seqNbits.toNat ≤ maxBits
    · have hs' := placeResult_of_legal (s := s') (h.csr ▸ h1) (h.csr ▸ h6) (h.csr ▸ hn)
      have hs := placeResult_of_legal h1 h6 hn
      rw [h.csr, h.vacant_eq hside, h.sequence_eq] at hs'
      cases hzigzag : zigzag (s.vacant (sideOf s.csr.version.toNat)) (sideOf s.csr.version.toNat)
        s.csr.seqNbits.toNat (startTrav (sideOf s.csr.version.toNat)) with
      | error e => exact .inl ⟨e, hs.trans (congrArg _ hzigzag), hs'.trans (congrArg _ hzigzag)⟩
      | ok cells =>
        exact .inr ⟨_, _, hside, hs.trans (congrArg _ hzigzag), hs'.trans (congrArg _ hzigzag)⟩
    · have hn := not_le.1 hn
      exact .inl ⟨_, placeResult_of_maxBits_lt h1 h6 hn,
        placeResult_of_maxBits_lt (h.csr ▸ h1) (h.csr ▸ h6) (h.csr ▸ hn)⟩
  · have hversion' : s'.side = .error .cfgVersion := by rw [State.side, h.csr]; exact hversion
    exact .inl ⟨_, placeResult_of_side_error hversion, placeResult_of_side_error hversion'⟩

end SamePlaceInputs

/-- Settles O31: both states run the same traversal, and commit the same modules and count, or fail alike. -/
theorem placeReadsOnlyTheReservedSet : Obligations.PlaceReadsOnlyTheReservedSet := by
  intro s s' t t' hcsr hstatus hseq hdata hreserved hexec hexec'
  have h : SamePlaceInputs s s' := ⟨hcsr, hstatus, hseq, hdata, hreserved⟩
  obtain ⟨e, hs, hs'⟩ | ⟨side, placed, hside, hs, hs'⟩ := h.placeResult_cases
  · cases (exec_place_of_error hs).symm.trans hexec
    cases (exec_place_of_error hs').symm.trans hexec'
    exact ⟨hcsr, by rw [State.afterError_status, State.afterError_status, hstatus], hdata⟩
  · cases (exec_place_of_ok hs).symm.trans hexec
    cases (exec_place_of_ok hs').symm.trans hexec'
    refine ⟨h.csr_placeCommit_eq hside placed, ?_, fun r hr c hc => h.cell_placeCommit_eq hside placed hr hc⟩
    rw [State.afterSuccess_status, State.afterSuccess_status, placeCommit_status, placeCommit_status, hstatus]

end Sys2Proof.Machine
end

section
/-! PROOFS. MASK. Its commit flips each cell of the square where the predicate holds, Unset being its own flip. The
predicate and the square are those of K and VERSION alone, which MASK does not write, so the second commit flips the
same cells back. -/

namespace Sys2Proof.Machine

/-- Settles O32, predicate by predicate: each is the test of its formula. -/
theorem maskPredicateFormulas : Obligations.MaskPredicateFormulas := fun _ _ =>
  ⟨beq_iff_eq, beq_iff_eq, beq_iff_eq, beq_iff_eq, beq_iff_eq, beq_iff_eq, beq_iff_eq, beq_iff_eq⟩

/-! ### The flip of a module -/

theorem QrModule.flip_flip (m : QrModule) : m.flip.flip = m := by cases m <;> rfl

theorem QrModule.flip_of_isUnset {m : QrModule} (h : m.isUnset = true) : m.flip = m := by
  cases m with
  | unset => rfl
  | light | dark => cases h

/-- Light and Dark change places (R201). -/
theorem QrModule.flip_of_set {m : QrModule} (h : m.isUnset = false) :
    m.flip = if m = .dark then .light else .dark := by
  cases m with
  | unset => cases h
  | light | dark => rfl

/-! ### The commit -/

/-- The module MASK puts at `(r, c)` of DATA: the flip of a set module where the predicate holds (R201). -/
def maskedModule (s : State) (k r c : Nat) : Option QrModule :=
  if !(s.cell .data r c).isUnset && maskPredicate k r c then some (s.cell .data r c).flip else none

/-- What MASK commits over VERSION's square (R201). -/
def maskCommit (k : Nat) (s : State) : State :=
  s.writeCells (gridCells .data (sideOf s.csr.version.toNat) (sideOf s.csr.version.toNat)
    (fun r c => (maskedModule s k r c).map QrModule.code))

@[simp] theorem maskCommit_csr (k : Nat) (s : State) : (maskCommit k s).csr = s.csr := rfl

theorem exec_mask_of_illegal {s : State} (k : BitVec 3) (h : s.csr.version.toNat = 0 ∨ s.csr.version.toNat = 7) :
    exec (.mask k) s = .next (s.afterError CmdError.cfgVersion.code) := by
  rw [exec_eq_conclude, commandResult, maskResult, side_of_illegal h, conclude_error]

theorem isSome_maskedModule (s : State) (k r c : Nat) :
    (maskedModule s k r c).isSome = (!(s.cell .data r c).isUnset && maskPredicate k r c) := by
  rw [maskedModule]
  split_ifs with h
  · exact h.symm
  · exact (Bool.eq_false_iff.2 h).symm

/-- A cell keeps its module where MASK puts none: there the predicate fails, or the cell is Unset. -/
theorem getD_maskedModule (s : State) (k r c : Nat) : (maskedModule s k r c).getD (s.cell .data r c) =
    if maskPredicate k r c then (s.cell .data r c).flip else s.cell .data r c := by
  rw [maskedModule]
  cases maskPredicate k r c with
  | false => rw [Bool.and_false]; rfl
  | true =>
    cases hunset : (s.cell .data r c).isUnset with
    | false => rfl
    | true => exact (QrModule.flip_of_isUnset hunset).symm

section Legal

variable {s : State} {k : Nat} (h1 : 1 ≤ s.csr.version.toNat) (h6 : s.csr.version.toNat ≤ 6)

include h6

/-- A byte that is no cell MASK puts a module in is as it was (R201). -/
theorem readByte_maskCommit_of_ne {a : Nat}
    (ha : ∀ r < sideOf s.csr.version.toNat, ∀ c < sideOf s.csr.version.toNat,
      (maskedModule s k r c).isSome = true → a ≠ cellAddr .data r c) :
    (maskCommit k s).readByte a = s.readByte a := by
  rw [maskCommit, State.readByte_writeCells,
    find_gridCells_none .data (le_trans (sideOf_le h6) (by decide)) fun r hr c hc hm =>
      ha r hr c hc (Option.isSome_map ▸ hm), Option.getD_none]

/-- A byte that is no cell of DATA is as it was (R201). -/
theorem readByte_maskCommit_outside {a : Nat} (ha : ∀ r < maxSide, ∀ c < maxSide, a ≠ cellAddr .data r c) :
    (maskCommit k s).readByte a = s.readByte a :=
  readByte_maskCommit_of_ne h6 fun r hr c hc _ =>
    ha r (lt_of_lt_of_le hr (sideOf_le h6)) c (lt_of_lt_of_le hc (sideOf_le h6))

theorem cell_maskCommit_square {r c : Nat} (hr : r < sideOf s.csr.version.toNat) (hc : c < sideOf s.csr.version.toNat) :
    (maskCommit k s).cell .data r c =
      if maskPredicate k r c then (s.cell .data r c).flip else s.cell .data r c := by
  rw [← getD_maskedModule, maskCommit, State.cell, State.readByte_writeCells,
    find_gridCells .data (le_trans (sideOf_le h6) (by decide)) hr hc]
  cases maskedModule s k r c with
  | none => rfl
  | some m => exact QrModule.ofCode_code m

/-- MASK flips the cells of the square where the predicate holds, and leaves every other cell (R201). -/
theorem cell_maskCommit {r c : Nat} (hc : c < maxSide) : (maskCommit k s).cell .data r c =
    if (r < sideOf s.csr.version.toNat ∧ c < sideOf s.csr.version.toNat) ∧ maskPredicate k r c = true
    then (s.cell .data r c).flip else s.cell .data r c := by
  by_cases hin : r < sideOf s.csr.version.toNat ∧ c < sideOf s.csr.version.toNat
  · rw [cell_maskCommit_square h6 hin.1 hin.2]
    simp only [hin, true_and, and_self]
  · rw [if_neg fun h => hin h.1]
    refine congrArg QrModule.ofCode (readByte_maskCommit_of_ne h6 fun r' hr' c' hc' _ heq => ?_)
    have hside := sideOf_le h6
    simp only [maxSide] at hside hc
    obtain ⟨rfl, rfl⟩ := cellAddr_inj (by omega) (by omega) heq
    exact hin ⟨hr', hc'⟩

/-- A second commit flips back what the first one flipped (R201). -/
theorem cell_maskCommit_twice {r c : Nat} (hc : c < maxSide) :
    (maskCommit k (maskCommit k s).afterSuccess).cell .data r c = s.cell .data r c := by
  rw [cell_maskCommit (s := (maskCommit k s).afterSuccess) h6 hc, State.cell_afterSuccess, cell_maskCommit h6 hc,
    State.afterSuccess_csr, maskCommit_csr]
  split_ifs
  · exact QrModule.flip_flip _
  · rfl

include h1

theorem exec_mask_of_legal (k : BitVec 3) : exec (.mask k) s = .next (maskCommit k.toNat s).afterSuccess := by
  rw [exec_eq_conclude, commandResult, maskResult, side_of_legal h1 h6]
  dsimp only
  rw [maskCells_eq s k.toNat (sideOf_le h6), conclude_ok]
  rfl

end Legal

/-! ### The statements about the command -/

/-- Settles O12: VERSION's check, or the commit by the cells it flips and the bytes it leaves. -/
theorem maskCommand : Obligations.MaskCommand := by
  refine ⟨fun k s => ⟨exec_mask_of_illegal k, fun h1 h6 => ⟨_, exec_mask_of_legal h1 h6 k, ?flipped, ?frame, rfl⟩⟩,
    fun w => decode_eq_ite_of_row 11 rfl⟩
  case flipped =>
    intro r hr c hc hflips
    obtain ⟨hset, hpredicate⟩ := (Bool.and_eq_true _ _).mp hflips
    rw [State.cell_afterSuccess, cell_maskCommit_square h6 hr hc, if_pos hpredicate,
      QrModule.flip_of_set ((Bool.not_eq_true' _).mp hset)]
  case frame =>
    intro a ha
    exact readByte_maskCommit_of_ne h6 fun r hr c hc hm => ha r hr c hc ((isSome_maskedModule s _ r c).symm.trans hm)

/-- Settles O33: both commits are of one VERSION, so the cells are flipped back and the other bytes left twice. -/
theorem maskTwiceRestores : Obligations.MaskTwiceRestores := by
  intro k s t h1 h6 hexec
  cases (exec_mask_of_legal h1 h6 k).symm.trans hexec
  refine ⟨_, exec_mask_of_legal (s := (maskCommit k.toNat s).afterSuccess) h1 h6 k, fun r _ c hc => ?cells,
    fun a ha => ?frame⟩
  case cells => exact cell_maskCommit_twice h6 hc
  case frame =>
    exact (readByte_maskCommit_outside (s := (maskCommit k.toNat s).afterSuccess) h6 ha).trans
      (readByte_maskCommit_outside h6 ha)

end Sys2Proof.Machine
end

section
/-! PROOFS. Completion and progress. A command answers a next state, because `conclude` turns either result of its
checked computation into a completion; the Engine's step adds the completion of a decode error, and the Host and the
hard reset answer a next state by definition. -/

namespace Sys2Proof.Machine

/-! ### A command completes, with success or with an error -/

/-- Every command answers a next state (R224). -/
theorem exists_exec_eq_next (i : Instr) (s : State) : ∃ t, exec i s = .next t := by
  rw [exec_eq_conclude]
  cases commandResult i s with
  | ok u => exact ⟨_, conclude_ok s u⟩
  | error e => exact ⟨_, conclude_error s e⟩

/-- The eleven codes are among the values of R221. -/
theorem CmdError.code_mem_legalErrCodes (e : CmdError) : e.code ∈ legalErrCodes := by cases e <;> decide

/-- A commit leaves STATUS to the completion (R70, R224). -/
theorem Commits.status_eq {i : Instr} {s u : State} (h : Commits i s u) : u.status = s.status := by
  obtain ⟨us, c, rfl, -⟩ := h
  exact State.writeCells_status s us

/-- Settles O42: a command commits and succeeds, STATUS being left to the completion, or fails with one of the eleven
codes. -/
theorem commitRule : Obligations.CommitRule := by
  intro i s
  obtain ⟨t, ht⟩ := exists_exec_eq_next i s
  refine ⟨t, ht, ?_⟩
  rcases exec_cases ht with ⟨u, hu, rfl⟩ | ⟨e, rfl⟩
  · exact .inl (by rw [State.afterSuccess_status, hu.status_eq])
  · exact .inr ⟨e.code, e.code_mem_legalErrCodes, e.code_ne_zero, rfl⟩

/-! ### Every agent's move answers a next state -/

/-- The Engine completes the latched word, a command or a decode error (R70, R99). -/
theorem exists_engineStep_eq_next (s : State) : ∃ t, engineStep s = .next t := by
  cases hi : decode s.csr.cmd with
  | ok i =>
    rw [engineStep, hi]
    exact exists_exec_eq_next i s
  | error e => exact ⟨_, engineStep_error hi⟩

theorem exists_engineTurn_eq_next (s : State) : ∃ t, engineTurn s = .next t := by
  rw [engineTurn]
  split
  · exact exists_engineStep_eq_next s
  · exact ⟨s, rfl⟩

/-- Settles O44, agent by agent: the Engine's turn completes whatever word is latched, and the moves of the Host and
of the hard-reset input are next states as they stand. -/
theorem stepAlwaysAnswersNext : Obligations.StepAlwaysAnswersNext := by
  intro s
  rw [step]
  split
  next => exact ⟨_, rfl⟩
  next => exact exists_engineTurn_eq_next _
  next => exact ⟨_, rfl⟩
  next =>
    split
    · exact exists_engineTurn_eq_next s
    · exact ⟨_, rfl⟩

end Sys2Proof.Machine
end

section
/-! PROOFS. Runs of the machine. A busy machine uses up its turns one by one until the Engine moves, and that move
completes the command; a Host that waits without an issue is left where it stands by every move. -/

namespace Sys2Proof.Machine

/-! ### Runs -/

section Runs

variable {M : Host.Core}

theorem run_succ {s u : M.State} (h : M.step s = .next u) (k : Nat) : M.run (k + 1) s = M.run k u := by
  rw [Host.Core.run, h]

/-- What every step keeps, every run keeps. -/
theorem run_keeps {P : M.State → Prop} (hstep : ∀ s, P s → ∃ t, M.step s = .next t ∧ P t) (k : Nat) {s : M.State}
    (h : P s) : ∃ t, M.run k s = .next t ∧ P t := by
  induction k generalizing s with
  | zero => exact ⟨s, rfl, h⟩
  | succ k ih =>
    obtain ⟨u, hu, hPu⟩ := hstep s h
    rw [run_succ hu]
    exact ih hPu

end Runs

/-! ### A command completes -/

/-- Whatever word is latched, the Engine's step ends the command (R70, R99, R224). -/
theorem engineStep_completes (s : State) :
    ∃ t, engineStep s = .next t ∧ t.status.busy = false ∧ t.status.done = true := by
  cases hi : decode s.csr.cmd with
  | error e => exact ⟨_, engineStep_error hi, rfl, rfl⟩
  | ok i =>
    obtain ⟨t, ht⟩ := exists_exec_eq_next i s
    refine ⟨t, by rw [engineStep, hi]; exact ht, ?_⟩
    rcases exec_cases ht with ⟨u, -, rfl⟩ | ⟨e, rfl⟩
    · exact ⟨rfl, rfl⟩
    · exact ⟨rfl, rfl⟩

/-- When the Engine moves, one step completes the command (R70, R262). -/
theorem run_one_completes {s u : State} (hb : s.status.busy = true)
    (hu : s.turns = [] ∧ u = s ∨ ∃ ts, s.turns = .engine :: ts ∧ u = { s with turns := ts }) :
    ∃ t, core.run 1 s = .next t ∧ t.status.busy = false ∧ t.status.done = true := by
  obtain ⟨t, ht, hdone⟩ := engineStep_completes u
  exact ⟨t, run_succ ((step_eq_engineStep hb hu).1.trans ht) 0, hdone⟩

theorem writeSlotBusy_turns (w : Word) (s : State) (slot : Slot) : (writeSlotBusy w s slot).turns = s.turns := by
  unfold writeSlotBusy
  split
  · rfl
  · split <;> rfl
  all_goals rfl

theorem busWrite_turns {s : State} (hb : s.status.busy = true) (size : Width) (a : BitVec 17) (w : Word) :
    (busWrite size a w s).turns = s.turns := by
  rw [busWrite, if_pos hb]
  split
  · rfl
  · exact writeSlotBusy_turns w s _

theorem busRead_turns (size : Width) (a : BitVec 17) (s : State) : (busRead size a s).2.turns = s.turns := by
  rcases busRead_snd_cases size a s with h | h | h <;> rw [h] <;> rfl

/-- The order of moves is not the Host's to change (R71). -/
theorem hostTurn_turns {s : State} (hb : s.status.busy = true) : (hostTurn s).turns = s.turns := by
  rw [hostTurn]
  split
  next => rfl
  next size t rest _ =>
    rw [keepRead_turns, accessRead]
    split
    · exact busRead_turns size _ { s with prog := rest }
    · rfl
  next size t w rest _ =>
    rw [accessWrite]
    split
    · exact busWrite_turns (s := { s with prog := rest }) hb size _ w
    · rfl
  next => exact busRead_turns _ _ { s with prog := _ }
  next => rfl

/-- Settles O48, by induction on the turns: the Host's turns leave BUSY set, and the Engine's, set or not, completes
the command. -/
theorem issuedCommandCompletes : Obligations.IssuedCommandCompletes := by
  intro s hb hreset
  induction hturns : s.turns generalizing s with
  | nil =>
    obtain ⟨t, hrun, hdone⟩ := run_one_completes hb (.inl ⟨hturns, rfl⟩)
    exact ⟨1, t, le_rfl, hrun, hdone⟩
  | cons turn ts ih =>
    cases turn with
    | engine =>
      obtain ⟨t, hrun, hdone⟩ := run_one_completes hb (.inr ⟨ts, hturns, rfl⟩)
      exact ⟨1, t, Nat.succ_le_succ (Nat.zero_le _), hrun, hdone⟩
    | hardReset => exact absurd (hturns ▸ List.mem_cons_self) hreset
    | host =>
      let u : State := { s with turns := ts }
      have hstep : step s = .next (hostTurn u) := by simp only [step, hturns, u]
      have hbu : u.status.busy = true := hb
      have hts : (hostTurn u).turns = ts := hostTurn_turns hbu
      have hreset' : Turn.hardReset ∉ (hostTurn u).turns :=
        fun h => hreset (hturns ▸ List.mem_cons_of_mem _ (hts ▸ h))
      obtain ⟨k, t, hk, hrun, hdone⟩ := ih _ ((sameInputs_hostTurn hbu).busy.trans hbu) hreset' hts
      exact ⟨k + 1, t, Nat.succ_le_succ hk, (run_succ hstep k).trans hrun, hdone⟩

/-! ### A wait without an issue -/

/-- The Engine does nothing while BUSY = 0 (R70). -/
theorem engineTurn_idle {s : State} (hb : s.status.busy = false) : engineTurn s = .next s := by
  rw [engineTurn, hb]
  rfl

/-- The machine is idle and has completed nothing, and the Host's program is `prog`. -/
structure Waits (prog : List HostOp) (s : State) : Prop where
  idle : s.status.busy = false
  notDone : s.status.done = false
  prog_eq : s.prog = prog

section Waiting

variable {prog rest : List HostOp} (hwait : prog = .wait :: rest ∨ prog = .waitIrq :: rest)
include hwait

/-- Neither form of wait goes on while DONE = 0, for `irq` is then 0 (R39, R102). -/
theorem waits_hostTurn {s : State} (h : Waits prog s) : Waits prog (hostTurn s) := by
  obtain ⟨hidle, hdone, rfl⟩ := h
  rcases hwait with hprog | hprog
  · rw [hostTurn_wait hprog, hdone]
    exact ⟨hidle, hdone, hprog.symm⟩
  · have hirq : s.irq = false := by rw [State.irq, hdone, Bool.and_false]
    rw [hostTurn_waitIrq hprog, hirq]
    exact ⟨hidle, hdone, hprog.symm⟩

/-- The Engine is idle, and a hard reset clears DONE and keeps the program (R70, R250). -/
theorem waits_step {s : State} (h : Waits prog s) : ∃ t, step s = .next t ∧ Waits prog t := by
  have hturns (ts : List Turn) : Waits prog { s with turns := ts } := ⟨h.idle, h.notDone, h.prog_eq⟩
  rw [step]
  split
  next ts _ => exact ⟨_, rfl, waits_hostTurn hwait (hturns ts)⟩
  next ts _ => exact ⟨_, engineTurn_idle h.idle, hturns ts⟩
  next ts _ => exact ⟨_, rfl, rfl, rfl, h.prog_eq⟩
  next => exact ⟨_, if_neg (by simp [h.idle]), waits_hostTurn hwait h⟩

end Waiting

/-- Settles O49: no agent's move lets a wait go on, so no run does. -/
theorem waitWithoutIssueNeverEnds : Obligations.WaitWithoutIssueNeverEnds := by
  intro s rest hb hdone hwait k
  have hwaits : Waits s.prog s := ⟨hb, hdone, rfl⟩
  obtain ⟨t, hrun, ht⟩ := run_keeps (M := core) (fun _ => waits_step hwait) k hwaits
  exact ⟨t, hrun, ht.prog_eq, ht.notDone, ht.idle⟩

end Sys2Proof.Machine
end

section
/-! PROOFS. The resets. The hard reset and the state after reset share one form, from which what the Host reads
follows; the soft reset is the write to CTRL with SRST = 1. -/

namespace Sys2Proof.Machine

/-! ### The state right after reset -/

/-- Settles O46. -/
theorem resetMeetsInvariant : Obligations.ResetMeetsInvariant :=
  (State.inv_iff _).2 ⟨Status.inv_reset, Csr.inv_reset, rfl⟩

/-- The registers are at their reset values and no memory element was written since (R250, R251). -/
structure State.IsReset (s : State) : Prop where
  status : s.status = Status.reset
  csr : s.csr = Csr.reset
  mem : s.mem = []

theorem isReset_reset : State.reset.IsReset := ⟨rfl, rfl, rfl⟩

theorem isReset_hardReset (s : State) : (hardReset s).IsReset := ⟨rfl, rfl, rfl⟩

section IsReset

variable {s : State} (h : s.IsReset)
include h

theorem State.IsReset.status_word : s.status.word = 0#32 := by
  rw [h.status]
  rfl

theorem State.IsReset.busy : s.status.busy = false := by
  rw [h.status]
  rfl

theorem State.IsReset.irq : s.irq = false := by
  rw [State.irq, h.csr]
  rfl

theorem State.IsReset.readReg_eq {r : Reg} (hr : r ≠ .id) : readReg s r = 0#32 := by
  cases r
  case id => exact absurd rfl hr
  case status => exact h.status_word
  all_goals
    rw [readReg, h.csr]
    rfl

theorem State.IsReset.readByte_eq (a : Nat) : s.readByte a = unlisted s.epoch a := by
  rw [State.readByte, h.mem]
  rfl

theorem State.IsReset.entry_eq (b : BufferId) {i : Nat} (hi : i < 256) :
    s.entry b i = Config.drawByte s.epoch (entryAddr b i) := by
  have hlt : entryAddr b i < GridId.base .ref := by
    cases b <;> simp only [entryAddr, BufferId.base, GridId.base] <;> omega
  rw [State.entry, h.readByte_eq, unlisted, if_pos hlt]

theorem State.IsReset.cell_eq (g : GridId) (r c : Nat) : s.cell g r c = Config.drawModule s.epoch (cellAddr g r c) := by
  have hge : ¬ cellAddr g r c < GridId.base .ref := by
    cases g <;> simp only [cellAddr, GridId.base] <;> omega
  rw [State.cell, h.readByte_eq, unlisted, if_neg hge, QrModule.ofCode_code]

end IsReset

/-- Settles O51: both states have the form of a reset. -/
theorem hardResetClearsRegisters : Obligations.HardResetClearsRegisters := by
  refine ⟨fun s ts hturns => ?_, ?_⟩
  · have hstep : step s = .next (hardReset { s with turns := ts }) := by simp only [step, hturns]
    have h := isReset_hardReset { s with turns := ts }
    exact ⟨_, hstep, h.status_word, h.busy, h.irq, fun _ => h.readReg_eq, rfl, rfl, fun b _ hi => h.entry_eq b hi,
      fun g r _ c _ => h.cell_eq g r c⟩
  · have h := isReset_reset
    exact ⟨h.status_word, h.busy, h.irq, fun _ => h.readReg_eq, rfl, fun b _ hi => h.entry_eq b hi,
      fun g r _ c _ => h.cell_eq g r c⟩

/-! ### The soft reset -/

/-- While BUSY = 0, SRST = 1 is the soft reset, whatever IE is written with it (R24, R252). -/
theorem busWrite_ctrl_softReset {s : State} {w : Word} (hw : w.getLsbD 1 = true) (hb : s.status.busy = false) :
    busWrite .word 0x00008#17 w s = softReset s := by
  rw [busWrite_reg hb w .ctrl (by decide), writeReg, writeCtrl, if_pos hw]

/-- CTRL reads as IE, busy or not, so SRST reads 0 (R24, R66). -/
theorem busRead_ctrl (s : State) : busRead .word 0x00008#17 s = (BitVec.ofNat 32 s.csr.ie.toNat, s) :=
  busRead_reg_busy s (r := .ctrl) (by decide) (by decide)

/-- Settles O52, by what a write to CTRL does while BUSY = 0 and while BUSY = 1. -/
theorem softResetKeepsMemories : Obligations.SoftResetKeepsMemories := by
  intro s w hw
  refine ⟨busWrite_ctrl_softReset hw, fun hb => ?busy, ?srst, ?irq⟩
  case busy => rw [busWrite_ctrl_busy hb, if_pos hw]
  case srst =>
    simp only [busRead_ctrl]
    cases s.csr.ie <;> decide
  case irq =>
    rw [busWrite_ctrl_softReset hw rfl]
    rfl

end Sys2Proof.Machine
end
